-- ==== Sys2Proof/Word.lean ====
section
/-! DEFINITION. The word types of QSB: the 32-bit register word, the byte of buffer memory, and the 64-bit
pattern a LO/HI register pair holds (spec/10_state.md R31). -/

namespace Sys2Proof

/-- A host register, a command word or a buffer address: 32 bits (R11 REG_WIDTH and ADDR_WIDTH, R31). -/
abbrev Word := BitVec 32

/-- A byte of buffer memory (R60, R61); also an offset of the register port, which is 8 bits (R33). -/
abbrev Byte := BitVec 8

/-- A floating-point bit pattern zero-extended to the 64 bits of a LO/HI pair (R31, R41, R42). -/
abbrev Pattern := BitVec 64

/-- Bits 31:0 of a pattern, the LO register of its pair (R31). -/
def Pattern.lo (p : Pattern) : Word := BitVec.ofNat 32 p.toNat

/-- Bits 63:32 of a pattern, the HI register of its pair (R31). -/
def Pattern.hi (p : Pattern) : Word := BitVec.ofNat 32 (p.toNat / 2 ^ 32)

/-- The pattern `{hi, lo}` of a register pair (R12, R31). -/
def Pattern.ofPair (hi lo : Word) : Pattern := BitVec.ofNat 64 (hi.toNat * 2 ^ 32 + lo.toNat)

end Sys2Proof
end

