-- ==== Sys2Proof/Syntax.lean ====
section
/-! DEFINITION. Syntax: the six commands (one constructor per row of spec/opcode_table.json), the host's accesses
and the host assembler's lines (spec/30_encoding.md, spec/40_command_interface.md R100). -/

namespace Sys2Proof

/-- The RawValue format, code FMT (R8, R82): binary32 is 0, binary64 is 1. -/
inductive Fmt where
  | f32
  | f64
deriving DecidableEq, Repr

/-- The six commands of R81, with the fields of the command word each one uses (R86). -/
inductive Instr where
  /-- SCAN, the range scanner (R137). -/
  | scan (fmt : Fmt)
  /-- INITB, construction from an explicit bound (R146). -/
  | initb (fmt : Fmt) (qtype : Nat) (eb : Nat)
  /-- INITS, construction from a sample buffer (R148). -/
  | inits (fmt : Fmt) (qtype : Nat) (eb : Nat)
  /-- QUANT, the forward transform (R166). -/
  | quant
  /-- DEQUANT, the inverse transform (R172). -/
  | dequant
  /-- RELEASE, the end of an instance (R180). -/
  | release
deriving DecidableEq, Repr

/-- Why a command word is illegal (R89). The block reports all three alike, as ILLEGAL_COMMAND. -/
inductive IllegalWord where
  /-- One of bits 31:13 is set (R85). -/
  | reservedBits
  /-- OP is 0x0 or 0x7 to 0xF (R81). -/
  | reservedOp
  /-- A field the operation does not use is not 0 (R86). -/
  | unusedField
deriving DecidableEq, Repr

/-- The names of the host registers (R33, R91). -/
inductive RegName where
  | caps | cmd | status | errIndex | srcAddr | dstAddr | count
  | boundLo | boundHi | absmaxLo | absmaxHi | scaleLo | scaleHi | satCnt
deriving DecidableEq, Repr

/-- One transaction of the host on QSB's interfaces (R100). -/
inductive HostAccess where
  /-- `RegRead(off)`, 32 bits wide (R102). -/
  | regRead (off : Byte)
  /-- `RegWrite(off, v)`, 32 bits wide (R103); at CMD it runs a command (R101). -/
  | regWrite (off : Byte) (v : Word)
  /-- A register access of fewer than 4 bytes, "not part of the interface" (R100, I5). -/
  | regNarrow (off : Byte) (bytes : Nat)
  /-- `HostMemRead(a)` (R61). -/
  | memRead (a : Word)
  /-- `HostMemWrite(a, v)` (R61). -/
  | memWrite (a : Word) (v : Byte)
  /-- `Reset()` between accesses (R100, R220). -/
  | reset
  /-- A write of `w` to CMD whose command a reset abandons while it runs (R221). -/
  | resetDuring (w : Word)
deriving DecidableEq, Repr

/-- What a read access returned to the host: "an observation of the program" (R91). -/
inductive Observation where
  | reg (off : Byte) (v : Word)
  | mem (a : Word) (v : Byte)
deriving DecidableEq, Repr

/-- A line of a host program: the base forms of R91 and the pseudo-instructions of R92. -/
inductive Line where
  | wr (name : RegName) (v : Word)
  | rd (name : RegName)
  | mwb (addr : Word) (v : Byte)
  | mrb (addr : Word)
  /-- `SCAN fmt`, `INITB fmt, qtype, eb`, `INITS fmt, qtype, eb`, `QUANT`, `DEQUANT`, `RELEASE`. -/
  | command (i : Instr)
  /-- `CMD imm32`, any word. -/
  | cmd (w : Word)
  | mwh (addr : Word) (v : BitVec 16)
  | mww (addr : Word) (v : Word)
  | mwd (addr : Word) (v : BitVec 64)
  /-- `wr64 BOUND, imm64`; BOUND is the only pair R92 admits. -/
  | wr64Bound (v : BitVec 64)
deriving DecidableEq, Repr

end Sys2Proof
end

