-- ==== Sys2Proof/WellFormed.lean ====
section
/-! DEFINITION. Which terms of the syntax the spec's encodings and interfaces admit. -/

namespace Sys2Proof

/-- A command's operands fit their fields: QTYPE is 3 bits wide (R83) and EB 5 bits (R84). -/
def Instr.wf : Instr → Bool
  | .scan _ => true
  | .initb _ qt eb => decide (qt < 8) && decide (eb < 32)
  | .inits _ qt eb => decide (qt < 8) && decide (eb < 32)
  | .quant => true
  | .dequant => true
  | .release => true

/-- The command is well formed. -/
abbrev Instr.WellFormed (i : Instr) : Prop := i.wf = true

/-- The access is part of the interface: a register access is aligned and 32 bits wide (R100). -/
def HostAccess.wf : HostAccess → Bool
  | .regRead off => off.toNat % 4 == 0
  | .regWrite off _ => off.toNat % 4 == 0
  | .regNarrow _ _ => false
  | .memRead _ => true
  | .memWrite _ _ => true
  | .reset => true
  | .resetDuring _ => true

/-- The access is part of the interface. -/
abbrev HostAccess.InInterface (x : HostAccess) : Prop := x.wf = true

/-- A line's command has operands its mnemonic admits (R92: `i16` or `q1` to `q7`, `eb` 0 to 31). -/
def Line.wf : Line → Bool
  | .command i => i.wf
  | .wr _ _ => true
  | .rd _ => true
  | .mwb _ _ => true
  | .mrb _ => true
  | .cmd _ => true
  | .mwh _ _ => true
  | .mww _ _ => true
  | .mwd _ _ => true
  | .wr64Bound _ => true

/-- The line is well formed. -/
abbrev Line.WellFormed (l : Line) : Prop := l.wf = true

end Sys2Proof
end

