-- ==== Sys2Proof/Decode.lean ====
section
/-! DEFINITION. The command word: decoding, total on all 2^32 words (R88), and the encoder of the same table
(R80, R81, R86). -/

namespace Sys2Proof

/-- The FMT bit as a format (R82). -/
def fmtOfBit (b : Bool) : Fmt := if b then .f64 else .f32

/-- A format as its FMT bit (R82). -/
def fmtBit : Fmt → Bool
  | .f32 => false
  | .f64 => true

/-- The OP codes of R81. -/
def opcode : Instr → BitVec 4
  | .scan _ => 0x1
  | .initb _ _ _ => 0x2
  | .inits _ _ _ => 0x3
  | .quant => 0x4
  | .dequant => 0x5
  | .release => 0x6

/-- A decoded operation whose unused fields must all be 0 (R86). -/
def ifUnused (unused : Bool) (i : Instr) : Except IllegalWord Instr :=
  if unused then .ok i else .error .unusedField

/-- `decode(w)` of R88: bits 31:13 first, then OP, then the must-be-0 fields of R86. -/
def decode (w : Word) : Except IllegalWord Instr :=
  let f := w.getLsbD 4
  let qt := (w.extractLsb' 5 3).toNat
  let eb := (w.extractLsb' 8 5).toNat
  if w.extractLsb' 13 19 ≠ 0 then .error .reservedBits
  else
    match (w.extractLsb' 0 4).toNat with
    | 1 => ifUnused (qt == 0 && eb == 0) (.scan (fmtOfBit f))
    | 2 => .ok (.initb (fmtOfBit f) qt eb)
    | 3 => .ok (.inits (fmtOfBit f) qt eb)
    | 4 => ifUnused (!f && qt == 0 && eb == 0) .quant
    | 5 => ifUnused (!f && qt == 0 && eb == 0) .dequant
    | 6 => ifUnused (!f && qt == 0 && eb == 0) .release
    | _ => .error .reservedOp

/-- A field of `width` bits at bit `lo` of a word (R12). -/
def placeField (lo width v : Nat) : Nat := v % 2 ^ width * 2 ^ lo

/-- The fields of R80 at their bits: EB 12:8, QTYPE 7:5, FMT 4, OP 3:0; the reserved bits 31:13 are 0 (R85). -/
def commandWord (eb : Nat) (qt : Nat) (f : Bool) (op : BitVec 4) : Word :=
  BitVec.ofNat 32 (placeField 8 5 eb + placeField 5 3 qt + placeField 4 1 f.toNat + placeField 0 4 op.toNat)

/-- The word of a command: its OP and its fields where R86 lets it use them, 0 elsewhere. -/
def encode : Instr → Word
  | .scan f => commandWord 0 0 (fmtBit f) (opcode (.scan f))
  | .initb f qt eb => commandWord eb qt (fmtBit f) (opcode (.initb f qt eb))
  | .inits f qt eb => commandWord eb qt (fmtBit f) (opcode (.inits f qt eb))
  | .quant => commandWord 0 0 false (opcode .quant)
  | .dequant => commandWord 0 0 false (opcode .dequant)
  | .release => commandWord 0 0 false (opcode .release)

/-- The command the decoder reads from the low `nbits` bits of `w`; a command is one 32-bit register write, so
there are no bytes to order (R80, R90). -/
def decodeTableWord (nbits w : Nat) : Option Instr :=
  match decode (BitVec.ofNat 32 (w % 2 ^ nbits)) with
  | .ok i => some i
  | .error _ => none

end Sys2Proof
end

