-- ==== Sys2Proof/Config.lean ====
section
/-! DEFINITION. What an implementation fixes and what the spec leaves open: the parameters of the block
(spec/00_scope.md R11, spec/93_implementation_defined.md I1 and I2) and the two families of draws, which have
no body, so that nothing can prove a value of one. -/

namespace Sys2Proof

/-- The parameters the spec leaves to the model's argument (R11): the size of buffer memory and the reading of
the negative saturation bound. -/
structure Params where
  /-- MEM_BYTES, OPEN (I1): any multiple of 8 from 8 to 2^32. -/
  memBytes : Nat
  /-- SYM_SAT (I2): QSB's value is false; true gives the symmetric negative bound of the source's §8. -/
  symSat : Bool
deriving DecidableEq, Repr

/-- The constraint R11 puts on MEM_BYTES. -/
abbrev Params.Legal (p : Params) : Prop :=
  p.memBytes % 8 = 0 ∧ 8 ≤ p.memBytes ∧ p.memBytes ≤ 2 ^ 32

/-- The parameters of the spec's own vectors: 95_test_vectors.md assumes MEM_BYTES = 256, and QSB's SYM_SAT is
false. DESIGN CHOICE for MEM_BYTES, log 2; only that the reset state meets the invariant rests on it. -/
def Params.ofVectors : Params := { memBytes := 256, symSat := false }

/-- FREE VALUE (R62, I3): the byte of buffer memory at an address that nothing has written since power-on, "an
unconstrained draw". One byte per address, so that reads are idempotent (R70). Log 3. -/
opaque Config.powerOnByte : Nat → Byte

/-- FREE VALUE (R221, I4): the bytes a reset leaves in the destination buffer of the command it abandons; one per
draw, numbered by State.draws. Log 4. -/
opaque Config.abandonedByte : Nat → Byte

end Sys2Proof
end

