-- ==== Sys2Proof/Machine/State.lean ====
section
/-! DEFINITION. The state of QSB: the host registers (spec/10_state.md R33), buffer memory (spec/20_memory.md R60), and
the model's own fields (the parameters, the host's remaining accesses, what it has observed, the count of draws). -/

namespace Sys2Proof.Machine

/-- The error codes of R190; their numbers are `errCode` of Flags.lean. Codes 11 to 15 are never written. -/
inductive ErrCode where
  | none
  | unsupportedType
  | empty
  | nonFinite
  | badBound
  | rangeOverflow
  | scaleOverflow
  | noInstance
  | illegalCommand
  | memRange
  | memAlign
deriving DecidableEq, Repr

/-- The instance: "the group STATUS.VALID, STATUS.DEGEN, STATUS.FMT, STATUS.QTYPE, STATUS.EB and the SCALE pair" (R32). -/
structure Inst where
  /-- STATUS bit 0 (R35). -/
  valid : Bool
  /-- STATUS bit 1 (R35). -/
  degen : Bool
  /-- STATUS bit 2 (R35). -/
  fmt : Fmt
  /-- STATUS bits 5:3 (R35). -/
  qtype : BitVec 3
  /-- STATUS bits 10:6 (R35). -/
  eb : BitVec 5
  /-- SCALE_LO, offset 0x30 (R42). -/
  scaleLo : Word
  /-- SCALE_HI, offset 0x34 (R42). -/
  scaleHi : Word
deriving DecidableEq, Repr

/-- No instance: every field of the group is 0 (R36, R112). -/
def Inst.absent : Inst :=
  { valid := false, degen := false, fmt := .f32, qtype := 0, eb := 0, scaleLo := 0, scaleHi := 0 }

/-- Buffer memory: the bytes written since power-on, each once, addresses strictly rising (`Memory.Canonical` of
Ops.lean). An unlisted address has never been written and reads as its draw (R62; log 3). -/
abbrev Memory := List Host.Cell

/-- Everything the spec gives the machine (R30), and after it the model's own fields. CAPS and CMD hold nothing: CAPS
is a constant and CMD reads 0 (R33). -/
structure State where
  /-- STATUS bits 10:0 and SCALE (R32, R35, R42). -/
  inst : Inst
  /-- STATUS.ERR, bits 19:16 (R35). -/
  err : ErrCode
  /-- ERR_INDEX, offset 0x0C (R37). -/
  errIndex : Word
  /-- SRC_ADDR, offset 0x10 (R38). -/
  srcAddr : Word
  /-- DST_ADDR, offset 0x14 (R38). -/
  dstAddr : Word
  /-- COUNT, offset 0x18 (R39). -/
  count : Word
  /-- BOUND_LO, offset 0x20 (R40). -/
  boundLo : Word
  /-- BOUND_HI, offset 0x24 (R40). -/
  boundHi : Word
  /-- ABSMAX_LO, offset 0x28 (R41). -/
  absmaxLo : Word
  /-- ABSMAX_HI, offset 0x2C (R41). -/
  absmaxHi : Word
  /-- SATCNT, offset 0x38 (R43). -/
  satCnt : Word
  /-- Buffer memory (R60). -/
  mem : Memory
  /-- The model's own: MEM_BYTES and SYM_SAT, the model's arguments; no step writes them (R11; log 2). -/
  params : Params
  /-- The model's own: the accesses the host has still to make, in program order (R25, R73; log 1). -/
  pending : List HostAccess
  /-- The model's own: what the host's reads returned, the latest first (R91; log 1). -/
  observed : List Observation
  /-- The model's own: how many bytes an abandoned command's destination has drawn (R221; log 4). -/
  draws : Nat
deriving DecidableEq, Repr

/-- What stops the machine: nothing does. Every error is a code in STATUS.ERR after which the host's next access
proceeds (R192, R196), and an access outside memory reads 0 or is ignored (R63). -/
inductive Fault where
deriving DecidableEq, Repr

/-- Why a step has no meaning. -/
inductive Refusal where
  /-- Raised by `exec` for an instruction without a meaning; no arm does. Safe: the machine stops. -/
  | notModelled (mnemonic : String)
  /-- Raised by the register port at off[1:0] ≠ 0, which "a model refuses" (R100, I5). Safe: the machine stops. -/
  | misalignedRegister (off : Byte)
  /-- Raised by the register port for an access narrower than 32 bits, which "a model refuses" (R100, I5). Safe: the
  machine stops. -/
  | narrowRegister (off : Byte) (bytes : Nat)
deriving DecidableEq, Repr

/-- The machine right after power-on reset: every register at its value in R33 (R46), memory with nothing written
(R62), and no host access placed. The parameters are those of the spec's vectors (log 2). -/
def State.reset : State :=
  { inst := Inst.absent, err := .none, errIndex := 0
    srcAddr := 0, dstAddr := 0, count := 0, boundLo := 0, boundHi := 0
    absmaxLo := 0, absmaxHi := 0, satCnt := 0
    mem := [], params := Params.ofVectors, pending := [], observed := [], draws := 0 }

end Sys2Proof.Machine
end

