-- ==== Sys2Proof/Machine/Flags.lean ====
section
/-! DEFINITION. The flags and the constant registers: STATUS (spec/10_state.md R35, R44), CAPS (R34) and the numbers of the
error codes (spec/60_exceptions.md R190). -/

namespace Sys2Proof.Machine

/-- The number of an error code, as STATUS.ERR holds it (R190). -/
def errCode : ErrCode → BitVec 4
  | .none => 0
  | .unsupportedType => 1
  | .empty => 2
  | .nonFinite => 3
  | .badBound => 4
  | .rangeOverflow => 5
  | .scaleOverflow => 6
  | .noInstance => 7
  | .illegalCommand => 8
  | .memRange => 9
  | .memAlign => 10

/-- The word STATUS reads as: `{12'b0, ERR, 5'b0, EB, QTYPE, FMT, DEGEN, VALID}` (R35, R102). -/
def statusWord (i : Inst) (e : ErrCode) : Word :=
  BitVec.ofNat 32
    (placeField 16 4 (errCode e).toNat + placeField 6 5 i.eb.toNat + placeField 3 3 i.qtype.toNat
      + placeField 2 1 (fmtBit i.fmt).toNat + placeField 1 1 i.degen.toNat + placeField 0 1 i.valid.toNat)

/-- EB_MAX, the largest ExtraBits value (R11). -/
def ebMax : Nat := 31

/-- QTYPES = {0}: int16 is the one supported code (R9, R11, R131). -/
def qtypeSupported (qt : Nat) : Bool := qt == 0

/-- CAPS by its fields: EB_MAX at 20:16, QTYPE_MASK at 15:8, F64 at 1, F32 at 0; the other bits are 0 (R34). -/
def capsWord : Word :=
  BitVec.ofNat 32 (placeField 16 5 ebMax + placeField 8 8 0x01 + placeField 1 1 1 + placeField 0 1 1)

end Sys2Proof.Machine
end

