-- ==== Sys2Proof/Machine/Numeric.lean ====
section
/-! DEFINITION. The numeric primitives (spec/00_scope.md R15 to R22): IEEE patterns as exact rationals, the one
rounding RNE_F, and the integer rounding and clamp of the quantizer. Every real the spec computes is rational. -/

namespace Sys2Proof.Machine

/-- The width W of a format in bits (R15). -/
def fWidth : Fmt → Nat
  | .f32 => 32
  | .f64 => 64

/-- The precision p, the significand bits including the hidden bit (R15). -/
def fPrec : Fmt → Nat
  | .f32 => 24
  | .f64 => 53

/-- The exponent width k (R15). -/
def fExpWidth : Fmt → Nat
  | .f32 => 8
  | .f64 => 11

/-- emax = 2^(k-1) - 1 (R15). -/
def emax (F : Fmt) : ℤ := 2 ^ (fExpWidth F - 1) - 1

/-- emin = 1 - emax (R15). -/
def emin (F : Fmt) : ℤ := 1 - emax F

/-- ES(F) = W/8, the element size in bytes (R15, R105). -/
def elemSize (F : Fmt) : Nat := fWidth F / 8

/-- `pow2(n)`, the exact real 2^n (R22). -/
def pow2 (n : ℤ) : ℚ := (2 : ℚ) ^ n

/-- MAX_F = (2 - 2^(1-p)) * 2^emax, the largest finite value (R15). -/
def maxFinite (F : Fmt) : ℚ := (2 - pow2 (1 - fPrec F)) * pow2 (emax F)

/-- A value of a format that is not NaN: finite, or an infinity with its sign. A NaN is the `none` of `decodeF`, and no
operation of QSB yields one (R17). -/
inductive FpNum where
  | fin (r : ℚ)
  | inf (neg : Bool)
deriving DecidableEq, Repr

/-- The sign bit b[W-1] of a pattern (R15). -/
def signField (F : Fmt) (b : Pattern) : Bool := b.getLsbD (fWidth F - 1)

/-- The biased exponent e = b[W-2:p-1] (R15). -/
def expField (F : Fmt) (b : Pattern) : Nat := b.toNat / 2 ^ (fPrec F - 1) % 2 ^ fExpWidth F

/-- The fraction f = b[p-2:0] (R15). -/
def fracField (F : Fmt) (b : Pattern) : Nat := b.toNat % 2 ^ (fPrec F - 1)

/-- (-1)^s * r. -/
def applySign (neg : Bool) (r : ℚ) : ℚ := if neg then -r else r

/-- `decodeF(F, b)` of R16; `none` is NaN. Bits of the pattern above W are not read. -/
def decodeF (F : Fmt) (b : Pattern) : Option FpNum :=
  if expField F b = 2 ^ fExpWidth F - 1 then
    if fracField F b = 0 then some (.inf (signField F b)) else none
  else if expField F b = 0 then
    some (.fin (applySign (signField F b) (fracField F b * pow2 (emin F - fPrec F + 1))))
  else
    some (.fin (applySign (signField F b)
      ((2 ^ (fPrec F - 1) + fracField F b : Nat) * pow2 (expField F b - emax F - fPrec F + 1))))

/-- The value of a pattern that is finite, "neither NaN nor an infinity" (R16). -/
def decodeFinite (F : Fmt) (b : Pattern) : Option ℚ :=
  match decodeF F b with
  | some (.fin r) => some r
  | _ => none

/-- The exponent and fraction bits of a non-negative representable value, the inverse of R16 (R17). -/
def encodeMag (F : Fmt) (a : ℚ) : Nat :=
  if a < pow2 (emin F) then ⌊a / pow2 (emin F - fPrec F + 1)⌋.toNat
  else
    (Int.log 2 a + emax F).toNat * 2 ^ (fPrec F - 1)
      + (⌊a / pow2 (Int.log 2 a - fPrec F + 1)⌋.toNat - 2 ^ (fPrec F - 1))

/-- A sign bit over exponent and fraction bits, `zext64` of the W-bit pattern (R15). -/
def packBits (F : Fmt) (neg : Bool) (mag : Nat) : Pattern :=
  BitVec.ofNat 64 (((if neg then 2 ^ (fWidth F - 1) else 0) + mag) % 2 ^ fWidth F)

/-- `encodeF(F, v)` of R17, zero-extended to 64 bits (R41, R42). The real number 0 is +0: it is not below 0. -/
def encodeF (F : Fmt) : FpNum → Pattern
  | .fin r => packBits F (decide (r < 0)) (encodeMag F |r|)
  | .inf neg => packBits F neg ((2 ^ fExpWidth F - 1) * 2 ^ (fPrec F - 1))

/-- A non-negative rational rounded to the nearest integer, "with a tie rounded to the even integer" (R18). -/
def roundTiesEven (q : ℚ) : ℤ :=
  if q - ⌊q⌋ < 1 / 2 then ⌊q⌋
  else if 1 / 2 < q - ⌊q⌋ then ⌊q⌋ + 1
  else if ⌊q⌋ % 2 = 0 then ⌊q⌋ else ⌊q⌋ + 1

/-- u = 2^(E-p+1) with E = max(floor(log2 a), emin): the unit a is rounded to (R18). -/
def roundUnit (F : Fmt) (a : ℚ) : ℚ := pow2 (max (Int.log 2 a) (emin F) - fPrec F + 1)

/-- v = n*u, the magnitude a rounded to a multiple of its unit, before the overflow check (R18). -/
def roundMag (F : Fmt) (a : ℚ) : ℚ := roundTiesEven (a / roundUnit F a) * roundUnit F a

/-- `RNE_F(r)` of R18: nearest, ties to even, subnormals kept, overflow to an infinity. -/
def rne (F : Fmt) (r : ℚ) : FpNum :=
  if r = 0 then .fin 0
  else if pow2 (emax F + 1) ≤ roundMag F |r| then .inf (decide (r < 0))
  else .fin (applySign (decide (r < 0)) (roundMag F |r|))

/-- `mulF(a, b) = RNE_F(a * b)` (R19). -/
def mulF (F : Fmt) (a b : ℚ) : FpNum := rne F (a * b)

/-- `divF(a, b) = RNE_F(a / b)`, used with b ≠ 0 (R19). -/
def divF (F : Fmt) (a b : ℚ) : FpNum := rne F (a / b)

/-- `absF(v)` of R22. -/
def absF (r : ℚ) : ℚ := |r|

/-- `rha(r) = sign(r) * floor(|r| + 1/2)`, round half away from zero (R20). -/
def rha (r : ℚ) : ℤ := if r < 0 then -⌊|r| + 1 / 2⌋ else ⌊|r| + 1 / 2⌋

/-- `clamp(y, lo, hi)` on integers (R21). -/
def clamp (y lo hi : ℤ) : ℤ := if y < lo then lo else if hi < y then hi else y

end Sys2Proof.Machine
end

