-- ==== Sys2Proof/Machine/Ops.lean ====
section
/-! DEFINITION. The shared operations: buffer memory (spec/20_memory.md), the named updates of the state, and how a
command commits or raises an error (spec/40_command_interface.md R111 to R113, spec/60_exceptions.md R196). -/

namespace Sys2Proof.Machine

/-! ### Buffer memory -/

/-- The canonical form: each written byte listed once, addresses strictly rising. An unlisted address reads as no
written value at all, so no entry can equal what it reads as (log 3). -/
abbrev Memory.wf (m : Memory) : Prop := m.Pairwise (fun x y => x.1 < y.1)

/-- Every listed byte lies in a memory of `n` bytes (R60). -/
abbrev Memory.Within (m : Memory) (n : Nat) : Prop := ∀ c ∈ m, c.1 < n

/-- The byte last written at an address, if any has been since power-on (R70). -/
def Memory.lookup : Memory → Nat → Option Byte
  | [], _ => none
  | (k, v) :: rest, a => if k = a then some v else Memory.lookup rest a

/-- The byte an address reads as: the last one written, or the address's draw (R62, R70). -/
def Memory.byte (m : Memory) (a : Nat) : Byte :=
  match m.lookup a with
  | some v => v
  | none => Config.powerOnByte a

/-- A byte written at an address, in the canonical form. -/
def Memory.write : Memory → Nat → Byte → Memory
  | [], a, v => [(a, v)]
  | (k, w) :: rest, a, v =>
    if a < k then (a, v) :: (k, w) :: rest
    else if k = a then (a, v) :: rest
    else (k, w) :: Memory.write rest a v

/-- `MemRead(addr, n)`: n bytes assembled little-endian into an 8n-bit unsigned number (R13, R64). -/
def Memory.readLE (m : Memory) (a : Nat) : Nat → Nat
  | 0 => 0
  | n + 1 => (m.byte a).toNat + 256 * Memory.readLE m (a + 1) n

/-- `MemWrite(addr, n, v)`: the low 8n bits of v stored little-endian (R13, R64). -/
def Memory.writeLE : Memory → Nat → Nat → Nat → Memory
  | m, _, 0, _ => m
  | m, a, n + 1, v => Memory.writeLE (m.write a (BitVec.ofNat 8 v)) (a + 1) n (v / 256)

/-- The elements of a sequence, each `w` bytes wide, stored one after another from address `a` (R67). -/
def Memory.putAll (w : Nat) : Memory → Nat → List Nat → Memory
  | m, _, [] => m
  | m, a, v :: vs => Memory.putAll w (m.writeLE a w v) (a + w) vs

/-- `n` bytes from address `a` replaced by the draws numbered from `k` (R221). -/
def Memory.drawAll : Memory → Nat → Nat → Nat → Memory
  | m, _, _, 0 => m
  | m, a, k, n + 1 => Memory.drawAll (m.write a (Config.abandonedByte k)) (a + 1) (k + 1) n

/-! ### Named updates -/

/-- The instance group replaced (R32). -/
def State.setInst (i : Inst) (s : State) : State := { s with inst := i }

/-- ABSMAX_HI:ABSMAX_LO written (R41). -/
def State.setAbsmax (p : Pattern) (s : State) : State := { s with absmaxLo := p.lo, absmaxHi := p.hi }

/-- SATCNT written (R43). -/
def State.setSatCnt (n : Nat) (s : State) : State := { s with satCnt := BitVec.ofNat 32 n }

/-- Buffer memory replaced. -/
def State.setMem (m : Memory) (s : State) : State := { s with mem := m }

/-- STATUS.ERR and ERR_INDEX written, which every command does (R37, R44). -/
def State.setErr (c : ErrCode) (index : Nat) (s : State) : State :=
  { s with err := c, errIndex := BitVec.ofNat 32 index }

/-- A read access recorded for the host (R91). -/
def State.observe (o : Observation) (s : State) : State := { s with observed := o :: s.observed }

/-! ### Commit and failure -/

/-- An error a command raises: `Error(code, index)` (R14). -/
structure CmdError where
  code : ErrCode
  index : Nat
deriving DecidableEq, Repr

/-- One check of a command: it goes on where the condition holds, else it raises the code with index 0 (R14, R195). -/
def check (ok : Bool) (c : ErrCode) : Except CmdError Unit :=
  if ok then .ok () else .error { code := c, index := 0 }

/-- Success (R111): after the command's own results, ERR is NONE and ERR_INDEX is 0. -/
def State.commit (s : State) : State := s.setErr .none 0

/-- Taking an error (R112, R196): the code and the index are written; a decoded INITB or INITS (`builds`) also discards
the instance; nothing else changes. No state is saved and control goes nowhere, so there is no return operation (R198). -/
def State.raise (builds : Bool) (e : CmdError) (s : State) : State :=
  if builds then (s.setInst Inst.absent).setErr e.code e.index else s.setErr e.code e.index

/-- A command run from `s`: it committed with results `t`, or it raised an error, of which `s` keeps no other trace
(R104, R111, R112). -/
def finish (builds : Bool) (s : State) (r : Except CmdError State) : Host.Outcome State Fault Refusal :=
  match r with
  | .ok t => .next t.commit
  | .error e => .next (s.raise builds e)

end Sys2Proof.Machine
end

