-- ==== Sys2Proof/Machine/Operands.lean ====
section
/-! DEFINITION. The operand forms of the commands: the instance's Scale, the explicit bound, and buffers, with their
checks and their elements (spec/10_state.md R40, R42; spec/40_command_interface.md R105 to R109). -/

namespace Sys2Proof.Machine

/-- The pattern SCALE_HI:SCALE_LO of an instance (R42). -/
def Inst.scale (i : Inst) : Pattern := Pattern.ofPair i.scaleHi i.scaleLo

/-- The instance's Scale as a number (R42, R166). An instance's Scale is always finite (R36); in a state that breaks
R36 and no run reaches, a Scale that is not finite counts as 0 (log 6). -/
def Inst.scaleValue (i : Inst) : ℚ := (decodeFinite i.fmt i.scale).getD 0

/-- The explicit bound's pattern in format F: BOUND_LO alone for binary32, the pair for binary64 (R40). -/
def boundPattern (F : Fmt) (s : State) : Pattern :=
  match F with
  | .f32 => Pattern.ofPair 0 s.boundLo
  | .f64 => Pattern.ofPair s.boundHi s.boundLo

/-- COUNT as a number of elements (R39). -/
def State.n (s : State) : Nat := s.count.toNat

/-- SRC_ADDR as a byte address (R38). -/
def State.src (s : State) : Nat := s.srcAddr.toNat

/-- DST_ADDR as a byte address (R38). -/
def State.dst (s : State) : Nat := s.dstAddr.toNat

/-- `CheckBuf(base, es, n)` of R106, run only when n > 0: alignment (R65), then extent on exact integers (R66). -/
def checkBuf (p : Params) (base es n : Nat) : Except CmdError Unit :=
  if n = 0 then .ok ()
  else do
    check (base % es == 0) .memAlign
    check (base + n * es ≤ p.memBytes) .memRange

/-- The pattern of RawValue element i of a buffer (R64, R107). -/
def rawPattern (F : Fmt) (m : Memory) (base i : Nat) : Pattern :=
  BitVec.ofNat 64 (m.readLE (base + i * elemSize F) (elemSize F))

/-- The finite value of RawValue element i; none for NaN and the infinities (R107, R108). -/
def rawAt (F : Fmt) (m : Memory) (base i : Nat) : Option ℚ := decodeFinite F (rawPattern F m base i)

/-- `QAt(base, i)`: QuantizedValue element i as a signed integer (R107). -/
def qAt (m : Memory) (base i : Nat) : ℤ := (BitVec.ofNat 16 (m.readLE (base + 2 * i) 2)).toInt

/-- `FirstNonFinite(F, base, n)`: the lowest index of a non-finite element (R108). -/
def firstNonFinite (F : Fmt) (m : Memory) (base n : Nat) : Option Nat :=
  (List.range n).find? (fun i => (rawAt F m base i).isNone)

/-- The n elements of a RawValue buffer, all read before anything is written (R109), or NONFINITE at the lowest failing
index (R108, R135). -/
def finiteElems (F : Fmt) (m : Memory) (base n : Nat) : Except CmdError (List ℚ) :=
  match firstNonFinite F m base n with
  | some i => .error { code := .nonFinite, index := i }
  | none => .ok ((List.range n).map (fun i => (rawAt F m base i).getD 0))

/-- The n elements of a QuantizedValue buffer; every pattern is a value (R171). -/
def intElems (m : Memory) (base n : Nat) : List ℤ := (List.range n).map (fun i => qAt m base i)

/-- `bits16(y)`, the 16-bit two's-complement pattern of an integer, as `PutQ` stores it (R12, R107). -/
def bits16 (y : ℤ) : Nat := (BitVec.ofInt 16 y).toNat

end Sys2Proof.Machine
end

