-- ==== Sys2Proof/Machine/RangeScale.lean ====
section
/-! DEFINITION. The range scanner and the scale factor calculator: SCAN, INITB, INITS (spec/41_range_scale.md). -/

namespace Sys2Proof.Machine

/-- QBITS, the QuantizedValue width (R9, R11). -/
def qBits : Nat := 16

/-- `AbsMax` of R132 over the elements read: the accumulator starts from element 0. For no elements, where R132 does not
define it and no command calls it (R134), it is 0. -/
def absMax : List ℚ → ℚ
  | [] => 0
  | x :: xs => xs.foldl (fun m y => max m (absF y)) (absF x)

/-- `ComputeScale(F, a, E)` of R140, with the guards of R139 and R143 and the degenerate case of R141. -/
def computeScale (F : Fmt) (a : ℚ) (E : Nat) : Except CmdError (ℚ × Bool) := do
  check (a * pow2 E ≤ maxFinite F) .rangeOverflow
  if a * pow2 E = 0 then .ok (1, true)
  else
    match divF F (pow2 (qBits - 1)) (a * pow2 E) with
    | .fin s => .ok (s, false)
    | .inf _ => .error { code := .scaleOverflow, index := 0 }

/-- What a successful construction writes: ABSMAX and a whole new instance (R136, R146, R148). -/
def install (F : Fmt) (qt eb : Nat) (a scale : ℚ) (degen : Bool) (s : State) : State :=
  (s.setAbsmax (encodeF F (.fin a))).setInst
    { valid := true, degen := degen, fmt := F, qtype := BitVec.ofNat 3 qt, eb := BitVec.ofNat 5 eb
      scaleLo := (encodeF F (.fin scale)).lo, scaleHi := (encodeF F (.fin scale)).hi }

/-- `DoScan(f)` up to its commit (R137). -/
def doScan (F : Fmt) (s : State) : Except CmdError State := do
  check (s.n != 0) .empty
  checkBuf s.params s.src (elemSize F) s.n
  let xs ← finiteElems F s.mem s.src s.n
  .ok (s.setAbsmax (encodeF F (.fin (absMax xs))))

/-- The bound INITB reads, if it is valid: finite and not below 0 (R146, R147). -/
def boundValue (F : Fmt) (s : State) : Except CmdError ℚ :=
  match decodeFinite F (boundPattern F s) with
  | some b => if b < 0 then .error { code := .badBound, index := 0 } else .ok b
  | none => .error { code := .badBound, index := 0 }

/-- `DoInitB(f, qt, eb)` up to its commit (R146). -/
def doInitB (F : Fmt) (qt eb : Nat) (s : State) : Except CmdError State := do
  check (qtypeSupported qt) .unsupportedType
  let b ← boundValue F s
  let (scale, degen) ← computeScale F b eb
  .ok (install F qt eb b scale degen s)

/-- `DoInitS(f, qt, eb)` up to its commit (R148). -/
def doInitS (F : Fmt) (qt eb : Nat) (s : State) : Except CmdError State := do
  check (qtypeSupported qt) .unsupportedType
  check (s.n != 0) .empty
  checkBuf s.params s.src (elemSize F) s.n
  let xs ← finiteElems F s.mem s.src s.n
  let (scale, degen) ← computeScale F (absMax xs) eb
  .ok (install F qt eb (absMax xs) scale degen s)

/-- SCAN (R137). -/
def execScan (F : Fmt) (s : State) : Host.Outcome State Fault Refusal := finish false s (doScan F s)

/-- INITB (R146); a failure discards the instance (R112). -/
def execInitB (F : Fmt) (qt eb : Nat) (s : State) : Host.Outcome State Fault Refusal :=
  finish true s (doInitB F qt eb s)

/-- INITS (R148); a failure discards the instance (R112). -/
def execInitS (F : Fmt) (qt eb : Nat) (s : State) : Host.Outcome State Fault Refusal :=
  finish true s (doInitS F qt eb s)

end Sys2Proof.Machine
end

