-- ==== Sys2Proof/Machine/Quantizer.lean ====
section
/-! DEFINITION. The quantize and dequantize datapaths and the end of an instance: QUANT, DEQUANT, RELEASE
(spec/42_quantizer.md). -/

namespace Sys2Proof.Machine

/-- QMAX = 2^(QBITS-1) - 1 (R9, R11). -/
def qMax : ℤ := 2 ^ (qBits - 1) - 1

/-- QMIN = -2^(QBITS-1), or -(2^(QBITS-1) - 1) when SYM_SAT (R11). -/
def qMin (p : Params) : ℤ := if p.symSat then -(2 ^ (qBits - 1) - 1) else -2 ^ (qBits - 1)

/-- Rounding and clamping of a finite product: the stored integer, and whether it saturated (R163). -/
def roundClamp (p : Params) (r : ℚ) : ℤ × Bool :=
  (clamp (rha r) (qMin p) qMax, clamp (rha r) (qMin p) qMax != rha r)

/-- `Q1(F, s, x)` of R164. -/
def quantElem (p : Params) (F : Fmt) (scale x : ℚ) : ℤ × Bool :=
  match mulF F x scale with
  | .inf false => (qMax, true)
  | .inf true => (qMin p, true)
  | .fin r => roundClamp p r

/-- `DQ1(F, s, q)` of R169. Division by 0 cannot arise under R36 (log 6). -/
def dequantElem (F : Fmt) (scale : ℚ) (q : ℤ) : FpNum := divF F q scale

/-- `DoQuant()` up to its commit (R166): every check and every read before any write. -/
def doQuant (s : State) : Except CmdError State := do
  check s.inst.valid .noInstance
  checkBuf s.params s.src (elemSize s.inst.fmt) s.n
  checkBuf s.params s.dst 2 s.n
  let xs ← finiteElems s.inst.fmt s.mem s.src s.n
  let ys := xs.map (quantElem s.params s.inst.fmt s.inst.scaleValue)
  .ok ((s.setMem (s.mem.putAll 2 s.dst (ys.map (fun y => bits16 y.1)))).setSatCnt (ys.countP (fun y => y.2)))

/-- `DoDequant()` up to its commit (R172): every read before any write; no type check and no finiteness check (R171). -/
def doDequant (s : State) : Except CmdError State := do
  check s.inst.valid .noInstance
  checkBuf s.params s.src 2 s.n
  checkBuf s.params s.dst (elemSize s.inst.fmt) s.n
  let vs := (intElems s.mem s.src s.n).map (dequantElem s.inst.fmt s.inst.scaleValue)
  .ok (s.setMem (s.mem.putAll (elemSize s.inst.fmt) s.dst (vs.map (fun v => (encodeF s.inst.fmt v).toNat))))

/-- QUANT (R166). -/
def execQuant (s : State) : Host.Outcome State Fault Refusal := finish false s (doQuant s)

/-- DEQUANT (R172). -/
def execDequant (s : State) : Host.Outcome State Fault Refusal := finish false s (doDequant s)

/-- RELEASE (R180): it succeeds whether or not an instance exists. -/
def execRelease (s : State) : Host.Outcome State Fault Refusal :=
  finish false s (.ok (s.setInst Inst.absent))

end Sys2Proof.Machine
end

