-- ==== Sys2Proof/Machine/Dispatch.lean ====
section
/-! DEFINITION. The command dispatch of spec/40_command_interface.md R104: one arm per command. -/

namespace Sys2Proof.Machine

def exec (i : Instr) (s : State) : Host.Outcome State Fault Refusal :=
  match i with
  | .scan f => Sys2Proof.Machine.execScan f s
  | .initb f qt eb => Sys2Proof.Machine.execInitB f qt eb s
  | .inits f qt eb => Sys2Proof.Machine.execInitS f qt eb s
  | .quant => Sys2Proof.Machine.execQuant s
  | .dequant => Sys2Proof.Machine.execDequant s
  | .release => Sys2Proof.Machine.execRelease s

end Sys2Proof.Machine
end

