-- ==== Sys2Proof/Machine/HostPort.lean ====
section
/-! DEFINITION. The host's side of QSB: the register port, the memory port, the write to CMD that runs a command, and
reset (spec/40_command_interface.md R100 to R104, spec/20_memory.md R61 and R63, spec/70_reset_and_hazards.md R220 and R221). -/

namespace Sys2Proof.Machine

/-- The byte offset of each register (R33). -/
def regOffset : RegName → Byte
  | .caps => 0x00
  | .cmd => 0x04
  | .status => 0x08
  | .errIndex => 0x0C
  | .srcAddr => 0x10
  | .dstAddr => 0x14
  | .count => 0x18
  | .boundLo => 0x20
  | .boundHi => 0x24
  | .absmaxLo => 0x28
  | .absmaxHi => 0x2C
  | .scaleLo => 0x30
  | .scaleHi => 0x34
  | .satCnt => 0x38

/-- Every register of the map (R33). -/
def allRegs : List RegName :=
  [.caps, .cmd, .status, .errIndex, .srcAddr, .dstAddr, .count, .boundLo, .boundHi, .absmaxLo, .absmaxHi,
    .scaleLo, .scaleHi, .satCnt]

/-- The register at an offset; none at the reserved ones, 0x1C and 0x3C to 0xFC (R33). -/
def regAt (off : Byte) : Option RegName := allRegs.find? (fun r => regOffset r == off)

/-- What a register reads as (R102). -/
def readReg (r : RegName) (s : State) : Word :=
  match r with
  | .caps => capsWord
  | .cmd => 0
  | .status => statusWord s.inst s.err
  | .errIndex => s.errIndex
  | .srcAddr => s.srcAddr
  | .dstAddr => s.dstAddr
  | .count => s.count
  | .boundLo => s.boundLo
  | .boundHi => s.boundHi
  | .absmaxLo => s.absmaxLo
  | .absmaxHi => s.absmaxHi
  | .scaleLo => s.inst.scaleLo
  | .scaleHi => s.inst.scaleHi
  | .satCnt => s.satCnt

/-- `RegRead(off)`: a reserved offset reads 0 (R102). -/
def regRead (off : Byte) (s : State) : Word :=
  match regAt off with
  | some r => readReg r s
  | none => 0

/-- `ExecCommand(w)` of R104; a word that decodes to ILLEGAL writes ERR and ERR_INDEX and nothing else (R113). -/
def execCommand (w : Word) (s : State) : Host.Outcome State Fault Refusal :=
  match decode w with
  | .ok i => exec i s
  | .error _ => .next (s.raise false { code := .illegalCommand, index := 0 })

/-- A write to a named register: RW stores all 32 bits, CMD runs a command, RO is ignored (R33, R103). -/
def writeReg (r : RegName) (v : Word) (s : State) : Host.Outcome State Fault Refusal :=
  match r with
  | .cmd => execCommand v s
  | .srcAddr => .next { s with srcAddr := v }
  | .dstAddr => .next { s with dstAddr := v }
  | .count => .next { s with count := v }
  | .boundLo => .next { s with boundLo := v }
  | .boundHi => .next { s with boundHi := v }
  | .caps => .next s
  | .status => .next s
  | .errIndex => .next s
  | .absmaxLo => .next s
  | .absmaxHi => .next s
  | .scaleLo => .next s
  | .scaleHi => .next s
  | .satCnt => .next s

/-- `RegWrite(off, v)`: a write at a reserved offset is ignored (R103). -/
def regWrite (off : Byte) (v : Word) (s : State) : Host.Outcome State Fault Refusal :=
  match regAt off with
  | some r => writeReg r v s
  | none => .next s

/-- `HostMemRead(a)`: at or above MEM_BYTES it returns 0x00 (R61, R63). -/
def hostMemRead (a : Word) (s : State) : Byte :=
  if a.toNat < s.params.memBytes then s.mem.byte a.toNat else 0

/-- `HostMemWrite(a, v)`: at or above MEM_BYTES it is ignored (R61, R63). -/
def hostMemWrite (a : Word) (v : Byte) (s : State) : State :=
  if a.toNat < s.params.memBytes then s.setMem (s.mem.write a.toNat v) else s

/-- `Reset()` (R46, R220): every register takes its reset value; buffer memory, the parameters and the host's own side
stay. -/
def resetInput (s : State) : State :=
  { State.reset with
    mem := s.mem, params := s.params, pending := s.pending, observed := s.observed, draws := s.draws }

/-- How many bytes the destination buffer of a command word covers, clipped to memory (R221): two a result for QUANT,
the instance's element size for DEQUANT, none for any other word (R67). -/
def destBytes (w : Word) (s : State) : Nat :=
  match decode w with
  | .ok .quant => min (s.n * 2) (s.params.memBytes - s.dst)
  | .ok .dequant => min (s.n * elemSize s.inst.fmt) (s.params.memBytes - s.dst)
  | .ok (.scan _) => 0
  | .ok (.initb _ _ _) => 0
  | .ok (.inits _ _ _) => 0
  | .ok .release => 0
  | .error _ => 0

/-- A reset while the command of word `w` runs (R221, I4): the registers take their reset values, each byte of the
command's destination buffer is a draw, every other byte is unchanged. -/
def resetDuringCommand (w : Word) (s : State) : State :=
  resetInput { s with
    mem := s.mem.drawAll s.dst s.draws (destBytes w s)
    draws := s.draws + destBytes w s }

/-- One transaction of the host (R100). A misaligned or narrow register access has no step: a model refuses it (I5). -/
def hostAccess (x : HostAccess) (s : State) : Host.Outcome State Fault Refusal :=
  match x with
  | .regRead off =>
    if off.toNat % 4 = 0 then .next (s.observe (.reg off (regRead off s))) else .refused (.misalignedRegister off)
  | .regWrite off v => if off.toNat % 4 = 0 then regWrite off v s else .refused (.misalignedRegister off)
  | .regNarrow off bytes => .refused (.narrowRegister off bytes)
  | .memRead a => .next (s.observe (.mem a (hostMemRead a s)))
  | .memWrite a v => .next (hostMemWrite a v s)
  | .reset => .next (resetInput s)
  | .resetDuring w => .next (resetDuringCommand w s)

end Sys2Proof.Machine
end

