-- ==== Sys2Proof/Machine/Step.lean ====
section
/-! DEFINITION. One step of the model (spec/00_scope.md R25, spec/20_memory.md R73): the host's next access, in program
order, run to completion. -/

namespace Sys2Proof.Machine

/-- The host's next access runs to completion (R101); with none left QSB waits and holds its state (R204, R222). -/
def step (s : State) : Host.Outcome State Fault Refusal :=
  match s.pending with
  | [] => .next s
  | x :: rest => hostAccess x { s with pending := rest }

/-- `s` with the command word `w` as the host's next access, a 32-bit write to CMD (R80, R101); the accesses already
pending follow it. -/
def State.withFetchWord (s : State) (nbits w : Nat) : State :=
  { s with pending := .regWrite 0x04 (BitVec.ofNat 32 (w % 2 ^ nbits)) :: s.pending }

end Sys2Proof.Machine
end

