-- ==== Sys2Proof/Machine/Assembler.lean ====
section
/-! DEFINITION. The host assembler (spec/30_encoding.md R91, R92): the accesses each line of a host program stands for. -/

namespace Sys2Proof.Machine

/-- `wr NAME, v` (R91). -/
def asmWrite (r : RegName) (v : Word) : HostAccess := .regWrite (regOffset r) v

/-- F of R92 as a number: `f32` is 0, `f64` is 1. -/
def asmFmt (f : Fmt) : Word := if fmtBit f then 1 else 0

/-- The word each command's pseudo-instruction writes to CMD, by the expressions of R92. -/
def asmWord : Instr → Word
  | .scan f => 0x00000001 ||| (asmFmt f <<< 4)
  | .initb f q e => 0x00000002 ||| (asmFmt f <<< 4) ||| (BitVec.ofNat 32 q <<< 5) ||| (BitVec.ofNat 32 e <<< 8)
  | .inits f q e => 0x00000003 ||| (asmFmt f <<< 4) ||| (BitVec.ofNat 32 q <<< 5) ||| (BitVec.ofNat 32 e <<< 8)
  | .quant => 0x00000004
  | .dequant => 0x00000005
  | .release => 0x00000006

/-- `n` byte writes, the low byte of `v` at `a` (R92). An address past 2^32 - 1 wraps (log 7). -/
def asmBytes (a : Word) (v : Nat) : Nat → List HostAccess
  | 0 => []
  | n + 1 => .memWrite a (BitVec.ofNat 8 v) :: asmBytes (a + 1) (v / 256) n

/-- The accesses a line stands for (R91, R92). -/
def expand : Line → List HostAccess
  | .wr r v => [asmWrite r v]
  | .rd r => [.regRead (regOffset r)]
  | .mwb a v => [.memWrite a v]
  | .mrb a => [.memRead a]
  | .command i => [asmWrite .cmd (asmWord i)]
  | .cmd w => [asmWrite .cmd w]
  | .mwh a v => asmBytes a v.toNat 2
  | .mww a v => asmBytes a v.toNat 4
  | .mwd a v => asmBytes a v.toNat 8
  | .wr64Bound v => [asmWrite .boundLo (Pattern.lo v), asmWrite .boundHi (Pattern.hi v)]

/-- The accesses of a host program, in program order (R91). -/
def assemble (p : List Line) : List HostAccess := p.flatMap expand

end Sys2Proof.Machine
end

