-- ==== Sys2Proof/Safety.lean ====
section
/-! DEFINITION. What a good state and a safe step are, in the terms the claims use. -/

namespace Sys2Proof.Machine

/-- The smallest Scale an instance can hold, the value of the patterns R144 gives: (1 + 2^(1-p)) * 2^(14-emax). -/
def minScale (F : Fmt) : ℚ := (1 + pow2 (1 - fPrec F)) * pow2 (14 - emax F)

/-- The instance invariant of R36, with the bound of R144: with no instance the group is all 0; with one, its Scale is
finite and at least the smallest Scale (so above 0), SCALE_HI is 0 for binary32, QTYPE is 0 (R35), and a degenerate
instance has Scale 1.0. -/
def Inst.Ok (i : Inst) : Prop :=
  if i.valid then
    (∃ r, decodeFinite i.fmt i.scale = some r ∧ minScale i.fmt ≤ r ∧ (i.degen = true → r = 1))
      ∧ (i.fmt = .f32 → i.scaleHi = 0) ∧ i.qtype = 0
  else i = Inst.absent

/-- The invariant every step keeps: legal parameters (R11), memory in its canonical form and inside buffer memory
(R60), the instance invariant (R36), and ERR_INDEX 0 but after NONFINITE (R37). -/
def State.Inv (s : State) : Prop :=
  s.params.Legal ∧ s.mem.wf ∧ s.mem.Within s.params.memBytes ∧ s.inst.Ok ∧ (s.err ≠ .nonFinite → s.errIndex = 0)

/-- Every access the host has still to make is part of the interface (R100). -/
def State.HostInInterface (s : State) : Prop := ∀ x ∈ s.pending, x.InInterface

/-- A step that neither faults nor is refused. -/
def SafeStep (s : State) : Prop := ∃ t, step s = .next t

/-- A run of `k` steps that ends in a state. -/
def SafeRun (k : Nat) (s : State) : Prop := ∃ t, Sys2Proof.core.run k s = .next t

end Sys2Proof.Machine
end

