-- ==== Sys2Proof/Certificates/Slice0/Obligations.lean ====
section
/-! DEFINITION. The statements for the provers. Each docstring names the rule of the spec it formalises. The terms the
statements share come first; the statements follow in the order of the spec's files. -/

namespace Sys2Proof.Claims

open Sys2Proof.Machine

/-- The value is exactly representable in the format: some pattern decodes to it (R16). -/
def Representable (F : Fmt) (a : ℚ) : Prop := ∃ b, decodeFinite F b = some a

/-- The overflow threshold of RNE: the midpoint of MAX_F and 2^(emax+1) (R18, R170). -/
def overflowThreshold (F : Fmt) : ℚ := (2 - (2 : ℚ) ^ (-(fPrec F : ℤ))) * (2 : ℚ) ^ emax F

/-- A buffer passes R65 and R66: it is empty, or its base is aligned and it lies inside memory. -/
def BufOk (s : State) (base es : Nat) : Prop := s.n = 0 ∨ (base % es = 0 ∧ base + s.n * es ≤ s.params.memBytes)

/-- Every element of the RawValue buffer at SRC_ADDR is finite (R108). -/
def AllFinite (F : Fmt) (s : State) : Prop := ∀ i < s.n, ∃ x, rawAt F s.mem s.src i = some x

/-- `a` is the absolute maximum of the RawValue buffer at SRC_ADDR: at least every |element|, and equal to some (R133). -/
def IsAbsMax (F : Fmt) (s : State) (a : ℚ) : Prop :=
  (∀ i < s.n, ∃ x, rawAt F s.mem s.src i = some x ∧ |x| ≤ a) ∧ ∃ i < s.n, ∃ x, rawAt F s.mem s.src i = some x ∧ |x| = a

/-- The pattern ABSMAX_HI:ABSMAX_LO (R41). -/
def absmax (s : State) : Pattern := Pattern.ofPair s.absmaxHi s.absmaxLo

/-- The instance a construction builds, SCALE given as its pattern (R32, R146, R148). -/
def built (F : Fmt) (eb : Nat) (degen : Bool) (scale : Pattern) : Inst :=
  { valid := true, degen := degen, fmt := F, qtype := 0, eb := BitVec.ofNat 5 eb
    scaleLo := scale.lo, scaleHi := scale.hi }

/-- The pattern of 1.0 (R141). -/
def onePattern : Fmt → Pattern
  | .f32 => 0x3F800000
  | .f64 => 0x3FF0000000000000

/-- The (match, mask) pairs of R86, in its order. -/
def maskTable : List (Word × Word) :=
  [(0x00000001, 0xFFFFFFEF), (0x00000002, 0xFFFFE00F), (0x00000003, 0xFFFFE00F),
    (0x00000004, 0xFFFFFFFF), (0x00000005, 0xFFFFFFFF), (0x00000006, 0xFFFFFFFF)]

/-- A word is selected by a (match, mask) pair (R86). -/
abbrev Selects (row : Word × Word) (w : Word) : Prop := w &&& row.2 = row.1

/-- STATUS as the sum of its fields at their bit positions (R35). -/
def statusSum (s : State) : Nat :=
  s.inst.valid.toNat + 2 * s.inst.degen.toNat + 4 * (fmtBit s.inst.fmt).toNat + 8 * s.inst.qtype.toNat
    + 64 * s.inst.eb.toNat + 65536 * (errCode s.err).toNat

/-- The value of each offset, by the pseudocode of R102. -/
def readTable (off : Byte) (s : State) : Word :=
  if off = 0x00 then 0x001F0103
  else if off = 0x04 then 0
  else if off = 0x08 then BitVec.ofNat 32 (statusSum s)
  else if off = 0x0C then s.errIndex
  else if off = 0x10 then s.srcAddr
  else if off = 0x14 then s.dstAddr
  else if off = 0x18 then s.count
  else if off = 0x20 then s.boundLo
  else if off = 0x24 then s.boundHi
  else if off = 0x28 then s.absmaxLo
  else if off = 0x2C then s.absmaxHi
  else if off = 0x30 then s.inst.scaleLo
  else if off = 0x34 then s.inst.scaleHi
  else if off = 0x38 then s.satCnt
  else 0

/-- Every register reads its reset value of R33. -/
def RegistersReset (s : State) : Prop :=
  ∀ off : Byte, off.toNat % 4 = 0 → regRead off s = if off = 0x00 then 0x001F0103 else 0

/-- The format in which a command reads RawValue elements at SRC_ADDR, if it reads any (R67, R105). -/
def rawSource (s : State) : Instr → Option Fmt
  | .scan F => some F
  | .initb _ _ _ => none
  | .inits F _ _ => some F
  | .quant => some s.inst.fmt
  | .dequant => none
  | .release => none

/-- The element size of a command's source buffer, if it has one (R67). -/
def sourceSize (s : State) : Instr → Option Nat
  | .scan F => some (elemSize F)
  | .initb _ _ _ => none
  | .inits F _ _ => some (elemSize F)
  | .quant => some (elemSize s.inst.fmt)
  | .dequant => some 2
  | .release => none

/-- The element size of a command's destination buffer, if it has one (R67). -/
def destSize (s : State) : Instr → Option Nat
  | .scan _ => none
  | .initb _ _ _ => none
  | .inits _ _ _ => none
  | .quant => some 2
  | .dequant => some (elemSize s.inst.fmt)
  | .release => none

/-- The format, QTYPE and ExtraBits of a construction (R146, R148). -/
def construction : Instr → Option (Fmt × Nat × Nat)
  | .scan _ => none
  | .initb F qt eb => some (F, qt, eb)
  | .inits F qt eb => some (F, qt, eb)
  | .quant => none
  | .dequant => none
  | .release => none

/-- The absoluteMax a construction starts from: the bound, or the scanned maximum (R146, R148). -/
def absoluteMax (s : State) : Instr → ℚ
  | .inits F _ _ => absMax ((List.range s.n).map (fun i => (rawAt F s.mem s.src i).getD 0))
  | .initb F _ _ => (decodeFinite F (boundPattern F s)).getD 0
  | .scan _ => 0
  | .quant => 0
  | .dequant => 0
  | .release => 0

/-- Whether the command needs an instance (R160). -/
def needsInstance : Instr → Bool
  | .quant => true
  | .dequant => true
  | .scan _ => false
  | .initb _ _ _ => false
  | .inits _ _ _ => false
  | .release => false

/-- Whether the command refuses an empty buffer (R134). -/
def needsElements : Instr → Bool
  | .scan _ => true
  | .inits _ _ _ => true
  | .initb _ _ _ => false
  | .quant => false
  | .dequant => false
  | .release => false

/-- Whether INITB's bound is one R147 rejects. -/
def badBound (s : State) : Instr → Bool
  | .initb F _ _ =>
    match decodeF F (boundPattern F s) with
    | some (.fin b) => decide (b < 0)
    | some (.inf _) => true
    | none => true
  | .scan _ => false
  | .inits _ _ _ => false
  | .quant => false
  | .dequant => false
  | .release => false

/-- The error and index of a row of R195 where its check applies and fails: the check `k` of a decoded command. -/
def failsAt (i : Instr) (s : State) (k : Nat) : Option (ErrCode × Nat) :=
  match k with
  | 2 => (construction i).bind (fun c => if c.2.1 ≠ 0 then some (.unsupportedType, 0) else none)
  | 3 => if needsInstance i && !s.inst.valid then some (.noInstance, 0) else none
  | 4 => if needsElements i && s.n == 0 then some (.empty, 0) else none
  | 5 => (sourceSize s i).bind (fun es => if s.n ≠ 0 ∧ s.src % es ≠ 0 then some (.memAlign, 0) else none)
  | 6 => (sourceSize s i).bind
      (fun es => if s.n ≠ 0 ∧ s.params.memBytes < s.src + s.n * es then some (.memRange, 0) else none)
  | 7 => (destSize s i).bind (fun es => if s.n ≠ 0 ∧ s.dst % es ≠ 0 then some (.memAlign, 0) else none)
  | 8 => (destSize s i).bind
      (fun es => if s.n ≠ 0 ∧ s.params.memBytes < s.dst + s.n * es then some (.memRange, 0) else none)
  | 9 => if badBound s i then some (.badBound, 0) else none
  | 10 => (rawSource s i).bind
      (fun F => ((List.range s.n).find? (fun j => (rawAt F s.mem s.src j).isNone)).map (fun j => (.nonFinite, j)))
  | 11 => (construction i).bind
      (fun c => if maxFinite c.1 < absoluteMax s i * 2 ^ c.2.2 then some (.rangeOverflow, 0) else none)
  | 12 => (construction i).bind
      (fun c => if absoluteMax s i * 2 ^ c.2.2 ≠ 0 ∧ rne c.1 (32768 / (absoluteMax s i * 2 ^ c.2.2)) = .inf false
        then some (.scaleOverflow, 0) else none)
  | _ => none

/-- The first error of a command word in the order of R195; none where every check passes. -/
def firstError (w : Word) (s : State) : Option (ErrCode × Nat) :=
  match decode w with
  | .error _ => some (.illegalCommand, 0)
  | .ok i => [2, 3, 4, 5, 6, 7, 8, 9, 10, 11, 12].findSome? (failsAt i s)

end Sys2Proof.Claims

open Sys2Proof Sys2Proof.Machine Sys2Proof.Claims

/-! ### Numbers (spec/00_scope.md) -/

/-- R17: a representable value encodes to a pattern that decodes to it, and to the pattern it came from unless that is
-0; the number 0 is +0; no finite value encodes as -0 or NaN; an infinity encodes to itself. -/
def Obligations.EncodeFInvertsDecodeF : Prop :=
  ∀ (F : Fmt),
    (∀ b r, decodeFinite F b = some r →
      decodeF F (encodeF F (.fin r)) = some (.fin r) ∧ (b.toNat < 2 ^ fWidth F → r ≠ 0 → encodeF F (.fin r) = b)
        ∧ encodeF F (.fin r) ≠ BitVec.ofNat 64 (2 ^ (fWidth F - 1)))
    ∧ encodeF F (.fin 0) = 0
    ∧ ∀ neg, decodeF F (encodeF F (.inf neg)) = some (.inf neg)

/-- R18: `rne` is IEEE round-to-nearest, ties to even: its finite result is representable, no representable value is
nearer, and on a tie its last significand bit is 0; it is an infinity of r's sign exactly at the overflow threshold. -/
def Obligations.RneRoundsToNearestEven : Prop :=
  ∀ (F : Fmt) (r : ℚ),
    (∀ v, rne F r = .fin v →
      Representable F v ∧ ∀ w, Representable F w →
        |r - v| ≤ |r - w| ∧ (|r - v| = |r - w| → w ≠ v → fracField F (encodeF F (.fin v)) % 2 = 0))
    ∧ (∀ neg, rne F r = .inf neg ↔ overflowThreshold F ≤ |r| ∧ neg = decide (r < 0))

/-- R20: `rha(r) = sign(r) * floor(|r| + 1/2)`; it is a nearest integer, the one farther from 0 on a tie; and the rule's
five examples. -/
def Obligations.RhaRoundsHalfAwayFromZero : Prop :=
  (∀ r : ℚ, (0 < r → rha r = ⌊|r| + 1 / 2⌋) ∧ (r < 0 → rha r = -⌊|r| + 1 / 2⌋)
    ∧ |(rha r : ℚ) - r| ≤ 1 / 2 ∧ (|(rha r : ℚ) - r| = 1 / 2 → |r| < |(rha r : ℚ)|))
  ∧ rha 0 = 0 ∧ rha (1 / 2) = 1 ∧ rha (-1 / 2) = -1 ∧ rha (5 / 2) = 3 ∧ rha (-5 / 2) = -3

/-! ### Registers and the instance (spec/10_state.md) -/

/-- R35: each field of STATUS at its bits, the other bits 0, STATUS 0 at reset, and only commands and reset write it; R190:
the number of each error code. -/
def Obligations.StatusHoldsItsFields : Prop :=
  (∀ s : State,
    (readReg .status s).getLsbD 0 = s.inst.valid ∧ (readReg .status s).getLsbD 1 = s.inst.degen
      ∧ (readReg .status s).getLsbD 2 = fmtBit s.inst.fmt ∧ (readReg .status s).extractLsb' 3 3 = s.inst.qtype
      ∧ (readReg .status s).extractLsb' 6 5 = s.inst.eb ∧ (readReg .status s).extractLsb' 11 5 = 0
      ∧ (readReg .status s).extractLsb' 16 4 = errCode s.err ∧ (readReg .status s).extractLsb' 20 12 = 0)
  ∧ [ErrCode.none, .unsupportedType, .empty, .nonFinite, .badBound, .rangeOverflow, .scaleOverflow, .noInstance,
      .illegalCommand, .memRange, .memAlign].map (fun c => (errCode c).toNat) = [0, 1, 2, 3, 4, 5, 6, 7, 8, 9, 10]
  ∧ readReg .status State.reset = 0
  ∧ ∀ s t, step s = .next t → readReg .status t ≠ readReg .status s →
      ∃ x rest, s.pending = x :: rest ∧ ((∃ w, x = .regWrite 0x04 w) ∨ x = .reset ∨ ∃ w, x = .resetDuring w)

/-- R37: after NONFINITE, ERR_INDEX is the lowest index of a non-finite element of the source buffer; after any other
command it is 0. -/
def Obligations.ErrIndexIsTheLowestNonFiniteElement : Prop :=
  ∀ w s t, execCommand w s = .next t →
    (t.err ≠ .nonFinite → t.errIndex = 0)
    ∧ (t.err = .nonFinite → ∃ i F, decode w = .ok i ∧ rawSource s i = some F ∧ t.errIndex.toNat < s.n
        ∧ rawAt F s.mem s.src t.errIndex.toNat = none
        ∧ ∀ j < t.errIndex.toNat, ∃ x, rawAt F s.mem s.src j = some x)

/-- R40: an INITB in binary32 does not depend on BOUND_HI, and one in binary64 reads the bound {BOUND_HI, BOUND_LO}; no
command changes the BOUND registers. -/
def Obligations.BoundIsReadInTheCommandsFormat : Prop :=
  (∀ qt eb s t h, exec (.initb .f32 qt eb) s = .next t →
    exec (.initb .f32 qt eb) { s with boundHi := h } = .next { t with boundHi := h })
  ∧ (∀ s, (boundPattern .f32 s).toNat = s.boundLo.toNat
      ∧ (boundPattern .f64 s).toNat = s.boundHi.toNat * 2 ^ 32 + s.boundLo.toNat)
  ∧ ∀ w s t, execCommand w s = .next t → t.boundLo = s.boundLo ∧ t.boundHi = s.boundHi

/-- R43: SATCNT changes only by a QUANT that succeeds, or by reset. -/
def Obligations.OnlyQuantWritesSatCnt : Prop :=
  ∀ s t, step s = .next t → t.satCnt ≠ s.satCnt →
    ∃ x rest, s.pending = x :: rest
      ∧ ((x = .regWrite 0x04 0x00000004 ∧ t.err = .none) ∨ x = .reset ∨ ∃ w, x = .resetDuring w)

/-- R32, R44: the instance changes only by INITB, INITS, RELEASE and reset, and an instance appears only by an INITB or
INITS that succeeds. -/
def Obligations.OnlyConstructionAndReleaseWriteTheInstance : Prop :=
  ∀ s t, step s = .next t → t.inst ≠ s.inst →
    ∃ x rest, s.pending = x :: rest
      ∧ ((∃ w i, x = .regWrite 0x04 w ∧ decode w = .ok i ∧ (i = .release ∨ (construction i).isSome))
          ∨ x = .reset ∨ ∃ w, x = .resetDuring w)
      ∧ (t.inst.valid = true → t.err = .none ∧ ∃ w i, x = .regWrite 0x04 w ∧ decode w = .ok i ∧ (construction i).isSome)

/-- R33, R46: after power-on reset every register reads its reset value, and QUANT and DEQUANT fail with NO_INSTANCE. That
memory lists no byte then is the model's form of contents R46 calls unspecified (DESIGN CHOICE, log 3). -/
def Obligations.PowerOnStateHasItsResetValues : Prop :=
  RegistersReset State.reset ∧ (∀ a, State.reset.mem.lookup a = none)
    ∧ exec .quant State.reset = .next { State.reset with err := .noInstance }
    ∧ exec .dequant State.reset = .next { State.reset with err := .noInstance }

/-- The invariant of R36 (with R11, R37, R60 and R144) holds at the reset state. The canonical form of memory is the
model's own (DESIGN CHOICE, log 3), and that MEM_BYTES is legal rests on the model's 256 (DESIGN CHOICE, log 2). -/
def Obligations.ResetStateMeetsTheInvariant : Prop := State.reset.Inv

/-- HEADLINE. Every step keeps the invariant: an instance always has a finite Scale at or above the smallest one, with
SCALE_HI 0 for binary32; without one the group is 0; memory stays canonical and inside MEM_BYTES; ERR_INDEX is 0 but
after NONFINITE (R36, R37, R60, R144). The canonical form of memory is the model's own (DESIGN CHOICE, log 3). -/
def Obligations.EveryStepKeepsTheInvariant : Prop :=
  ∀ s t : State, s.Inv → step s = .next t → t.Inv

/-! ### Buffer memory (spec/20_memory.md) -/

/-- R13, R64: `MemWrite` then `MemRead` of the same n bytes gives the low 8n bits, byte j of it at addr + j, and no other
byte changes. The last clause, that the canonical form is kept, is about the model's own form of memory (DESIGN CHOICE,
log 3) and is no rule of the spec. -/
def Obligations.MemWriteThenMemReadIsLittleEndian : Prop :=
  ∀ (m : Memory) (a n v : Nat),
    (m.writeLE a n v).readLE a n = v % 256 ^ n
    ∧ (∀ j < n, ((m.writeLE a n v).byte (a + j)).toNat = v / 256 ^ j % 256)
    ∧ (∀ b, (b < a ∨ a + n ≤ b) → (m.writeLE a n v).byte b = m.byte b)
    ∧ (m.wf → (m.writeLE a n v).wf)

/-- R63: at or above MEM_BYTES the memory port reads 0x00 and ignores writes; nothing else changes. -/
def Obligations.MemoryPortStopsAtMemBytes : Prop :=
  ∀ s rest a, s.params.memBytes ≤ a.toNat →
    (s.pending = .memRead a :: rest →
      step s = .next { s with pending := rest, observed := .mem a 0 :: s.observed })
    ∧ ∀ v, s.pending = .memWrite a v :: rest → step s = .next { s with pending := rest }

/-- R61, R70: inside memory, a byte written through the memory port is what the port then reads, any number of times, and no
other byte and no register changes. -/
def Obligations.MemoryPortReadsTheLastWrite : Prop :=
  ∀ s rest a v k, a.toNat < s.params.memBytes →
    s.pending = .memWrite a v :: (List.replicate k (.memRead a) ++ rest) →
    ∃ t, Sys2Proof.core.run (k + 1) s = .next t
      ∧ t = { s with mem := t.mem, pending := rest, observed := List.replicate k (.mem a v) ++ s.observed }
      ∧ t.mem.byte a.toNat = v ∧ ∀ b, b ≠ a.toNat → t.mem.byte b = s.mem.byte b

/-- R67: memory changes only by a write of the memory port, by QUANT and DEQUANT that succeed (R68), and by a reset that
abandons one of them (R221). That no other abandoned command word has a destination is the model's reading of R221 with R67
(DEDUCED, log 4). -/
def Obligations.OnlyTransformsAndThePortWriteMemory : Prop :=
  ∀ s t, step s = .next t → t.mem ≠ s.mem →
    ∃ x rest, s.pending = x :: rest
      ∧ ((∃ a v, x = .memWrite a v)
          ∨ ((x = .regWrite 0x04 0x00000004 ∨ x = .regWrite 0x04 0x00000005) ∧ t.err = .none)
          ∨ x = .resetDuring 0x00000004 ∨ x = .resetDuring 0x00000005)

/-! ### Command words and the assembler (spec/30_encoding.md) -/

/-- HEADLINE. Every well-formed command decodes from its encoding, with every operand at every value its field admits
(R80, R82 to R86, R88). -/
def Obligations.DecodeInvertsEncode : Prop :=
  ∀ i : Instr, i.WellFormed → decode (encode i) = .ok i

/-- Every word that decodes is the encoding of the well-formed command it decodes to (R80, R86, R88). -/
def Obligations.EncodeInvertsDecode : Prop :=
  ∀ w i, decode w = .ok i → i.WellFormed ∧ encode i = w

/-- R86: a word is command X exactly when `(w & mask_X) == match_X`; the six pairs select disjoint sets; every other word
is illegal. -/
def Obligations.CommandsAreSelectedByMatchAndMask : Prop :=
  ∀ w : Word,
    ((∃ F, decode w = .ok (.scan F)) ↔ Selects (0x00000001, 0xFFFFFFEF) w)
    ∧ ((∃ F qt eb, decode w = .ok (.initb F qt eb)) ↔ Selects (0x00000002, 0xFFFFE00F) w)
    ∧ ((∃ F qt eb, decode w = .ok (.inits F qt eb)) ↔ Selects (0x00000003, 0xFFFFE00F) w)
    ∧ (decode w = .ok .quant ↔ Selects (0x00000004, 0xFFFFFFFF) w)
    ∧ (decode w = .ok .dequant ↔ Selects (0x00000005, 0xFFFFFFFF) w)
    ∧ (decode w = .ok .release ↔ Selects (0x00000006, 0xFFFFFFFF) w)
    ∧ ((∃ r, decode w = .error r) ↔ ∀ row ∈ maskTable, ¬ Selects row w)
    ∧ maskTable.Pairwise (fun x y => ¬ (Selects x w ∧ Selects y w))

/-- R93: words written out from the encoding decode to their commands, and illegal ones do not decode. -/
def Obligations.WorkedWordsDecode : Prop :=
  decode 0x00000001 = .ok (.scan .f32) ∧ decode 0x00000011 = .ok (.scan .f64)
    ∧ decode 0x00000002 = .ok (.initb .f32 0 0) ∧ decode 0x00000212 = .ok (.initb .f64 0 2)
    ∧ decode 0x00000232 = .ok (.initb .f64 1 2) ∧ decode 0x00000103 = .ok (.inits .f32 0 1)
    ∧ decode 0x00001F13 = .ok (.inits .f64 0 31) ∧ decode 0x00000004 = .ok .quant
    ∧ decode 0x00000005 = .ok .dequant ∧ decode 0x00000006 = .ok .release
    ∧ decode 0x00000014 = .error .unusedField ∧ decode 0x00000021 = .error .unusedField
    ∧ decode 0x00002002 = .error .reservedBits ∧ decode 0x00000000 = .error .reservedOp
    ∧ decode 0x00000007 = .error .reservedOp ∧ decode 0x0000000F = .error .reservedOp

/-- R92: a command's pseudo-instruction is one write of its encoding to CMD. -/
def Obligations.AssembledCommandsWriteTheirEncoding : Prop :=
  ∀ i : Instr, i.WellFormed → expand (.command i) = [.regWrite 0x04 (encode i)]

/-- R92: `mww addr, imm32` inside memory leaves imm32 little-endian at addr and every other byte and register as before. -/
def Obligations.MwwStoresItsWord : Prop :=
  ∀ s rest a v, s.params.Legal → a.toNat + 4 ≤ s.params.memBytes → s.pending = expand (.mww a v) ++ rest →
    ∃ t, Sys2Proof.core.run 4 s = .next t ∧ t.mem.readLE a.toNat 4 = v.toNat
      ∧ (∀ b, (b < a.toNat ∨ a.toNat + 4 ≤ b) → t.mem.byte b = s.mem.byte b)
      ∧ t = { s with mem := t.mem, pending := rest }

/-! ### The host's side and the common steps (spec/40_command_interface.md) -/

/-- A write of a word to CMD that decodes to a well-formed command runs that command to completion as one step: the step
is `exec` of it at the state with the access taken off the host's list, and nothing else (R101, R104). -/
def Obligations.StepRunsTheDecodedCommand : Prop :=
  (∀ s rest w i, s.pending = .regWrite 0x04 w :: rest → decode w = .ok i → i.WellFormed →
    step s = exec i { s with pending := rest })
  ∧ ∀ s w i, w < 2 ^ 32 → decode (BitVec.ofNat 32 w) = .ok i → i.WellFormed → step (s.withFetchWord 32 w) = exec i s

/-- R73, R91: a step takes exactly the host's next access, in program order, records at most one observation and never
changes the parameters. That the machine steps to its own state when no access is left is the model's reading of R204 and
R222 (DEDUCED, log 5). -/
def Obligations.StepsFollowProgramOrder : Prop :=
  ∀ s t, step s = .next t →
    t.pending = s.pending.tail ∧ t.params = s.params ∧ (s.pending = [] → t = s)
      ∧ (t.observed = s.observed ∨ ∃ o, t.observed = o :: s.observed)

/-- R102: an aligned register read returns the value of the rule's table, and changes nothing. -/
def Obligations.RegisterReadReturnsTheTable : Prop :=
  ∀ s rest off, s.pending = .regRead off :: rest → off.toNat % 4 = 0 →
    step s = .next { s with pending := rest, observed := .reg off (readTable off s) :: s.observed }

/-- R103: an aligned register write stores an RW register, runs a command at CMD, and has no effect at RO and reserved
offsets. -/
def Obligations.RegisterWriteFollowsTheTable : Prop :=
  ∀ s rest off v, s.pending = .regWrite off v :: rest → off.toNat % 4 = 0 →
    step s =
      if off = 0x04 then execCommand v { s with pending := rest }
      else if off = 0x10 then .next { s with pending := rest, srcAddr := v }
      else if off = 0x14 then .next { s with pending := rest, dstAddr := v }
      else if off = 0x18 then .next { s with pending := rest, count := v }
      else if off = 0x20 then .next { s with pending := rest, boundLo := v }
      else if off = 0x24 then .next { s with pending := rest, boundHi := v }
      else .next { s with pending := rest }

/-- R100, I5: a register access that is misaligned, or narrower than 32 bits, is refused. -/
def Obligations.PartialRegisterAccessesAreRefused : Prop :=
  ∀ s rest off,
    (off.toNat % 4 ≠ 0 →
      (s.pending = .regRead off :: rest → step s = .refused (.misalignedRegister off))
      ∧ ∀ v, s.pending = .regWrite off v :: rest → step s = .refused (.misalignedRegister off))
    ∧ ∀ k, s.pending = .regNarrow off k :: rest → step s = .refused (.narrowRegister off k)

/-- A host that keeps to the interface (R100) is never refused: its runs of every length end in a state. Past the host's
last access the run goes on by the idle step, the model's reading of R204 and R222 (DEDUCED, log 5). -/
def Obligations.InterfaceRunsAreSafe : Prop :=
  ∀ k s, s.HostInInterface → SafeRun k s

/-- R110: no command writes a register that its rule does not name: the operand registers never; ABSMAX only SCAN, INITB
and INITS; the instance only INITB, INITS and RELEASE; SATCNT only QUANT; and memory only QUANT and DEQUANT. -/
def Obligations.CommandsWriteOnlyTheirRegisters : Prop :=
  ∀ i s t, exec i s = .next t →
    t.srcAddr = s.srcAddr ∧ t.dstAddr = s.dstAddr ∧ t.count = s.count ∧ t.boundLo = s.boundLo ∧ t.boundHi = s.boundHi
    ∧ t.params = s.params ∧ t.pending = s.pending ∧ t.observed = s.observed ∧ t.draws = s.draws
    ∧ ((construction i).isNone → i ≠ .release → t.inst = s.inst)
    ∧ ((construction i).isNone → (∀ F, i ≠ .scan F) → t.absmaxLo = s.absmaxLo ∧ t.absmaxHi = s.absmaxHi)
    ∧ (i ≠ .quant → t.satCnt = s.satCnt)
    ∧ (i ≠ .quant → i ≠ .dequant → t.mem = s.mem)

/-- R112: a decoded command that raises an error (the first of R195's checks to fail) writes its code to ERR and its index
to ERR_INDEX, an INITB or INITS also discards the instance, and nothing else changes. -/
def Obligations.FailedCommandWritesOnlyItsError : Prop :=
  ∀ w i s c j, decode w = .ok i → firstError w s = some (c, j) →
    exec i s = .next { s with
      err := c, errIndex := BitVec.ofNat 32 j
      inst := if (construction i).isSome then Inst.absent else s.inst }

/-- R113: a word that does not decode writes ERR = ILLEGAL_COMMAND and ERR_INDEX = 0, and nothing else. -/
def Obligations.IllegalWordWritesOnlyItsError : Prop :=
  ∀ s rest w r, s.pending = .regWrite 0x04 w :: rest → decode w = .error r →
    step s = .next { s with pending := rest, err := .illegalCommand, errIndex := 0 }

/-! ### Range scanner and scale factor calculator (spec/41_range_scale.md) -/

/-- R131: a QTYPE other than 0 fails INITB and INITS with UNSUPPORTED_TYPE whatever the operands and memory hold, and
discards the instance; QTYPE 0 never does, in either format. -/
def Obligations.UnsupportedTypeFailsConstructionFirst : Prop :=
  ∀ F qt eb s,
    (qt ≠ 0 →
      exec (.initb F qt eb) s = .next { s with inst := Inst.absent, err := .unsupportedType, errIndex := 0 }
      ∧ exec (.inits F qt eb) s = .next { s with inst := Inst.absent, err := .unsupportedType, errIndex := 0 })
    ∧ ∀ t, (exec (.initb F 0 eb) s = .next t ∨ exec (.inits F 0 eb) s = .next t) → t.err ≠ .unsupportedType

/-- R134: with COUNT = 0, SCAN and INITS raise EMPTY whatever SRC_ADDR and memory hold. -/
def Obligations.EmptyBufferFailsTheScan : Prop :=
  ∀ F eb s, s.count = 0 →
    exec (.scan F) s = .next { s with err := .empty, errIndex := 0 }
    ∧ exec (.inits F 0 eb) s = .next { s with inst := Inst.absent, err := .empty, errIndex := 0 }

/-- R133: SCAN of a non-empty, aligned buffer inside memory whose elements are finite completes; ABSMAX is the true maximum
of the absolute values, in the command's format; it is +0 for an all-zero buffer; and nothing else changes but ERR and
ERR_INDEX. -/
def Obligations.ScanFindsTheTrueMaximum : Prop :=
  ∀ F s, s.n ≠ 0 → BufOk s s.src (elemSize F) → AllFinite F s →
    ∃ t a, exec (.scan F) s = .next t ∧ decodeFinite F (absmax t) = some a ∧ IsAbsMax F s a
      ∧ (F = .f32 → t.absmaxHi = 0) ∧ (a = 0 → absmax t = 0)
      ∧ t = { s with absmaxLo := t.absmaxLo, absmaxHi := t.absmaxHi, err := .none, errIndex := 0 }

/-- R137: SCAN neither reads nor writes the instance and SATCNT. -/
def Obligations.ScanIsIndependentOfTheInstance : Prop :=
  ∀ F s t i k, exec (.scan F) s = .next t →
    exec (.scan F) { s with inst := i, satCnt := k } = .next { t with inst := i, satCnt := k }

/-- R139: for a representable a ≥ 0, ComputeScale raises RANGE_OVERFLOW exactly when a > MAX_F / 2^E: never for E = 0, and
for E = 1 when a >= 2^emax; otherwise a * 2^E is representable. -/
def Obligations.RangeOverflowExactlyAboveTheLargestRange : Prop :=
  ∀ F a E, Representable F a → 0 ≤ a →
    (computeScale F a E = .error { code := .rangeOverflow, index := 0 } ↔ maxFinite F / 2 ^ E < a)
    ∧ (¬ maxFinite F / 2 ^ E < a → Representable F (a * 2 ^ E))
    ∧ computeScale F a 0 ≠ .error { code := .rangeOverflow, index := 0 }
    ∧ (computeScale F a 1 = .error { code := .rangeOverflow, index := 0 } ↔ (2 : ℚ) ^ emax F ≤ a)

/-- R143: for a representable a ≥ 0, ComputeScale raises SCALE_OVERFLOW, and RNE(32768 / effR) is +Infinity, exactly when
0 < effR <= 2^(QBITS-2-emax), which is 2^-113 for binary32 and 2^-1009 for binary64; so for
any subnormal binary32 absoluteMax with E = 0, and for 2^-118 with E = 5. -/
def Obligations.ScaleOverflowExactlyAtTinyRanges : Prop :=
  (∀ F a E, Representable F a → 0 ≤ a →
    (computeScale F a E = .error { code := .scaleOverflow, index := 0 }
      ↔ 0 < a * 2 ^ E ∧ a * 2 ^ E ≤ (2 : ℚ) ^ (14 - emax F))
    ∧ (0 < a * 2 ^ E → a * 2 ^ E ≤ maxFinite F →
        (rne F (32768 / (a * 2 ^ E)) = .inf false ↔ a * 2 ^ E ≤ (2 : ℚ) ^ (14 - emax F))))
  ∧ (2 : ℚ) ^ (14 - emax .f32) = 2 ^ (-113 : ℤ) ∧ (2 : ℚ) ^ (14 - emax .f64) = 2 ^ (-1009 : ℤ)
  ∧ (∀ b a, decodeFinite .f32 b = some a → expField .f32 b = 0 → 0 < a →
      computeScale .f32 a 0 = .error { code := .scaleOverflow, index := 0 })
  ∧ computeScale .f32 ((2 : ℚ) ^ (-118 : ℤ)) 5 = .error { code := .scaleOverflow, index := 0 }

/-- R144: every Scale ComputeScale yields is a finite, positive, normal value of F, at least the smallest one, which
effR = MAX_F gives and whose patterns are the rule's. -/
def Obligations.StoredScalesAreNormal : Prop :=
  (∀ F a E v d, Representable F a → 0 ≤ a → computeScale F a E = .ok (v, d) →
    Representable F v ∧ (2 : ℚ) ^ emin F ≤ v ∧ minScale F ≤ v ∧ v ≤ maxFinite F)
  ∧ (∀ F, rne F (32768 / maxFinite F) = .fin (minScale F))
  ∧ encodeF .f32 (.fin (minScale .f32)) = 0x07000001
  ∧ encodeF .f64 (.fin (minScale .f64)) = 0x00E0000000000001

/-- INITB with QTYPE 0 and a finite bound above 0, whose range and Scale do not overflow, completes: the new instance holds
the correctly rounded quotient 32768 / (bound * 2^E) as its Scale, ABSMAX the bound, ERR and ERR_INDEX are 0, and nothing
else changes (R142, R146). -/
def Obligations.InitBoundBuildsTheInstance : Prop :=
  ∀ F eb s b v, eb < 32 → decodeFinite F (boundPattern F s) = some b → 0 < b → b * 2 ^ eb ≤ maxFinite F →
    rne F (32768 / (b * 2 ^ eb)) = .fin v →
    ∃ t scale, exec (.initb F 0 eb) s = .next t ∧ decodeFinite F scale = some v ∧ 0 < v
      ∧ decodeFinite F (absmax t) = some b ∧ (F = .f32 → t.absmaxHi = 0 ∧ t.inst.scaleHi = 0)
      ∧ t = { s with
          inst := built F eb false scale, absmaxLo := t.absmaxLo, absmaxHi := t.absmaxHi, err := .none, errIndex := 0 }

/-- INITS with QTYPE 0 over a non-empty, aligned buffer inside memory whose absolute maximum is a > 0, where range and Scale
do not overflow, completes: the new instance holds the correctly rounded quotient 32768 / (a * 2^E) as its Scale, ABSMAX
is a, ERR and ERR_INDEX are 0, and nothing else changes (R142, R148). -/
def Obligations.InitSamplesBuildsTheInstance : Prop :=
  ∀ F eb s a v, eb < 32 → s.n ≠ 0 → BufOk s s.src (elemSize F) → IsAbsMax F s a → 0 < a → a * 2 ^ eb ≤ maxFinite F →
    rne F (32768 / (a * 2 ^ eb)) = .fin v →
    ∃ t scale, exec (.inits F 0 eb) s = .next t ∧ decodeFinite F scale = some v ∧ 0 < v
      ∧ decodeFinite F (absmax t) = some a ∧ (F = .f32 → t.absmaxHi = 0 ∧ t.inst.scaleHi = 0)
      ∧ t = { s with
          inst := built F eb false scale, absmaxLo := t.absmaxLo, absmaxHi := t.absmaxHi, err := .none, errIndex := 0 }

/-- R141: an absoluteMax of 0, of either sign, builds a degenerate instance whose Scale is the pattern of 1.0, from a bound
and from an all-zero buffer, for every ExtraBits; ComputeScale is degenerate exactly when a = 0. -/
def Obligations.ZeroRangeBuildsADegenerateInstance : Prop :=
  (∀ F eb s, eb < 32 → decodeFinite F (boundPattern F s) = some 0 →
    exec (.initb F 0 eb) s = .next { s with
      inst := built F eb true (onePattern F), absmaxLo := 0, absmaxHi := 0, err := .none, errIndex := 0 })
  ∧ (∀ F eb s, eb < 32 → s.n ≠ 0 → BufOk s s.src (elemSize F) → (∀ i < s.n, rawAt F s.mem s.src i = some 0) →
    exec (.inits F 0 eb) s = .next { s with
      inst := built F eb true (onePattern F), absmaxLo := 0, absmaxHi := 0, err := .none, errIndex := 0 })
  ∧ ∀ F a E v d, computeScale F a E = .ok (v, d) → (d = true ↔ a = 0) ∧ (d = true → v = 1)

/-- R147: INITB rejects with BAD_BOUND exactly a bound that is NaN, an infinity or below 0, and discards the instance. -/
def Obligations.BadBoundIsRejected : Prop :=
  ∀ F eb s,
    ((decodeF F (boundPattern F s) = none ∨ (∃ neg, decodeF F (boundPattern F s) = some (.inf neg))
        ∨ ∃ b < 0, decodeF F (boundPattern F s) = some (.fin b)) →
      exec (.initb F 0 eb) s = .next { s with inst := Inst.absent, err := .badBound, errIndex := 0 })
    ∧ ∀ b, 0 ≤ b → decodeF F (boundPattern F s) = some (.fin b) →
      ∃ t, exec (.initb F 0 eb) s = .next t ∧ t.err ≠ .badBound

/-- R149: an INITB with bound B and an INITS over a buffer whose absolute maximum is B, with the same F and E, end with the
same instance and the same error code, and on success the same ABSMAX. -/
def Obligations.BoundAndSamplesBuildTheSameInstance : Prop :=
  ∀ F E s s' B, 0 ≤ B → decodeFinite F (boundPattern F s) = some B →
    s'.n ≠ 0 → BufOk s' s'.src (elemSize F) → IsAbsMax F s' B →
    ∃ t t', exec (.initb F 0 E) s = .next t ∧ exec (.inits F 0 E) s' = .next t'
      ∧ t.inst = t'.inst ∧ t.err = t'.err ∧ (t.err = .none → absmax t = absmax t')

/-! ### Quantize and dequantize (spec/42_quantizer.md) -/

/-- R160: with no instance QUANT and DEQUANT raise NO_INSTANCE before any other check, and RELEASE and reset leave none. -/
def Obligations.TransformsNeedAnInstance : Prop :=
  (∀ s, s.inst.valid = false →
    exec .quant s = .next { s with err := .noInstance, errIndex := 0 }
    ∧ exec .dequant s = .next { s with err := .noInstance, errIndex := 0 })
  ∧ (∀ s t, exec .release s = .next t → t.inst.valid = false) ∧ ∀ s, (resetInput s).inst.valid = false

/-- R162: the product overflows exactly when |x * s| is at or above the overflow threshold of F, and then the element is
QMAX or QMIN by its sign and counts as saturated. -/
def Obligations.ProductOverflowSaturates : Prop :=
  ∀ (p : Params) F (scale x : ℚ),
    ((∃ neg, mulF F x scale = .inf neg) ↔ overflowThreshold F ≤ |x * scale|)
    ∧ (overflowThreshold F ≤ x * scale → quantElem p F scale x = (32767, true))
    ∧ (overflowThreshold F ≤ -(x * scale) → quantElem p F scale x = (if p.symSat then -32767 else -32768, true))

/-- R161, R163: for every Scale, a finite product is the one rounded to F, and the element is `clamp(rha(p), QMIN, QMAX)`,
saturated when the clamp changes it, for both readings of SYM_SAT; R161's example, where rounding the exact product once
gives another integer; and R165: the thresholds of saturation of a finite product. -/
def Obligations.SaturationThresholds : Prop :=
  ∀ (p : Params) (r : ℚ),
    (∀ F scale x v, rne F (x * scale) = .fin v →
      quantElem p F scale x = (clamp (rha v) (if p.symSat then -32767 else -32768) 32767,
        clamp (rha v) (if p.symSat then -32767 else -32768) 32767 != rha v))
    ∧ (∀ scale x, decodeFinite .f32 0x44124925 = some scale → decodeFinite .f32 0x41C0003F = some x →
        rne .f32 (x * scale) = .fin (28087 / 2) ∧ quantElem p .f32 scale x = (14044, false) ∧ rha (x * scale) = 14043)
    ∧ (∀ F scale x v, rne F (x * scale) = .fin v → quantElem p F scale x = roundClamp p v)
    ∧ (roundClamp p r = (32767, true) ↔ 65535 / 2 ≤ r)
    ∧ (p.symSat = false →
        (roundClamp p r = (-32768, true) ↔ r ≤ -65537 / 2)
        ∧ (-65537 / 2 < r → r ≤ -65535 / 2 → roundClamp p r = (-32768, false))
        ∧ (r ≤ -65535 / 2 → (roundClamp p r).1 = -32768))
    ∧ (p.symSat = true → (roundClamp p r = (-32767, true) ↔ r ≤ -65535 / 2))

/-- QUANT with an instance, both buffers valid and every source element finite completes: output element k is Q1 of source
element k as it was before the command, SATCNT is the number of saturated elements, every byte outside the destination
buffer is unchanged, and nothing else changes but ERR and ERR_INDEX (R69, R164, R166). -/
def Obligations.QuantStoresEveryElement : Prop :=
  ∀ s, s.inst.valid = true → BufOk s s.src (elemSize s.inst.fmt) → BufOk s s.dst 2 → AllFinite s.inst.fmt s →
    ∃ t, exec .quant s = .next t
      ∧ (∀ k < s.n, ∀ x, rawAt s.inst.fmt s.mem s.src k = some x →
          qAt t.mem s.dst k = (quantElem s.params s.inst.fmt s.inst.scaleValue x).1)
      ∧ t.satCnt.toNat = ((List.range s.n).filter (fun k =>
          (quantElem s.params s.inst.fmt s.inst.scaleValue ((rawAt s.inst.fmt s.mem s.src k).getD 0)).2)).length
      ∧ (∀ b, (b < s.dst ∨ s.dst + s.n * 2 ≤ b) → t.mem.byte b = s.mem.byte b)
      ∧ t = { s with mem := t.mem, satCnt := t.satCnt, err := .none, errIndex := 0 }

/-- R167: for a non-degenerate Scale with E >= 1, no x with |x| <= absoluteMax saturates; with E = 0,
+absoluteMax saturates to 32767 and, with SYM_SAT false, -absoluteMax gives -32768 without saturation. -/
def Obligations.NoClampInsideTheMargin : Prop :=
  ∀ (p : Params) F a E v, Representable F a → 0 ≤ a → computeScale F a E = .ok (v, false) →
    (1 ≤ E → ∀ x, |x| ≤ a → (quantElem p F v x).2 = false)
    ∧ (E = 0 → quantElem p F v a = (32767, true)
        ∧ (p.symSat = false → quantElem p F v (-a) = (-32768, false)))

/-- R168: with a degenerate instance Scale is 1.0, so every representable x is its own product and is rounded and clamped as
it is; and QUANT and DEQUANT of an
all-zero buffer write zero bytes. -/
def Obligations.DegenerateInstanceRoundsTheInput : Prop :=
  (∀ (p : Params) F x, Representable F x → mulF F x 1 = .fin x ∧ quantElem p F 1 x = roundClamp p x
    ∧ (roundClamp p x).1 = clamp (rha x) (qMin p) qMax)
  ∧ (∀ s t : State, s.Inv → s.inst.degen = true → s.inst.scaleValue = 1
      ∧ ((∀ k < s.n, rawAt s.inst.fmt s.mem s.src k = some 0) → exec .quant s = .next t → t.err = .none →
          t.satCnt = 0 ∧ ∀ j < s.n * 2, t.mem.byte (s.dst + j) = 0)
      ∧ ((∀ k < s.n, qAt s.mem s.src k = 0) → exec .dequant s = .next t → t.err = .none →
          ∀ j < s.n * elemSize s.inst.fmt, t.mem.byte (s.dst + j) = 0))

/-- R170: in a state that meets the invariant, DQ1 never returns an infinity for a 16-bit q, and with a degenerate instance
it returns q exactly. -/
def Obligations.DequantNeverOverflows : Prop :=
  ∀ s : State, s.Inv → s.inst.valid = true → ∀ q : ℤ, -32768 ≤ q → q ≤ 32767 →
    (∃ v, dequantElem s.inst.fmt s.inst.scaleValue q = .fin v)
    ∧ (s.inst.degen = true → dequantElem s.inst.fmt s.inst.scaleValue q = .fin q)

/-- DEQUANT with an instance and both buffers valid completes: output element k is the pattern of DQ1 of source element k as
it was before the command, every byte outside the destination buffer is unchanged, and nothing else changes but ERR and
ERR_INDEX (R69, R169, R172). -/
def Obligations.DequantStoresEveryElement : Prop :=
  ∀ s, s.inst.valid = true → BufOk s s.src 2 → BufOk s s.dst (elemSize s.inst.fmt) →
    ∃ t, exec .dequant s = .next t
      ∧ (∀ k < s.n, rawPattern s.inst.fmt t.mem s.dst k
          = encodeF s.inst.fmt (rne s.inst.fmt (qAt s.mem s.src k / s.inst.scaleValue)))
      ∧ (∀ b, (b < s.dst ∨ s.dst + s.n * elemSize s.inst.fmt ≤ b) → t.mem.byte b = s.mem.byte b)
      ∧ t = { s with mem := t.mem, err := .none, errIndex := 0 }

/-- Derived from R173: for an x that does not saturate, the round trip is off by at most half a step plus the errors of the
two roundings, each relative 2^-p, and half the smallest subnormal, 2^(emin-p), which the error of a subnormal quotient can
reach. With a Scale of at most 2^-emin no quotient of a non-zero integer is subnormal, and that last term falls away. The
split by the Scale is the model's reading of the rule's "each relative 2^-p at most" (DEDUCED, log 12). -/
def Obligations.RoundTripIsWithinHalfAStep : Prop :=
  ∀ (p : Params) F (scale x : ℚ) (y : ℤ) (v : ℚ), 0 < scale →
    quantElem p F scale x = (y, false) → dequantElem F scale y = .fin v →
    |v - x| ≤ 1 / (2 * scale) + (2 : ℚ) ^ (-(fPrec F : ℤ)) * (|x| + |(y : ℚ)| / scale) + (2 : ℚ) ^ (emin F - fPrec F)
    ∧ (scale * (2 : ℚ) ^ emin F ≤ 1 →
        |v - x| ≤ 1 / (2 * scale) + (2 : ℚ) ^ (-(fPrec F : ℤ)) * (|x| + |(y : ℚ)| / scale))

/-- R175: QUANT and DEQUANT do not change the instance, ABSMAX or an operand register, and two QUANTs with the same instance
and the same input bytes write the same output bytes and the same SATCNT; two DEQUANTs with the same instance and the same
input bytes write the same output bytes (R67's widths; R69, R172). -/
def Obligations.TransformsArePureFunctionsOfTheirInput : Prop :=
  (∀ i s t, i = .quant ∨ i = .dequant → exec i s = .next t →
    t.inst = s.inst ∧ t.absmaxLo = s.absmaxLo ∧ t.absmaxHi = s.absmaxHi ∧ t.srcAddr = s.srcAddr
      ∧ t.dstAddr = s.dstAddr ∧ t.count = s.count ∧ t.boundLo = s.boundLo ∧ t.boundHi = s.boundHi)
  ∧ (∀ s s' t t', s.inst = s'.inst → s.params = s'.params → s.n = s'.n →
    (∀ j < s.n * elemSize s.inst.fmt, s.mem.byte (s.src + j) = s'.mem.byte (s'.src + j)) →
    exec .quant s = .next t → exec .quant s' = .next t' → t.err = .none → t'.err = .none →
    t.satCnt = t'.satCnt ∧ ∀ j < s.n * 2, t.mem.byte (s.dst + j) = t'.mem.byte (s'.dst + j))
  ∧ ∀ s s' t t', s.inst = s'.inst → s.n = s'.n →
    (∀ j < s.n * 2, s.mem.byte (s.src + j) = s'.mem.byte (s'.src + j)) →
    exec .dequant s = .next t → exec .dequant s' = .next t' → t.err = .none → t'.err = .none →
    ∀ j < s.n * elemSize s.inst.fmt, t.mem.byte (s.dst + j) = t'.mem.byte (s'.dst + j)

/-- R180: RELEASE is the word 6 and always completes: the instance is gone, ERR and ERR_INDEX are 0, and nothing else changes; a QUANT after
it raises NO_INSTANCE. -/
def Obligations.ReleaseDiscardsTheInstance : Prop :=
  decode 0x00000006 = .ok .release ∧ ∀ s, exec .release s = .next { s with inst := Inst.absent, err := .none, errIndex := 0 }
    ∧ ∀ t, exec .release s = .next t → exec .quant t = .next { t with err := .noInstance, errIndex := 0 }

/-! ### Errors and reset (spec/60_exceptions.md, spec/70_reset_and_hazards.md) -/

/-- R195: at every state every command word reports the first error of the rule's table, with its index, and no
error exactly when every check passes. -/
def Obligations.ErrorPriorityFollowsTheTable : Prop :=
  ∀ w s, ∃ t, execCommand w s = .next t
    ∧ match firstError w s with
      | some (c, j) => t.err = c ∧ t.errIndex = BitVec.ofNat 32 j
      | none => t.err = .none ∧ t.errIndex = 0

/-- R220: `Reset()` sets every register to its reset value and does not change buffer memory; there is then no
instance, ERR is NONE and SATCNT is 0. That the host's side and the parameters stay is the model's (DESIGN CHOICE, logs 1
and 2), and so is an empty list as memory's unspecified contents at power-on (DESIGN CHOICE, log 3). -/
def Obligations.ResetSetsEveryRegister : Prop :=
  (∀ s rest, s.pending = .reset :: rest →
    ∃ t, step s = .next t ∧ RegistersReset t ∧ t.mem = s.mem ∧ t.inst.valid = false ∧ t.err = .none ∧ t.satCnt = 0
      ∧ t.params = s.params ∧ t.pending = rest ∧ t.observed = s.observed)
  ∧ State.reset.mem = []

/-- R221: a reset while a command runs resets every register and turns each byte of the command's destination buffer,
clipped to memory, into a draw; other bytes are unchanged. The element size is 2 for QUANT, the instance's for DEQUANT, and
other command words have no destination: the model's reading of R67 and R105, as is the numbering of the draws (log 4). -/
def Obligations.ResetDuringACommandDrawsItsDestination : Prop :=
  ∀ s rest w, s.pending = .resetDuring w :: rest →
    ∃ t len, step s = .next t
      ∧ len = (if w = 0x00000004 then min (s.n * 2) (s.params.memBytes - s.dst)
          else if w = 0x00000005 then min (s.n * elemSize s.inst.fmt) (s.params.memBytes - s.dst) else 0)
      ∧ RegistersReset t ∧ t.params = s.params ∧ t.pending = rest ∧ t.observed = s.observed
      ∧ (∀ j < len, t.mem.byte (s.dst + j) = Config.abandonedByte (s.draws + j)) ∧ t.draws = s.draws + len
      ∧ ∀ b, (b < s.dst ∨ s.dst + len ≤ b) → t.mem.byte b = s.mem.byte b
end

