-- ==== Sys2Proof/Laws/State.lean ====
section
/-! SUPPORT. One lemma per field per named update of the state, so that no proof unfolds a record update. -/

namespace Sys2Proof.Machine

/-! ### State.setInst -/

@[simp] theorem setInst_inst (i : Inst) (s : State) : (State.setInst i s).inst = i := rfl
@[simp] theorem setInst_err (i : Inst) (s : State) : (State.setInst i s).err = s.err := rfl
@[simp] theorem setInst_errIndex (i : Inst) (s : State) : (State.setInst i s).errIndex = s.errIndex := rfl
@[simp] theorem setInst_srcAddr (i : Inst) (s : State) : (State.setInst i s).srcAddr = s.srcAddr := rfl
@[simp] theorem setInst_dstAddr (i : Inst) (s : State) : (State.setInst i s).dstAddr = s.dstAddr := rfl
@[simp] theorem setInst_count (i : Inst) (s : State) : (State.setInst i s).count = s.count := rfl
@[simp] theorem setInst_boundLo (i : Inst) (s : State) : (State.setInst i s).boundLo = s.boundLo := rfl
@[simp] theorem setInst_boundHi (i : Inst) (s : State) : (State.setInst i s).boundHi = s.boundHi := rfl
@[simp] theorem setInst_absmaxLo (i : Inst) (s : State) : (State.setInst i s).absmaxLo = s.absmaxLo := rfl
@[simp] theorem setInst_absmaxHi (i : Inst) (s : State) : (State.setInst i s).absmaxHi = s.absmaxHi := rfl
@[simp] theorem setInst_satCnt (i : Inst) (s : State) : (State.setInst i s).satCnt = s.satCnt := rfl
@[simp] theorem setInst_mem (i : Inst) (s : State) : (State.setInst i s).mem = s.mem := rfl
@[simp] theorem setInst_params (i : Inst) (s : State) : (State.setInst i s).params = s.params := rfl
@[simp] theorem setInst_pending (i : Inst) (s : State) : (State.setInst i s).pending = s.pending := rfl
@[simp] theorem setInst_observed (i : Inst) (s : State) : (State.setInst i s).observed = s.observed := rfl
@[simp] theorem setInst_draws (i : Inst) (s : State) : (State.setInst i s).draws = s.draws := rfl

/-! ### State.setAbsmax -/

@[simp] theorem setAbsmax_inst (p : Pattern) (s : State) : (State.setAbsmax p s).inst = s.inst := rfl
@[simp] theorem setAbsmax_err (p : Pattern) (s : State) : (State.setAbsmax p s).err = s.err := rfl
@[simp] theorem setAbsmax_errIndex (p : Pattern) (s : State) : (State.setAbsmax p s).errIndex = s.errIndex := rfl
@[simp] theorem setAbsmax_srcAddr (p : Pattern) (s : State) : (State.setAbsmax p s).srcAddr = s.srcAddr := rfl
@[simp] theorem setAbsmax_dstAddr (p : Pattern) (s : State) : (State.setAbsmax p s).dstAddr = s.dstAddr := rfl
@[simp] theorem setAbsmax_count (p : Pattern) (s : State) : (State.setAbsmax p s).count = s.count := rfl
@[simp] theorem setAbsmax_boundLo (p : Pattern) (s : State) : (State.setAbsmax p s).boundLo = s.boundLo := rfl
@[simp] theorem setAbsmax_boundHi (p : Pattern) (s : State) : (State.setAbsmax p s).boundHi = s.boundHi := rfl
@[simp] theorem setAbsmax_absmaxLo (p : Pattern) (s : State) : (State.setAbsmax p s).absmaxLo = p.lo := rfl
@[simp] theorem setAbsmax_absmaxHi (p : Pattern) (s : State) : (State.setAbsmax p s).absmaxHi = p.hi := rfl
@[simp] theorem setAbsmax_satCnt (p : Pattern) (s : State) : (State.setAbsmax p s).satCnt = s.satCnt := rfl
@[simp] theorem setAbsmax_mem (p : Pattern) (s : State) : (State.setAbsmax p s).mem = s.mem := rfl
@[simp] theorem setAbsmax_params (p : Pattern) (s : State) : (State.setAbsmax p s).params = s.params := rfl
@[simp] theorem setAbsmax_pending (p : Pattern) (s : State) : (State.setAbsmax p s).pending = s.pending := rfl
@[simp] theorem setAbsmax_observed (p : Pattern) (s : State) : (State.setAbsmax p s).observed = s.observed := rfl
@[simp] theorem setAbsmax_draws (p : Pattern) (s : State) : (State.setAbsmax p s).draws = s.draws := rfl

/-! ### State.setSatCnt -/

@[simp] theorem setSatCnt_inst (n : Nat) (s : State) : (State.setSatCnt n s).inst = s.inst := rfl
@[simp] theorem setSatCnt_err (n : Nat) (s : State) : (State.setSatCnt n s).err = s.err := rfl
@[simp] theorem setSatCnt_errIndex (n : Nat) (s : State) : (State.setSatCnt n s).errIndex = s.errIndex := rfl
@[simp] theorem setSatCnt_srcAddr (n : Nat) (s : State) : (State.setSatCnt n s).srcAddr = s.srcAddr := rfl
@[simp] theorem setSatCnt_dstAddr (n : Nat) (s : State) : (State.setSatCnt n s).dstAddr = s.dstAddr := rfl
@[simp] theorem setSatCnt_count (n : Nat) (s : State) : (State.setSatCnt n s).count = s.count := rfl
@[simp] theorem setSatCnt_boundLo (n : Nat) (s : State) : (State.setSatCnt n s).boundLo = s.boundLo := rfl
@[simp] theorem setSatCnt_boundHi (n : Nat) (s : State) : (State.setSatCnt n s).boundHi = s.boundHi := rfl
@[simp] theorem setSatCnt_absmaxLo (n : Nat) (s : State) : (State.setSatCnt n s).absmaxLo = s.absmaxLo := rfl
@[simp] theorem setSatCnt_absmaxHi (n : Nat) (s : State) : (State.setSatCnt n s).absmaxHi = s.absmaxHi := rfl
@[simp] theorem setSatCnt_satCnt (n : Nat) (s : State) : (State.setSatCnt n s).satCnt = BitVec.ofNat 32 n := rfl
@[simp] theorem setSatCnt_mem (n : Nat) (s : State) : (State.setSatCnt n s).mem = s.mem := rfl
@[simp] theorem setSatCnt_params (n : Nat) (s : State) : (State.setSatCnt n s).params = s.params := rfl
@[simp] theorem setSatCnt_pending (n : Nat) (s : State) : (State.setSatCnt n s).pending = s.pending := rfl
@[simp] theorem setSatCnt_observed (n : Nat) (s : State) : (State.setSatCnt n s).observed = s.observed := rfl
@[simp] theorem setSatCnt_draws (n : Nat) (s : State) : (State.setSatCnt n s).draws = s.draws := rfl

/-! ### State.setMem -/

@[simp] theorem setMem_inst (m : Memory) (s : State) : (State.setMem m s).inst = s.inst := rfl
@[simp] theorem setMem_err (m : Memory) (s : State) : (State.setMem m s).err = s.err := rfl
@[simp] theorem setMem_errIndex (m : Memory) (s : State) : (State.setMem m s).errIndex = s.errIndex := rfl
@[simp] theorem setMem_srcAddr (m : Memory) (s : State) : (State.setMem m s).srcAddr = s.srcAddr := rfl
@[simp] theorem setMem_dstAddr (m : Memory) (s : State) : (State.setMem m s).dstAddr = s.dstAddr := rfl
@[simp] theorem setMem_count (m : Memory) (s : State) : (State.setMem m s).count = s.count := rfl
@[simp] theorem setMem_boundLo (m : Memory) (s : State) : (State.setMem m s).boundLo = s.boundLo := rfl
@[simp] theorem setMem_boundHi (m : Memory) (s : State) : (State.setMem m s).boundHi = s.boundHi := rfl
@[simp] theorem setMem_absmaxLo (m : Memory) (s : State) : (State.setMem m s).absmaxLo = s.absmaxLo := rfl
@[simp] theorem setMem_absmaxHi (m : Memory) (s : State) : (State.setMem m s).absmaxHi = s.absmaxHi := rfl
@[simp] theorem setMem_satCnt (m : Memory) (s : State) : (State.setMem m s).satCnt = s.satCnt := rfl
@[simp] theorem setMem_mem (m : Memory) (s : State) : (State.setMem m s).mem = m := rfl
@[simp] theorem setMem_params (m : Memory) (s : State) : (State.setMem m s).params = s.params := rfl
@[simp] theorem setMem_pending (m : Memory) (s : State) : (State.setMem m s).pending = s.pending := rfl
@[simp] theorem setMem_observed (m : Memory) (s : State) : (State.setMem m s).observed = s.observed := rfl
@[simp] theorem setMem_draws (m : Memory) (s : State) : (State.setMem m s).draws = s.draws := rfl

/-! ### State.setErr -/

@[simp] theorem setErr_inst (c : ErrCode) (k : Nat) (s : State) : (State.setErr c k s).inst = s.inst := rfl
@[simp] theorem setErr_err (c : ErrCode) (k : Nat) (s : State) : (State.setErr c k s).err = c := rfl
@[simp] theorem setErr_errIndex (c : ErrCode) (k : Nat) (s : State) : (State.setErr c k s).errIndex = BitVec.ofNat 32 k := rfl
@[simp] theorem setErr_srcAddr (c : ErrCode) (k : Nat) (s : State) : (State.setErr c k s).srcAddr = s.srcAddr := rfl
@[simp] theorem setErr_dstAddr (c : ErrCode) (k : Nat) (s : State) : (State.setErr c k s).dstAddr = s.dstAddr := rfl
@[simp] theorem setErr_count (c : ErrCode) (k : Nat) (s : State) : (State.setErr c k s).count = s.count := rfl
@[simp] theorem setErr_boundLo (c : ErrCode) (k : Nat) (s : State) : (State.setErr c k s).boundLo = s.boundLo := rfl
@[simp] theorem setErr_boundHi (c : ErrCode) (k : Nat) (s : State) : (State.setErr c k s).boundHi = s.boundHi := rfl
@[simp] theorem setErr_absmaxLo (c : ErrCode) (k : Nat) (s : State) : (State.setErr c k s).absmaxLo = s.absmaxLo := rfl
@[simp] theorem setErr_absmaxHi (c : ErrCode) (k : Nat) (s : State) : (State.setErr c k s).absmaxHi = s.absmaxHi := rfl
@[simp] theorem setErr_satCnt (c : ErrCode) (k : Nat) (s : State) : (State.setErr c k s).satCnt = s.satCnt := rfl
@[simp] theorem setErr_mem (c : ErrCode) (k : Nat) (s : State) : (State.setErr c k s).mem = s.mem := rfl
@[simp] theorem setErr_params (c : ErrCode) (k : Nat) (s : State) : (State.setErr c k s).params = s.params := rfl
@[simp] theorem setErr_pending (c : ErrCode) (k : Nat) (s : State) : (State.setErr c k s).pending = s.pending := rfl
@[simp] theorem setErr_observed (c : ErrCode) (k : Nat) (s : State) : (State.setErr c k s).observed = s.observed := rfl
@[simp] theorem setErr_draws (c : ErrCode) (k : Nat) (s : State) : (State.setErr c k s).draws = s.draws := rfl

/-! ### State.observe -/

@[simp] theorem observe_inst (o : Observation) (s : State) : (State.observe o s).inst = s.inst := rfl
@[simp] theorem observe_err (o : Observation) (s : State) : (State.observe o s).err = s.err := rfl
@[simp] theorem observe_errIndex (o : Observation) (s : State) : (State.observe o s).errIndex = s.errIndex := rfl
@[simp] theorem observe_srcAddr (o : Observation) (s : State) : (State.observe o s).srcAddr = s.srcAddr := rfl
@[simp] theorem observe_dstAddr (o : Observation) (s : State) : (State.observe o s).dstAddr = s.dstAddr := rfl
@[simp] theorem observe_count (o : Observation) (s : State) : (State.observe o s).count = s.count := rfl
@[simp] theorem observe_boundLo (o : Observation) (s : State) : (State.observe o s).boundLo = s.boundLo := rfl
@[simp] theorem observe_boundHi (o : Observation) (s : State) : (State.observe o s).boundHi = s.boundHi := rfl
@[simp] theorem observe_absmaxLo (o : Observation) (s : State) : (State.observe o s).absmaxLo = s.absmaxLo := rfl
@[simp] theorem observe_absmaxHi (o : Observation) (s : State) : (State.observe o s).absmaxHi = s.absmaxHi := rfl
@[simp] theorem observe_satCnt (o : Observation) (s : State) : (State.observe o s).satCnt = s.satCnt := rfl
@[simp] theorem observe_mem (o : Observation) (s : State) : (State.observe o s).mem = s.mem := rfl
@[simp] theorem observe_params (o : Observation) (s : State) : (State.observe o s).params = s.params := rfl
@[simp] theorem observe_pending (o : Observation) (s : State) : (State.observe o s).pending = s.pending := rfl
@[simp] theorem observe_observed (o : Observation) (s : State) : (State.observe o s).observed = o :: s.observed := rfl
@[simp] theorem observe_draws (o : Observation) (s : State) : (State.observe o s).draws = s.draws := rfl

/-! ### State.commit -/

@[simp] theorem commit_inst (s : State) : (State.commit s).inst = s.inst := rfl
@[simp] theorem commit_err (s : State) : (State.commit s).err = ErrCode.none := rfl
@[simp] theorem commit_errIndex (s : State) : (State.commit s).errIndex = 0 := rfl
@[simp] theorem commit_srcAddr (s : State) : (State.commit s).srcAddr = s.srcAddr := rfl
@[simp] theorem commit_dstAddr (s : State) : (State.commit s).dstAddr = s.dstAddr := rfl
@[simp] theorem commit_count (s : State) : (State.commit s).count = s.count := rfl
@[simp] theorem commit_boundLo (s : State) : (State.commit s).boundLo = s.boundLo := rfl
@[simp] theorem commit_boundHi (s : State) : (State.commit s).boundHi = s.boundHi := rfl
@[simp] theorem commit_absmaxLo (s : State) : (State.commit s).absmaxLo = s.absmaxLo := rfl
@[simp] theorem commit_absmaxHi (s : State) : (State.commit s).absmaxHi = s.absmaxHi := rfl
@[simp] theorem commit_satCnt (s : State) : (State.commit s).satCnt = s.satCnt := rfl
@[simp] theorem commit_mem (s : State) : (State.commit s).mem = s.mem := rfl
@[simp] theorem commit_params (s : State) : (State.commit s).params = s.params := rfl
@[simp] theorem commit_pending (s : State) : (State.commit s).pending = s.pending := rfl
@[simp] theorem commit_observed (s : State) : (State.commit s).observed = s.observed := rfl
@[simp] theorem commit_draws (s : State) : (State.commit s).draws = s.draws := rfl

/-! ### resetInput -/

@[simp] theorem resetInput_inst (s : State) : (resetInput s).inst = State.reset.inst := rfl
@[simp] theorem resetInput_err (s : State) : (resetInput s).err = State.reset.err := rfl
@[simp] theorem resetInput_errIndex (s : State) : (resetInput s).errIndex = State.reset.errIndex := rfl
@[simp] theorem resetInput_srcAddr (s : State) : (resetInput s).srcAddr = State.reset.srcAddr := rfl
@[simp] theorem resetInput_dstAddr (s : State) : (resetInput s).dstAddr = State.reset.dstAddr := rfl
@[simp] theorem resetInput_count (s : State) : (resetInput s).count = State.reset.count := rfl
@[simp] theorem resetInput_boundLo (s : State) : (resetInput s).boundLo = State.reset.boundLo := rfl
@[simp] theorem resetInput_boundHi (s : State) : (resetInput s).boundHi = State.reset.boundHi := rfl
@[simp] theorem resetInput_absmaxLo (s : State) : (resetInput s).absmaxLo = State.reset.absmaxLo := rfl
@[simp] theorem resetInput_absmaxHi (s : State) : (resetInput s).absmaxHi = State.reset.absmaxHi := rfl
@[simp] theorem resetInput_satCnt (s : State) : (resetInput s).satCnt = State.reset.satCnt := rfl
@[simp] theorem resetInput_mem (s : State) : (resetInput s).mem = s.mem := rfl
@[simp] theorem resetInput_params (s : State) : (resetInput s).params = s.params := rfl
@[simp] theorem resetInput_pending (s : State) : (resetInput s).pending = s.pending := rfl
@[simp] theorem resetInput_observed (s : State) : (resetInput s).observed = s.observed := rfl
@[simp] theorem resetInput_draws (s : State) : (resetInput s).draws = s.draws := rfl

/-! ### State.raise -/

theorem raise_keeping (e : CmdError) (s : State) : s.raise false e = s.setErr e.code e.index := rfl

theorem raise_discarding (e : CmdError) (s : State) :
    s.raise true e = (s.setInst Inst.absent).setErr e.code e.index := rfl

@[simp] theorem raise_err (b : Bool) (e : CmdError) (s : State) : (s.raise b e).err = e.code := by cases b <;> rfl
@[simp] theorem raise_errIndex (b : Bool) (e : CmdError) (s : State) : (s.raise b e).errIndex = BitVec.ofNat 32 e.index := by cases b <;> rfl
@[simp] theorem raise_srcAddr (b : Bool) (e : CmdError) (s : State) : (s.raise b e).srcAddr = s.srcAddr := by cases b <;> rfl
@[simp] theorem raise_dstAddr (b : Bool) (e : CmdError) (s : State) : (s.raise b e).dstAddr = s.dstAddr := by cases b <;> rfl
@[simp] theorem raise_count (b : Bool) (e : CmdError) (s : State) : (s.raise b e).count = s.count := by cases b <;> rfl
@[simp] theorem raise_boundLo (b : Bool) (e : CmdError) (s : State) : (s.raise b e).boundLo = s.boundLo := by cases b <;> rfl
@[simp] theorem raise_boundHi (b : Bool) (e : CmdError) (s : State) : (s.raise b e).boundHi = s.boundHi := by cases b <;> rfl
@[simp] theorem raise_absmaxLo (b : Bool) (e : CmdError) (s : State) : (s.raise b e).absmaxLo = s.absmaxLo := by cases b <;> rfl
@[simp] theorem raise_absmaxHi (b : Bool) (e : CmdError) (s : State) : (s.raise b e).absmaxHi = s.absmaxHi := by cases b <;> rfl
@[simp] theorem raise_satCnt (b : Bool) (e : CmdError) (s : State) : (s.raise b e).satCnt = s.satCnt := by cases b <;> rfl
@[simp] theorem raise_mem (b : Bool) (e : CmdError) (s : State) : (s.raise b e).mem = s.mem := by cases b <;> rfl
@[simp] theorem raise_params (b : Bool) (e : CmdError) (s : State) : (s.raise b e).params = s.params := by cases b <;> rfl
@[simp] theorem raise_pending (b : Bool) (e : CmdError) (s : State) : (s.raise b e).pending = s.pending := by cases b <;> rfl
@[simp] theorem raise_observed (b : Bool) (e : CmdError) (s : State) : (s.raise b e).observed = s.observed := by cases b <;> rfl
@[simp] theorem raise_draws (b : Bool) (e : CmdError) (s : State) : (s.raise b e).draws = s.draws := by cases b <;> rfl

@[simp] theorem raise_inst (b : Bool) (e : CmdError) (s : State) :
    (s.raise b e).inst = if b then Inst.absent else s.inst := by cases b <;> rfl

end Sys2Proof.Machine
end

