-- ==== Sys2Proof/Laws/Command.lean ====
section
/-! SUPPORT. What each shared step of a command can answer, said once: checks, element reads, ComputeScale, the six
commands up to their commit, and how a command ends. -/

namespace Sys2Proof.Machine

/-! ### Sequencing -/

theorem bind_ok_iff {ε α β : Type} {x : Except ε α} {f : α → Except ε β} {r : β} :
    (x >>= f) = .ok r ↔ ∃ a, x = .ok a ∧ f a = .ok r := by
  cases x <;> simp [bind, Except.bind]

theorem bind_error_iff {ε α β : Type} {x : Except ε α} {f : α → Except ε β} {e : ε} :
    (x >>= f) = .error e ↔ x = .error e ∨ ∃ a, x = .ok a ∧ f a = .error e := by
  cases x <;> simp [bind, Except.bind]

/-! ### Checks -/

@[simp] theorem check_ok_iff {b : Bool} {c : ErrCode} {u : Unit} : check b c = .ok u ↔ b = true := by
  cases b <;> simp [check]

@[simp] theorem check_error_iff {b : Bool} {c : ErrCode} {e : CmdError} :
    check b c = .error e ↔ b = false ∧ e = { code := c, index := 0 } := by
  cases b <;> simp [check, eq_comm]

/-- A buffer passes its checks when it is empty, or aligned and inside memory (R65, R66, R106). -/
theorem checkBuf_ok_iff {p : Params} {base es n : Nat} {u : Unit} :
    checkBuf p base es n = .ok u ↔ n = 0 ∨ (base % es = 0 ∧ base + n * es ≤ p.memBytes) := by
  unfold checkBuf
  split
  · simp [*]
  · simp [bind_ok_iff, *]

/-- A buffer that fails its checks is not empty, and is misaligned, or aligned and out of range (R106). -/
theorem checkBuf_error_iff {p : Params} {base es n : Nat} {e : CmdError} :
    checkBuf p base es n = .error e ↔ n ≠ 0 ∧
      ((base % es ≠ 0 ∧ e = { code := .memAlign, index := 0 }) ∨
        (base % es = 0 ∧ p.memBytes < base + n * es ∧ e = { code := .memRange, index := 0 })) := by
  unfold checkBuf
  split
  · simp [*]
  · simp [bind_error_iff, *]

/-! ### Element reads -/

/-- `FirstNonFinite` finds nothing exactly when every element is finite (R108). -/
theorem firstNonFinite_none_iff {F : Fmt} {m : Memory} {base n : Nat} :
    firstNonFinite F m base n = none ↔ ∀ i < n, ∃ x, rawAt F m base i = some x := by
  simp [firstNonFinite, ← Option.isSome_iff_exists, Option.isSome_iff_ne_none]

/-- `FirstNonFinite` answers the lowest index of a non-finite element (R108). -/
theorem firstNonFinite_some_iff {F : Fmt} {m : Memory} {base n i : Nat} :
    firstNonFinite F m base n = some i ↔
      i < n ∧ rawAt F m base i = none ∧ ∀ j < i, ∃ x, rawAt F m base j = some x := by
  rw [firstNonFinite, List.find?_range_eq_some]
  simp only [Option.isNone_iff_eq_none, Bool.not_eq_true', Option.isNone_eq_false_iff, Option.isSome_iff_exists,
    List.mem_range]
  tauto

theorem finiteElems_ok_iff {F : Fmt} {m : Memory} {base n : Nat} {xs : List ℚ} :
    finiteElems F m base n = .ok xs ↔
      (∀ i < n, ∃ x, rawAt F m base i = some x) ∧ xs = (List.range n).map (fun i => (rawAt F m base i).getD 0) := by
  rw [← firstNonFinite_none_iff, finiteElems]
  cases firstNonFinite F m base n <;> simp [eq_comm]

theorem finiteElems_error_iff {F : Fmt} {m : Memory} {base n : Nat} {e : CmdError} :
    finiteElems F m base n = .error e ↔
      ∃ i, firstNonFinite F m base n = some i ∧ e = { code := .nonFinite, index := i } := by
  rw [finiteElems]
  cases firstNonFinite F m base n <;> simp [eq_comm]

theorem finiteElems_length {F : Fmt} {m : Memory} {base n : Nat} {xs : List ℚ}
    (h : finiteElems F m base n = .ok xs) : xs.length = n := by
  rw [(finiteElems_ok_iff.1 h).2]; simp

/-! ### ComputeScale -/

/-- What `ComputeScale` answers when it succeeds (R140): no range overflow, and the sentinel or the rounded quotient. -/
theorem computeScale_ok_iff {F : Fmt} {a : ℚ} {E : Nat} {scale : ℚ} {degen : Bool} :
    computeScale F a E = .ok (scale, degen) ↔ a * pow2 E ≤ maxFinite F ∧
      ((a * pow2 E = 0 ∧ scale = 1 ∧ degen = true) ∨
        (a * pow2 E ≠ 0 ∧ divF F (pow2 (qBits - 1)) (a * pow2 E) = .fin scale ∧ degen = false)) := by
  simp only [computeScale, bind_ok_iff, check_ok_iff, decide_eq_true_eq, exists_const]
  refine and_congr_right fun _ => ?_
  by_cases h0 : a * pow2 E = 0
  · simp [h0, eq_comm]
  · cases h : divF F (pow2 (qBits - 1)) (a * pow2 E) <;> simp [h0, eq_comm]

/-- What `ComputeScale` answers when it fails (R139, R143). -/
theorem computeScale_error_iff {F : Fmt} {a : ℚ} {E : Nat} {e : CmdError} :
    computeScale F a E = .error e ↔
      (maxFinite F < a * pow2 E ∧ e = { code := .rangeOverflow, index := 0 }) ∨
        (a * pow2 E ≤ maxFinite F ∧ a * pow2 E ≠ 0 ∧ e = { code := .scaleOverflow, index := 0 } ∧
          ∃ neg, divF F (pow2 (qBits - 1)) (a * pow2 E) = .inf neg) := by
  simp only [computeScale, bind_error_iff, check_ok_iff, check_error_iff, decide_eq_true_eq, decide_eq_false_iff_not,
    not_le, exists_const]
  refine or_congr_right (and_congr_right fun _ => ?_)
  by_cases h0 : a * pow2 E = 0
  · simp [h0]
  · cases h : divF F (pow2 (qBits - 1)) (a * pow2 E) <;> simp [h0, eq_comm]

theorem boundValue_ok_iff {F : Fmt} {s : State} {b : ℚ} :
    boundValue F s = .ok b ↔ decodeFinite F (boundPattern F s) = some b ∧ 0 ≤ b := by
  rw [boundValue]
  cases decodeFinite F (boundPattern F s) with
  | none => simp
  | some x =>
    by_cases hx : x < 0
    · simp only [hx, if_true, reduceCtorEq, Option.some.injEq, false_iff]
      rintro ⟨rfl, h⟩
      linarith
    · simp only [hx, if_false, Except.ok.injEq, Option.some.injEq, iff_self_and]
      rintro rfl
      exact not_lt.1 hx

theorem boundValue_error {F : Fmt} {s : State} {e : CmdError} (h : boundValue F s = .error e) :
    e = { code := .badBound, index := 0 } ∧ ∀ b, decodeFinite F (boundPattern F s) = some b → b < 0 := by
  rw [boundValue] at h
  cases hd : decodeFinite F (boundPattern F s) with
  | none =>
    simp only [hd, Except.error.injEq] at h
    exact ⟨h.symm, by simp⟩
  | some x =>
    by_cases hx : x < 0
    · simp only [hd, hx, if_true, Except.error.injEq] at h
      exact ⟨h.symm, by rintro b ⟨rfl⟩; exact hx⟩
    · simp [hd, hx] at h

/-! ### The commands up to their commit -/

theorem doScan_ok_iff {F : Fmt} {s t : State} :
    doScan F s = .ok t ↔ s.n ≠ 0 ∧ checkBuf s.params s.src (elemSize F) s.n = .ok () ∧
      ∃ xs, finiteElems F s.mem s.src s.n = .ok xs ∧ t = s.setAbsmax (encodeF F (.fin (absMax xs))) := by
  simp only [doScan, bind_ok_iff, check_ok_iff, bne_iff_ne, exists_const, Except.ok.injEq]
  constructor
  · rintro ⟨hn, ⟨⟩, hb, xs, hx, rfl⟩
    exact ⟨hn, hb, xs, hx, rfl⟩
  · rintro ⟨hn, hb, xs, hx, rfl⟩
    exact ⟨hn, (), hb, xs, hx, rfl⟩

theorem doInitB_ok_iff {F : Fmt} {qt eb : Nat} {s t : State} :
    doInitB F qt eb s = .ok t ↔ qt = 0 ∧ ∃ b scale degen, boundValue F s = .ok b ∧
      computeScale F b eb = .ok (scale, degen) ∧ t = install F qt eb b scale degen s := by
  simp only [doInitB, bind_ok_iff, check_ok_iff, qtypeSupported, beq_iff_eq, exists_const, Except.ok.injEq,
    Prod.exists]
  constructor
  · rintro ⟨hq, b, hb, scale, degen, hc, rfl⟩
    exact ⟨hq, b, scale, degen, hb, hc, rfl⟩
  · rintro ⟨hq, b, scale, degen, hb, hc, rfl⟩
    exact ⟨hq, b, hb, scale, degen, hc, rfl⟩

theorem doInitS_ok_iff {F : Fmt} {qt eb : Nat} {s t : State} :
    doInitS F qt eb s = .ok t ↔ qt = 0 ∧ s.n ≠ 0 ∧ checkBuf s.params s.src (elemSize F) s.n = .ok () ∧
      ∃ xs scale degen, finiteElems F s.mem s.src s.n = .ok xs ∧
        computeScale F (absMax xs) eb = .ok (scale, degen) ∧ t = install F qt eb (absMax xs) scale degen s := by
  simp only [doInitS, bind_ok_iff, check_ok_iff, qtypeSupported, beq_iff_eq, bne_iff_ne, exists_const,
    Except.ok.injEq, Prod.exists]
  constructor
  · rintro ⟨hq, hn, ⟨⟩, hb, xs, hx, scale, degen, hc, rfl⟩
    exact ⟨hq, hn, hb, xs, scale, degen, hx, hc, rfl⟩
  · rintro ⟨hq, hn, hb, xs, scale, degen, hx, hc, rfl⟩
    exact ⟨hq, hn, (), hb, xs, hx, scale, degen, hc, rfl⟩

theorem doQuant_ok_iff {s t : State} :
    doQuant s = .ok t ↔ s.inst.valid = true ∧ checkBuf s.params s.src (elemSize s.inst.fmt) s.n = .ok () ∧
      checkBuf s.params s.dst 2 s.n = .ok () ∧ ∃ xs, finiteElems s.inst.fmt s.mem s.src s.n = .ok xs ∧
        t = (s.setMem (s.mem.putAll 2 s.dst
              ((xs.map (quantElem s.params s.inst.fmt s.inst.scaleValue)).map (fun y => bits16 y.1)))).setSatCnt
            ((xs.map (quantElem s.params s.inst.fmt s.inst.scaleValue)).countP (fun y => y.2)) := by
  simp only [doQuant, bind_ok_iff, check_ok_iff, exists_const, Except.ok.injEq]
  constructor
  · rintro ⟨hv, ⟨⟩, h1, ⟨⟩, h2, xs, hx, rfl⟩
    exact ⟨hv, h1, h2, xs, hx, rfl⟩
  · rintro ⟨hv, h1, h2, xs, hx, rfl⟩
    exact ⟨hv, (), h1, (), h2, xs, hx, rfl⟩

theorem doDequant_ok_iff {s t : State} :
    doDequant s = .ok t ↔ s.inst.valid = true ∧ checkBuf s.params s.src 2 s.n = .ok () ∧
      checkBuf s.params s.dst (elemSize s.inst.fmt) s.n = .ok () ∧
        t = s.setMem (s.mem.putAll (elemSize s.inst.fmt) s.dst
          (((intElems s.mem s.src s.n).map (dequantElem s.inst.fmt s.inst.scaleValue)).map
            (fun v => (encodeF s.inst.fmt v).toNat))) := by
  simp only [doDequant, bind_ok_iff, check_ok_iff, exists_const, Except.ok.injEq]
  constructor
  · rintro ⟨hv, ⟨⟩, h1, ⟨⟩, h2, rfl⟩
    exact ⟨hv, h1, h2, rfl⟩
  · rintro ⟨hv, h1, h2, rfl⟩
    exact ⟨hv, (), h1, (), h2, rfl⟩

/-! ### How a command ends -/

/-- A command always ends in a next state: it commits, or it takes its error (R101, R111, R112). -/
theorem finish_eq (b : Bool) (s : State) (r : Except CmdError State) :
    (∃ t, r = .ok t ∧ finish b s r = .next t.commit) ∨
      (∃ e, r = .error e ∧ finish b s r = .next (s.raise b e)) := by
  cases r <;> simp [finish]

@[simp] theorem finish_ok (b : Bool) (s t : State) : finish b s (.ok t) = .next t.commit := rfl

@[simp] theorem finish_error (b : Bool) (s : State) (e : CmdError) : finish b s (.error e) = .next (s.raise b e) := rfl

/-- Whether a command builds an instance, so that its failure discards one (R112). -/
def buildsInst : Instr → Bool
  | .scan _ => false
  | .initb _ _ _ => true
  | .inits _ _ _ => true
  | .quant => false
  | .dequant => false
  | .release => false

/-- The results of a command before its commit. -/
def resultsOf (s : State) : Instr → Except CmdError State
  | .scan F => doScan F s
  | .initb F qt eb => doInitB F qt eb s
  | .inits F qt eb => doInitS F qt eb s
  | .quant => doQuant s
  | .dequant => doDequant s
  | .release => .ok (s.setInst Inst.absent)

/-- Every command is its results, finished (R104). -/
theorem exec_eq_finish (i : Instr) (s : State) : exec i s = finish (buildsInst i) s (resultsOf s i) := by
  cases i <;> rfl

/-- What a step can do (R25): wait, with no access left, or run the host's next access. -/
theorem step_cases (s : State) :
    (s.pending = [] ∧ step s = .next s) ∨
      (∃ x rest, s.pending = x :: rest ∧ step s = hostAccess x { s with pending := rest }) := by
  unfold step
  cases h : s.pending with
  | nil => exact .inl ⟨rfl, rfl⟩
  | cons x rest => exact .inr ⟨x, rest, rfl, rfl⟩

end Sys2Proof.Machine
end

