-- ==== Sys2Proof/Laws/Memory.lean ====
section
/-! SUPPORT. Buffer memory: reading after writing, what a write leaves alone, and the canonical form kept. -/

namespace Sys2Proof.Machine

/-! ### One byte -/

theorem lookup_of_all_above {m : Memory} {a : Nat} (h : ∀ c ∈ m, a < c.1) : m.lookup a = none := by
  induction m with
  | nil => rfl
  | cons c rest ih =>
    have hc : a < c.1 := h c (by simp)
    have : c.1 ≠ a := by omega
    simp [Memory.lookup, this, ih (fun d hd => h d (by simp [hd]))]

theorem lookup_write_same (m : Memory) (a : Nat) (v : Byte) : (m.write a v).lookup a = some v := by
  induction m with
  | nil => simp [Memory.write, Memory.lookup]
  | cons c rest ih =>
    obtain ⟨k, w⟩ := c
    simp only [Memory.write]
    split
    · simp [Memory.lookup]
    · split
      · simp [Memory.lookup]
      · simp [Memory.lookup, *]

theorem lookup_write_other (m : Memory) {a b : Nat} (v : Byte) (h : b ≠ a) :
    (m.write a v).lookup b = m.lookup b := by
  induction m with
  | nil => simp [Memory.write, Memory.lookup, h.symm]
  | cons c rest ih =>
    obtain ⟨k, w⟩ := c
    simp only [Memory.write]
    split
    · simp [Memory.lookup, h.symm]
    · split
      · simp_all [Memory.lookup, h.symm]
      · simp [Memory.lookup, ih]

/-- A byte written reads back. -/
@[simp] theorem byte_write_same (m : Memory) (a : Nat) (v : Byte) : (m.write a v).byte a = v := by
  simp [Memory.byte, lookup_write_same]

/-- A write leaves every other byte alone. -/
theorem byte_write_other (m : Memory) {a b : Nat} (v : Byte) (h : b ≠ a) : (m.write a v).byte b = m.byte b := by
  simp [Memory.byte, lookup_write_other m v h]

theorem mem_write {m : Memory} {a : Nat} {v : Byte} {c : Host.Cell} (h : c ∈ m.write a v) :
    c = (a, v) ∨ c ∈ m := by
  induction m with
  | nil => simpa [Memory.write] using h
  | cons d rest ih =>
    obtain ⟨k, w⟩ := d
    simp only [Memory.write] at h
    split at h
    · simpa using h
    · split at h
      · rcases List.mem_cons.1 h with h | h <;> simp [h]
      · rcases List.mem_cons.1 h with h | h
        · simp [h]
        · rcases ih h with h | h <;> simp [h]

/-- A write keeps the canonical form. -/
theorem wf_write {m : Memory} (h : m.wf) (a : Nat) (v : Byte) : (m.write a v).wf := by
  induction m with
  | nil => simp [Memory.write, Memory.wf]
  | cons c rest ih =>
    obtain ⟨k, w⟩ := c
    obtain ⟨hk, hr⟩ := List.pairwise_cons.1 h
    simp only [Memory.write]
    split
    · rename_i hlt
      refine List.pairwise_cons.2 ⟨fun d hd => ?_, h⟩
      rcases List.mem_cons.1 hd with rfl | hd
      · exact hlt
      · exact lt_trans hlt (hk d hd)
    · split
      · rename_i _ he
        subst he
        exact List.pairwise_cons.2 ⟨hk, hr⟩
      · refine List.pairwise_cons.2 ⟨fun d hd => ?_, ih hr⟩
        rcases mem_write hd with rfl | hd
        · simp only; omega
        · exact hk d hd

/-- A write inside a memory of `n` bytes stays inside it. -/
theorem within_write {m : Memory} {n a : Nat} (h : m.Within n) (ha : a < n) (v : Byte) : (m.write a v).Within n := by
  intro c hc
  rcases mem_write hc with rfl | hc
  · exact ha
  · exact h c hc

/-- Two canonical memories with the same written bytes are the same list. -/
theorem eq_of_lookup_eq {m k : Memory} (hm : m.wf) (hk : k.wf) (h : ∀ a, m.lookup a = k.lookup a) : m = k := by
  induction m generalizing k with
  | nil =>
    cases k with
    | nil => rfl
    | cons d _ => have := h d.1; simp [Memory.lookup] at this
  | cons c rest ih =>
    obtain ⟨a, v⟩ := c
    obtain ⟨hc, hr⟩ := List.pairwise_cons.1 hm
    cases k with
    | nil => have := h a; simp [Memory.lookup] at this
    | cons d krest =>
      obtain ⟨b, w⟩ := d
      obtain ⟨hd, hkr⟩ := List.pairwise_cons.1 hk
      have hab : a = b := by
        rcases Nat.lt_trichotomy a b with hlt | heq | hgt
        · have h1 := h a
          rw [show Memory.lookup ((b, w) :: krest) a = none from lookup_of_all_above (by
            intro e he
            rcases List.mem_cons.1 he with rfl | he
            · exact hlt
            · exact lt_trans hlt (hd e he))] at h1
          simp [Memory.lookup] at h1
        · exact heq
        · have h1 := h b
          rw [show Memory.lookup ((a, v) :: rest) b = none from lookup_of_all_above (by
            intro e he
            rcases List.mem_cons.1 he with rfl | he
            · exact hgt
            · exact lt_trans hgt (hc e he))] at h1
          simp [Memory.lookup] at h1
      subst hab
      have hvw : v = w := by simpa [Memory.lookup] using h a
      subst hvw
      congr 1
      refine ih hr hkr (fun e => ?_)
      by_cases he : a = e
      · subst he
        rw [lookup_of_all_above hc, lookup_of_all_above hd]
      · simpa [Memory.lookup, he] using h e

/-! ### Little-endian values -/

/-- `MemWrite` changes no byte outside addr to addr+n-1. -/
theorem byte_writeLE_outside (n : Nat) : ∀ (m : Memory) (a v : Nat) {b : Nat}, (b < a ∨ a + n ≤ b) →
    (m.writeLE a n v).byte b = m.byte b := by
  induction n with
  | zero => intro m a v b _; rfl
  | succ n ih =>
    intro m a v b h
    rw [Memory.writeLE, ih _ _ _ (by omega), byte_write_other _ _ (by omega)]

theorem readLE_congr {m k : Memory} : ∀ (n a : Nat), (∀ b, a ≤ b → b < a + n → m.byte b = k.byte b) →
    m.readLE a n = k.readLE a n := by
  intro n
  induction n with
  | zero => intro a _; rfl
  | succ n ih =>
    intro a h
    rw [Memory.readLE, Memory.readLE, h a le_rfl (by omega), ih (a + 1) (fun b h1 h2 => h b (by omega) (by omega))]

theorem readLE_lt (m : Memory) : ∀ (n a : Nat), m.readLE a n < 256 ^ n := by
  intro n
  induction n with
  | zero => intro a; simp [Memory.readLE]
  | succ n ih =>
    intro a
    have h1 := (m.byte a).isLt
    have h2 := ih (a + 1)
    rw [Memory.readLE, pow_succ]
    norm_num at h1
    omega

theorem wf_writeLE (n : Nat) : ∀ {m : Memory} (a v : Nat), m.wf → (m.writeLE a n v).wf := by
  induction n with
  | zero => intro m a v h; exact h
  | succ n ih => intro m a v h; exact ih _ _ (wf_write h _ _)

theorem within_writeLE {N : Nat} (n : Nat) : ∀ {m : Memory} (a v : Nat), m.Within N → a + n ≤ N →
    (m.writeLE a n v).Within N := by
  induction n with
  | zero => intro m a v h _; exact h
  | succ n ih => intro m a v h ha; exact ih _ _ (within_write h (by omega) _) (by omega)

/-! ### Sequences of elements -/

/-- Storing a sequence changes no byte outside its elements. -/
theorem byte_putAll_outside (w : Nat) (vs : List Nat) : ∀ (m : Memory) (a : Nat) {b : Nat},
    (b < a ∨ a + w * vs.length ≤ b) → (Memory.putAll w m a vs).byte b = m.byte b := by
  induction vs with
  | nil => intro m a b _; rfl
  | cons v vs ih =>
    intro m a b h
    have : w * (vs.length + 1) = w * vs.length + w := by ring
    simp only [List.length_cons] at h
    rw [Memory.putAll, ih _ _ (by omega), byte_writeLE_outside _ _ _ _ (by omega)]

theorem wf_putAll (w : Nat) (vs : List Nat) : ∀ {m : Memory} (a : Nat), m.wf → (Memory.putAll w m a vs).wf := by
  induction vs with
  | nil => intro m a h; exact h
  | cons v vs ih => intro m a h; exact ih _ (wf_writeLE _ _ _ h)

theorem within_putAll {N : Nat} (w : Nat) (vs : List Nat) : ∀ {m : Memory} (a : Nat), m.Within N →
    a + w * vs.length ≤ N → (Memory.putAll w m a vs).Within N := by
  induction vs with
  | nil => intro m a h _; exact h
  | cons v vs ih =>
    intro m a h ha
    have : w * (vs.length + 1) = w * vs.length + w := by ring
    simp only [List.length_cons] at ha
    exact ih _ (within_writeLE _ _ _ h (by omega)) (by omega)

/-! ### Draws -/

theorem byte_drawAll_outside (n : Nat) : ∀ (m : Memory) (a k : Nat) {b : Nat}, (b < a ∨ a + n ≤ b) →
    (m.drawAll a k n).byte b = m.byte b := by
  induction n with
  | zero => intro m a k b _; rfl
  | succ n ih =>
    intro m a k b h
    rw [Memory.drawAll, ih _ _ _ (by omega), byte_write_other _ _ (by omega)]

theorem byte_drawAll_inside (n : Nat) : ∀ (m : Memory) (a k : Nat) {j : Nat}, j < n →
    (m.drawAll a k n).byte (a + j) = Config.abandonedByte (k + j) := by
  induction n with
  | zero => intro m a k j h; omega
  | succ n ih =>
    intro m a k j h
    rw [Memory.drawAll]
    cases j with
    | zero => rw [byte_drawAll_outside _ _ _ _ (by omega)]; simp
    | succ j =>
      have := ih (m.write a (Config.abandonedByte k)) (a + 1) (k + 1) (j := j) (by omega)
      rw [show a + (j + 1) = a + 1 + j by omega, this, show k + 1 + j = k + (j + 1) by omega]

theorem wf_drawAll (n : Nat) : ∀ {m : Memory} (a k : Nat), m.wf → (m.drawAll a k n).wf := by
  induction n with
  | zero => intro m a k h; exact h
  | succ n ih => intro m a k h; exact ih _ _ (wf_write h _ _)

theorem within_drawAll {N : Nat} (n : Nat) : ∀ {m : Memory} (a k : Nat), m.Within N → a + n ≤ N →
    (m.drawAll a k n).Within N := by
  induction n with
  | zero => intro m a k h _; exact h
  | succ n ih => intro m a k h ha; exact ih _ _ (within_write h (by omega) _) (by omega)

/-- The memory of the state after reset is in the canonical form. -/
theorem wf_reset : State.reset.mem.wf := by simp [State.reset, Memory.wf]

end Sys2Proof.Machine
end

