-- ==== Sys2Proof/Laws/Numeric.lean ====
section
/-! SUPPORT. The small laws of the numeric primitives: powers of two, the two roundings, RNE by cases, the clamp and the
16-bit patterns. -/

namespace Sys2Proof.Machine

/-! ### Powers of two -/

theorem pow2_pos (n : ℤ) : 0 < pow2 n := by unfold pow2; positivity

theorem pow2_ne_zero (n : ℤ) : pow2 n ≠ 0 := (pow2_pos n).ne'

theorem pow2_add (m n : ℤ) : pow2 (m + n) = pow2 m * pow2 n := zpow_add₀ (by norm_num) m n

theorem pow2_natCast (n : Nat) : pow2 n = 2 ^ n := zpow_natCast 2 n

theorem pow2_le_pow2_iff {m n : ℤ} : pow2 m ≤ pow2 n ↔ m ≤ n := zpow_le_zpow_iff_right₀ (by norm_num)

theorem pow2_lt_pow2_iff {m n : ℤ} : pow2 m < pow2 n ↔ m < n := zpow_lt_zpow_iff_right₀ (by norm_num)

/-- E = floor(log2 a): 2^E <= a (R18). -/
theorem pow2_log_le {a : ℚ} (h : 0 < a) : pow2 (Int.log 2 a) ≤ a := by
  simpa [pow2] using Int.zpow_log_le_self (b := 2) (by norm_num) h

/-- E = floor(log2 a): a < 2^(E+1) (R18). -/
theorem lt_pow2_log_succ (a : ℚ) : a < pow2 (Int.log 2 a + 1) := by
  simpa [pow2] using Int.lt_zpow_succ_log_self (b := 2) (by norm_num) a

/-! ### Rounding to an integer -/

/-- Rounding to nearest is off by at most a half (R18). -/
theorem roundTiesEven_err (q : ℚ) : |(roundTiesEven q : ℚ) - q| ≤ 1 / 2 := by
  have h0 := Int.floor_le q
  have h1 := Int.lt_floor_add_one q
  rw [abs_le]
  unfold roundTiesEven
  split
  · constructor <;> linarith
  · split
    · push_cast
      constructor <;> linarith
    · split
      · constructor <;> linarith
      · push_cast
        constructor <;> linarith

theorem roundTiesEven_nonneg {q : ℚ} (h : 0 ≤ q) : 0 ≤ roundTiesEven q := by
  have h0 : 0 ≤ ⌊q⌋ := Int.floor_nonneg.2 h
  unfold roundTiesEven
  split_ifs <;> omega

@[simp] theorem roundTiesEven_intCast (n : ℤ) : roundTiesEven n = n := by
  simp [roundTiesEven]

theorem rha_neg (r : ℚ) : rha (-r) = -rha r := by
  rcases lt_trichotomy r 0 with h | rfl | h
  · simp [rha, h, not_lt.2 h.le]
  · norm_num [rha]
  · simp [rha, h, not_lt.2 h.le]

/-! ### RNE -/

theorem roundUnit_pos (F : Fmt) (a : ℚ) : 0 < roundUnit F a := pow2_pos _

/-- The rounded magnitude is off by at most half a unit (R18). -/
theorem roundMag_err (F : Fmt) (a : ℚ) : |roundMag F a - a| ≤ roundUnit F a / 2 := by
  have hu := roundUnit_pos F a
  have h := roundTiesEven_err (a / roundUnit F a)
  have e : roundMag F a - a = (roundTiesEven (a / roundUnit F a) - a / roundUnit F a) * roundUnit F a := by
    rw [roundMag, sub_mul, div_mul_cancel₀ _ hu.ne']
  rw [e, abs_mul, abs_of_pos hu]
  calc _ ≤ 1 / 2 * roundUnit F a := mul_le_mul_of_nonneg_right h hu.le
    _ = roundUnit F a / 2 := by ring

theorem roundMag_nonneg (F : Fmt) {a : ℚ} (h : 0 ≤ a) : 0 ≤ roundMag F a :=
  mul_nonneg (by exact_mod_cast roundTiesEven_nonneg (div_nonneg h (roundUnit_pos F a).le)) (roundUnit_pos F a).le

@[simp] theorem rne_zero (F : Fmt) : rne F 0 = .fin 0 := by simp [rne]

/-- The two outcomes of RNE on a number other than 0 (R18). -/
theorem rne_cases (F : Fmt) {r : ℚ} (h : r ≠ 0) :
    (pow2 (emax F + 1) ≤ roundMag F |r| ∧ rne F r = .inf (decide (r < 0))) ∨
      (roundMag F |r| < pow2 (emax F + 1) ∧ rne F r = .fin (applySign (decide (r < 0)) (roundMag F |r|))) := by
  by_cases ho : pow2 (emax F + 1) ≤ roundMag F |r|
  · exact .inl ⟨ho, by simp [rne, h, ho]⟩
  · exact .inr ⟨not_le.1 ho, by simp [rne, h, ho]⟩

/-! ### The clamp and the stored pattern -/

/-- A clamped integer lies between its bounds (R21). -/
theorem clamp_mem {y lo hi : ℤ} (h : lo ≤ hi) : lo ≤ clamp y lo hi ∧ clamp y lo hi ≤ hi := by
  unfold clamp
  split_ifs <;> omega

theorem clamp_of_mem {y lo hi : ℤ} (h1 : lo ≤ y) (h2 : y ≤ hi) : clamp y lo hi = y := by
  simp [clamp, not_lt.2 h1, not_lt.2 h2]

theorem qMin_le_qMax (p : Params) : qMin p ≤ qMax := by
  unfold qMin qMax qBits
  split_ifs <;> norm_num

/-- Q1 stores an integer of QuantizedValue's range (R163). -/
theorem quantElem_mem (p : Params) (F : Fmt) (scale x : ℚ) :
    qMin p ≤ (quantElem p F scale x).1 ∧ (quantElem p F scale x).1 ≤ qMax := by
  unfold quantElem
  split
  · exact ⟨qMin_le_qMax p, le_rfl⟩
  · exact ⟨le_rfl, qMin_le_qMax p⟩
  · exact clamp_mem (qMin_le_qMax p)

theorem bits16_lt (y : ℤ) : bits16 y < 2 ^ 16 := (BitVec.ofInt 16 y).isLt

/-- The 16-bit pattern of an int16 reads back as it (R12). -/
theorem toInt_bits16 {y : ℤ} (h1 : -2 ^ 15 ≤ y) (h2 : y < 2 ^ 15) : (BitVec.ofNat 16 (bits16 y)).toInt = y := by
  rw [bits16, BitVec.ofNat_toNat, BitVec.setWidth_eq, BitVec.toInt_ofInt]
  exact Int.bmod_eq_of_le (by norm_num at *; omega) (by norm_num at *; omega)

end Sys2Proof.Machine
end

