-- ==== Sys2Proof/Laws/PerInstr.lean ====
section
/-! SUPPORT. Statements for every command, proved one constructor at a time. -/

namespace Sys2Proof.Laws.OpcodeField

/-- The encoding of a command holds its OP code in bits 3:0 and 0 in bits 31:13 (R80, R81, R85). -/
def Statement (i : Instr) : Prop :=
  (encode i).extractLsb' 0 4 = opcode i ∧ (encode i).extractLsb' 13 19 = 0

theorem toNat_commandWord (eb qt : Nat) (f : Bool) (op : BitVec 4) :
    (commandWord eb qt f op).toNat = eb % 32 * 256 + qt % 8 * 32 + f.toNat * 16 + op.toNat := by
  have h1 := op.isLt
  have h2 := Bool.toNat_le f
  simp only [commandWord, placeField, BitVec.toNat_ofNat]
  omega

theorem fields_of_commandWord (eb qt : Nat) (f : Bool) (op : BitVec 4) :
    (commandWord eb qt f op).extractLsb' 0 4 = op ∧ (commandWord eb qt f op).extractLsb' 13 19 = 0 := by
  have h1 := op.isLt
  have h2 := Bool.toNat_le f
  constructor <;>
  · apply BitVec.eq_of_toNat_eq
    simp only [BitVec.extractLsb'_toNat, toNat_commandWord, Nat.shiftRight_eq_div_pow, BitVec.ofNat_eq_ofNat,
      BitVec.toNat_ofNat]
    omega

theorem scan (f : Fmt) : Statement (.scan f) := fields_of_commandWord _ _ _ _

theorem initb (f : Fmt) (qt eb : Nat) : Statement (.initb f qt eb) := fields_of_commandWord _ _ _ _

theorem inits (f : Fmt) (qt eb : Nat) : Statement (.inits f qt eb) := fields_of_commandWord _ _ _ _

theorem quant : Statement .quant := fields_of_commandWord _ _ _ _

theorem dequant : Statement .dequant := fields_of_commandWord _ _ _ _

theorem release : Statement .release := fields_of_commandWord _ _ _ _

end Sys2Proof.Laws.OpcodeField
end

