-- ==== Sys2Proof/Tests/Slice0.lean ====
section
/-! SUPPORT. The model's own tests: ill-formed terms refused, words written out from the encoding, the spec's vectors one
step at a time (spec/95_test_vectors.md; the ids in the names and comments are its own), and for every statement with
hypotheses a concrete case that meets them. -/

namespace Sys2Proof.Tests

-- One theorem at a time: each waits for the kernel, and waiting threads would add up to the memory limit.
set_option Elab.async false

open Sys2Proof.Machine Sys2Proof.Claims

/-! ### Small states -/

/-- Bytes listed from an address on. -/
def bytesAt (a : Nat) (vs : List Nat) : Memory := vs.zipIdx.map (fun p => (a + p.2, BitVec.ofNat 8 p.1))

/-- An instance in binary32 with a Scale pattern. -/
def inst32 (scale : Word) (eb : BitVec 5) (degen : Bool) : Inst :=
  { valid := true, degen := degen, fmt := .f32, qtype := 0, eb := eb, scaleLo := scale, scaleHi := 0 }

/-- The reset state with an instance, memory, the operand registers and a bound. -/
def stateOf (i : Inst) (m : Memory) (src dst count bound : Word) : State :=
  { State.reset with inst := i, mem := m, srcAddr := src, dstAddr := dst, count := count, boundLo := bound }

/-- The source scenario's samples [-3.0, 1.0, 2.5] at address 0 (spec/95 §1.1). -/
def samples : Memory := bytesAt 0 [0x00, 0x00, 0x40, 0xC0, 0x00, 0x00, 0x80, 0x3F, 0x00, 0x00, 0x20, 0x40]

/-- The samples with COUNT = 3, DST_ADDR = 0x40, the instance of I1 and BOUND = 3.0. -/
def scenario : State := stateOf (inst32 0x45AAAAAB 1 false) samples 0 0x40 3 0x40400000

/-- A binary32 instance of Scale 32768 (B3) over [2.0] (QC1). -/
def saturating : State := stateOf (inst32 0x47000000 0 false) (bytesAt 0 [0, 0, 0, 0x40]) 0 0x40 1 0

/-- A degenerate instance over four zero bytes, which are one 0.0 and two 0s. -/
def zeros : State := stateOf (inst32 0x3F800000 0 true) (bytesAt 0 [0, 0, 0, 0]) 0 0x40 1 0

/-- [1.0, +Inf] with COUNT = 2 (S5). -/
def infinite : State := stateOf Inst.absent (bytesAt 0 [0, 0, 0x80, 0x3F, 0, 0, 0x80, 0x7F]) 0 0x40 2 0

/-- The state a step answers, if it answers one. -/
def after (o : Host.Outcome State Fault Refusal) : Option State :=
  match o with
  | .next t => some t
  | .fault _ => none
  | .refused _ => none

/-- The host's next access set. -/
def State.doing (x : HostAccess) (s : State) : State := { s with pending := [x] }

theorem next_of_after {o : Host.Outcome State Fault Refusal} (h : (after o).isSome = true) : ∃ t, o = .next t := by
  cases o with
  | next t => exact ⟨t, rfl⟩
  | fault r => cases r
  | refused r => simp [after] at h

theorem next_of_after_if {o : Host.Outcome State Fault Refusal} {P : State → Prop} [DecidablePred P]
    (h : (after o).any (fun t => decide (P t)) = true) : ∃ t, o = .next t ∧ P t := by
  cases o with
  | next t => exact ⟨t, rfl, by simpa [after] using h⟩
  | fault r => cases r
  | refused r => simp [after] at h

/-! ### Well-formedness refuses ill-formed terms -/

theorem test_wf_refuses_wide_qtype_initb : ¬ (Instr.initb .f32 8 0).WellFormed := by decide

theorem test_wf_refuses_wide_eb_initb : ¬ (Instr.initb .f32 0 32).WellFormed := by decide

theorem test_wf_refuses_wide_qtype_inits : ¬ (Instr.inits .f64 8 0).WellFormed := by decide

theorem test_wf_refuses_wide_eb_inits : ¬ (Instr.inits .f64 0 32).WellFormed := by decide

theorem test_wf_admits_the_widest_operands : (Instr.inits .f64 7 31).WellFormed := by decide

theorem test_interface_refuses_misaligned_read : ¬ (HostAccess.regRead 0x09).InInterface := by decide

theorem test_interface_refuses_misaligned_write : ¬ (HostAccess.regWrite 0x06 1).InInterface := by decide

theorem test_interface_refuses_narrow : ¬ (HostAccess.regNarrow 0x08 2).InInterface := by decide

theorem test_line_refuses_wide_eb : ¬ (Line.command (.initb .f32 0 32)).WellFormed := by decide

/-! ### Words written out from the encoding: RES(19) EB(5) QTYPE(3) FMT(1) OP(4), R80 -/

theorem test_decode_scan_word : decode 0b00000000000000000000000000010001 = .ok (.scan .f64) := by decide

theorem test_decode_initb_word : decode 0b00000000000000000000001000110010 = .ok (.initb .f64 1 2) := by decide

theorem test_decode_inits_word : decode 0b00000000000000000001111110100011 = .ok (.inits .f32 5 31) := by decide

theorem test_decode_quant_word : decode 0b00000000000000000000000000000100 = .ok .quant := by decide

theorem test_decode_dequant_word : decode 0b00000000000000000000000000000101 = .ok .dequant := by decide

theorem test_decode_release_word : decode 0b00000000000000000000000000000110 = .ok .release := by decide

theorem test_decode_refuses_reserved_bit_31 : decode 0x80000004 = .error .reservedBits := by decide

theorem test_decode_refuses_scan_with_eb : decode 0x00000101 = .error .unusedField := by decide

theorem test_decodeTableWord_initb : decodeTableWord 32 0x00001F02 = some (.initb .f32 0 31) := by decide

theorem test_withFetchWord_runs_the_word :
    step (State.reset.withFetchWord 32 0x00000006) = exec .release State.reset := by rfl

theorem test_caps_word : capsWord = 0x001F0103 := by decide

/-! ### The spec's vectors, one step each -/

/-- S1: SCAN of [-3.0, 1.0, 2.5] leaves 3.0. -/
theorem test_scan_S1 : (after (exec (.scan .f32) scenario)).map absmax = some 0x40400000 := by decide +kernel

/-- S5: +Inf at element 1 raises NONFINITE with index 1. -/
theorem test_scan_S5 :
    (after (exec (.scan .f32) infinite)).map (fun t => (statusWord t.inst t.err, t.errIndex)) = some (0x00030000, 1) := by
  decide +kernel

/-- B1: bound 3.0, E = 1. -/
theorem test_initb_B1 :
    (after (exec (.initb .f32 0 1) scenario)).map (fun t => (statusWord t.inst t.err, t.inst.scaleLo, absmax t))
      = some (0x00000041, 0x45AAAAAB, 0x40400000) := by
  decide +kernel

/-- B12: the boundary of SCALE_OVERFLOW, 2^-113, discards the instance. -/
theorem test_initb_B12 :
    (after (exec (.initb .f32 0 0) { scenario with boundLo := 0x07000000 })).map
      (fun t => (statusWord t.inst t.err, t.inst.scale)) = some (0x00060000, 0) := by
  decide +kernel

/-- I1: the source scenario. -/
theorem test_inits_I1 :
    (after (exec (.inits .f32 0 1) scenario)).map (fun t => (statusWord t.inst t.err, t.inst.scaleLo, absmax t))
      = some (0x00000041, 0x45AAAAAB, 0x40400000) := by
  decide +kernel

/-- PR2: UNSUPPORTED_TYPE comes before EMPTY. -/
theorem test_inits_PR2 : (after (exec (.inits .f32 1 0) State.reset)).map (fun t => errCode t.err) = some 1 := by decide

/-- P1: QUANT of the scenario writes [-16384, 5461, 13653], bytes 00 C0 55 15 55 35. -/
theorem test_quant_P1 :
    (after (exec .quant scenario)).map (fun t => (t.mem.readLE 0x40 6, t.satCnt)) = some (0x35551555C000, 0) := by
  decide +kernel

/-- Q-DR1: the product is rounded before the integer rounding, 14044 and not 14043 (R161). -/
theorem test_quant_QDR1 :
    (after (exec .quant (stateOf (inst32 0x44124925 3 false) (bytesAt 0 [0x3F, 0x00, 0xC0, 0x41]) 0 0x40 1 0))).map
      (fun t => qAt t.mem 0x40 0) = some 14044 := by
  decide +kernel

/-- P1: DEQUANT of [-16384, 5461, 13653] writes 0xC0400000, 0x3F7FFC00, 0x401FFF00. -/
theorem test_dequant_P1 :
    (after (exec .dequant
      { scenario with mem := bytesAt 0 [0x00, 0xC0, 0x55, 0x15, 0x55, 0x35], dstAddr := 0x80 })).map
      (fun t => t.mem.readLE 0x80 12) = some 0x401FFF003F7FFC00C0400000 := by
  decide +kernel

/-- P4: in place, the 2-byte input widened over itself; every input is read first (R69). -/
theorem test_dequant_in_place :
    (after (exec .dequant
      { zeros with mem := bytesAt 0 [0x01, 0x00, 0xFE, 0xFF, 0x03, 0x00, 0xFF, 0x7F], dstAddr := 0, count := 4 })).map
      (fun t => t.mem.readLE 0 16) = some 0x46FFFE0040400000C00000003F800000 := by
  decide +kernel

/-- RL1: RELEASE clears the instance. -/
theorem test_release_RL1 :
    (after (exec .release scenario)).map (fun t => (statusWord t.inst t.err, t.inst.scale)) = some (0, 0) := by decide

/-- B9 and B16: the smallest Scales. -/
theorem test_smallest_scales :
    encodeF .f32 (rne .f32 (32768 / maxFinite .f32)) = 0x07000001
      ∧ encodeF .f64 (rne .f64 (32768 / maxFinite .f64)) = 0x00E0000000000001 := by
  decide +kernel

/-- Q17: -32767.5 is stored as -32768 without saturation, and with SYM_SAT as -32767 with it. -/
theorem test_saturation_Q17 :
    roundClamp { memBytes := 256, symSat := false } (-65535 / 2) = (-32768, false)
      ∧ roundClamp { memBytes := 256, symSat := true } (-65535 / 2) = (-32767, true) := by
  decide +kernel

/-- R92: the bytes of `mwh 0x10, 0xABCD`. -/
theorem test_mwh_expands : expand (.mwh 0x10 0xABCD) = [.memWrite 0x10 0xCD, .memWrite 0x11 0xAB] := by decide

/-- H9: a write at MEM_BYTES is ignored. -/
theorem test_host_write_H9 : (hostMemWrite 0x100 0x55 scenario).mem = samples := by decide

/-! ### The hypotheses of the statements are met -/

theorem test_met_EncodeFInvertsDecodeF :
    decodeFinite .f32 0x00000001 = some (pow2 (-149)) ∧ (0x00000001 : Pattern).toNat < 2 ^ fWidth .f32
      ∧ pow2 (-149) ≠ 0 ∧ decodeFinite .f64 0x7FEFFFFFFFFFFFFF = some (maxFinite .f64) := by
  decide +kernel

/-- A tie: 2^-150 lies halfway between 0 and the smallest subnormal; and the overflow threshold itself overflows. -/
theorem test_met_RneRoundsToNearestEven :
    rne .f32 (pow2 (-150)) = .fin 0 ∧ decodeFinite .f32 0x00000001 = some (pow2 (-149))
      ∧ |pow2 (-150) - 0| = |pow2 (-150) - pow2 (-149)| ∧ pow2 (-149) ≠ 0
      ∧ rne .f32 (overflowThreshold .f32) = .inf false := by
  decide +kernel

theorem test_met_RhaRoundsHalfAwayFromZero :
    (0 : ℚ) < 1 / 2 ∧ (-1 / 2 : ℚ) < 0 ∧ |(rha (1 / 2) : ℚ) - 1 / 2| = 1 / 2 := by decide +kernel

theorem test_met_StatusHoldsItsFields :
    ∃ t, step (State.doing (.regWrite 0x04 6) scenario) = .next t
      ∧ readReg .status t ≠ readReg .status (State.doing (.regWrite 0x04 6) scenario) :=
  next_of_after_if (by decide +kernel)

theorem test_met_ErrIndexIsTheLowestNonFiniteElement :
    (∃ t, execCommand 0x00000001 infinite = .next t ∧ t.err = .nonFinite)
      ∧ ∃ t, execCommand 0x00000006 infinite = .next t ∧ t.err ≠ .nonFinite :=
  ⟨next_of_after_if (by decide +kernel), next_of_after_if (by decide +kernel)⟩

theorem test_met_BoundIsReadInTheCommandsFormat :
    (∃ t, exec (.initb .f32 0 1) scenario = .next t) ∧ ∃ t, execCommand 0x00000102 scenario = .next t :=
  ⟨next_of_after (by decide +kernel), next_of_after (by decide +kernel)⟩

theorem test_met_OnlyQuantWritesSatCnt :
    ∃ t, step (State.doing (.regWrite 0x04 4) saturating) = .next t ∧ t.satCnt ≠ saturating.satCnt :=
  next_of_after_if (by decide +kernel)

theorem test_met_OnlyConstructionAndReleaseWriteTheInstance :
    ∃ t, step (State.doing (.regWrite 0x04 2) infinite) = .next t ∧ t.inst ≠ infinite.inst ∧ t.inst.valid = true :=
  next_of_after_if (by decide +kernel)

theorem zeros_inv : zeros.Inv := by
  refine ⟨by decide, by decide, by decide, ?_, by decide⟩
  rw [Inst.Ok, if_pos (by decide)]
  exact ⟨⟨1, by decide +kernel, by decide +kernel, fun _ => rfl⟩, fun _ => by decide, by decide⟩

theorem test_met_EveryStepKeepsTheInvariant :
    zeros.Inv ∧ (State.doing (.regWrite 0x04 4) zeros).Inv
      ∧ ∃ t, step (State.doing (.regWrite 0x04 4) zeros) = .next t :=
  ⟨zeros_inv, zeros_inv, next_of_after (by decide +kernel)⟩

theorem test_met_MemWriteThenMemReadIsLittleEndian : (3 : Nat) < 4 ∧ samples.wf := by decide

theorem test_met_MemoryPortStopsAtMemBytes :
    scenario.params.memBytes ≤ (0x100 : Word).toNat
      ∧ (State.doing (.memRead 0x100) scenario).pending = .memRead 0x100 :: []
      ∧ (State.doing (.memWrite 0x100 1) scenario).pending = .memWrite 0x100 1 :: [] := by
  decide

theorem test_met_MemoryPortReadsTheLastWrite :
    (0xFF : Word).toNat < scenario.params.memBytes
      ∧ ({ scenario with pending := [.memWrite 0xFF 7, .memRead 0xFF, .memRead 0xFF, .memRead 0xFF] } : State).pending
        = .memWrite 0xFF 7 :: (List.replicate 3 (.memRead 0xFF) ++ []) := by
  decide

theorem test_met_OnlyTransformsAndThePortWriteMemory :
    (∃ t, step (State.doing (.memWrite 0xFF 7) scenario) = .next t ∧ t.mem ≠ scenario.mem)
      ∧ ∃ t, step (State.doing (.regWrite 0x04 5) zeros) = .next t ∧ t.mem ≠ zeros.mem :=
  ⟨next_of_after_if (by decide +kernel), next_of_after_if (by decide +kernel)⟩

theorem test_met_DecodeInvertsEncode :
    (Instr.initb .f64 7 31).WellFormed ∧ (Instr.inits .f32 0 0).WellFormed ∧ (Instr.scan .f64).WellFormed := by decide

theorem test_met_EncodeInvertsDecode : decode 0x00001FF3 = .ok (.inits .f64 7 31) := by decide

theorem test_met_MwwStoresItsWord :
    scenario.params.Legal ∧ (0xFC : Word).toNat + 4 ≤ scenario.params.memBytes
      ∧ ({ scenario with pending := expand (.mww 0xFC 1) ++ [] } : State).pending = expand (.mww 0xFC 1) ++ [] := by
  decide

theorem test_met_StepRunsTheDecodedCommand :
    (State.doing (.regWrite 0x04 0x00000212) scenario).pending = .regWrite 0x04 0x00000212 :: []
      ∧ decode 0x00000212 = .ok (.initb .f64 0 2) ∧ (Instr.initb .f64 0 2).WellFormed := by
  decide

theorem test_met_StepsFollowProgramOrder :
    (∃ t, step (State.doing (.memRead 0) scenario) = .next t) ∧ step scenario = .next scenario
      ∧ scenario.pending = [] :=
  ⟨next_of_after (by decide +kernel), rfl, rfl⟩

theorem test_met_RegisterReadReturnsTheTable :
    (State.doing (.regRead 0xFC) scenario).pending = .regRead 0xFC :: [] ∧ (0xFC : Byte).toNat % 4 = 0 := by decide

theorem test_met_RegisterWriteFollowsTheTable :
    (State.doing (.regWrite 0x24 9) scenario).pending = .regWrite 0x24 9 :: [] ∧ (0x24 : Byte).toNat % 4 = 0 := by
  decide

theorem test_met_PartialRegisterAccessesAreRefused :
    (0x01 : Byte).toNat % 4 ≠ 0 ∧ (State.doing (.regRead 0x01) scenario).pending = .regRead 0x01 :: []
      ∧ (State.doing (.regWrite 0x01 2) scenario).pending = .regWrite 0x01 2 :: []
      ∧ (State.doing (.regNarrow 0x08 1) scenario).pending = .regNarrow 0x08 1 :: [] := by
  decide

theorem test_met_InterfaceRunsAreSafe :
    ({ scenario with pending := [.regRead 0x08, .memRead 0, .reset, .regWrite 0x04 7] } : State).HostInInterface := by
  intro x hx
  simp only [List.mem_cons, List.not_mem_nil, or_false] at hx
  rcases hx with rfl | rfl | rfl | rfl <;> decide

theorem test_met_CommandsWriteOnlyTheirRegisters :
    (∃ t, exec .quant scenario = .next t) ∧ (construction .quant).isNone ∧ (∀ F, Instr.quant ≠ .scan F)
      ∧ (∃ t, exec (.scan .f32) scenario = .next t) ∧ Instr.scan .f32 ≠ .quant ∧ Instr.scan .f32 ≠ .dequant :=
  ⟨next_of_after (by decide +kernel), rfl, by simp, next_of_after (by decide +kernel), by decide, by decide⟩

/-- A failing scan and a failing construction. -/
theorem test_met_FailedCommandWritesOnlyItsError :
    decode 0x00000001 = .ok (.scan .f32) ∧ firstError 0x00000001 infinite = some (.nonFinite, 1)
      ∧ decode 0x00000103 = .ok (.inits .f32 0 1) ∧ firstError 0x00000103 State.reset = some (.empty, 0) := by
  decide +kernel

theorem test_met_IllegalWordWritesOnlyItsError :
    (State.doing (.regWrite 0x04 0x00002002) scenario).pending = .regWrite 0x04 0x00002002 :: []
      ∧ decode 0x00002002 = .error .reservedBits := by
  decide

theorem test_met_UnsupportedTypeFailsConstructionFirst :
    (1 : Nat) ≠ 0 ∧ ∃ t, exec (.initb .f32 0 1) scenario = .next t ∨ exec (.inits .f32 0 1) scenario = .next t :=
  ⟨by decide, (next_of_after (by decide +kernel)).imp fun _ h => .inl h⟩

theorem test_met_EmptyBufferFailsTheScan : State.reset.count = 0 := rfl

theorem scenario_elements : ∀ i < scenario.n, ∃ x, rawAt .f32 scenario.mem scenario.src i = some x ∧ |x| ≤ 3 := by
  intro i hi
  have hi' : i < 3 := hi
  interval_cases i
  · exact ⟨-3, by decide +kernel, by norm_num⟩
  · exact ⟨1, by decide +kernel, by norm_num⟩
  · exact ⟨5 / 2, by decide +kernel, by norm_num⟩

theorem scenario_absMax : IsAbsMax .f32 scenario 3 :=
  ⟨scenario_elements, 0, by decide, -3, by decide +kernel, by norm_num⟩

theorem scenario_finite : AllFinite .f32 scenario := fun i hi => (scenario_elements i hi).imp fun _ h => h.1

theorem scenario_source : BufOk scenario scenario.src (elemSize .f32) := .inr (by decide)

theorem test_met_ScanFindsTheTrueMaximum :
    scenario.n ≠ 0 ∧ BufOk scenario scenario.src (elemSize .f32) ∧ AllFinite .f32 scenario :=
  ⟨by decide, scenario_source, scenario_finite⟩

theorem test_met_ScanIsIndependentOfTheInstance : ∃ t, exec (.scan .f32) scenario = .next t :=
  next_of_after (by decide +kernel)

theorem maxFinite_representable : Representable .f32 (maxFinite .f32) := ⟨0x7F7FFFFF, by decide +kernel⟩

/-- The two sides of R139 at E = 1: MAX_F is above MAX_F / 2, and 3 is not. -/
theorem test_met_RangeOverflowExactlyAboveTheLargestRange :
    Representable .f32 (maxFinite .f32) ∧ (0 : ℚ) ≤ maxFinite .f32 ∧ maxFinite .f32 / 2 ^ 1 < maxFinite .f32
      ∧ Representable .f32 3 ∧ ¬ maxFinite .f32 / 2 ^ 1 < 3 :=
  ⟨maxFinite_representable, by decide +kernel, by decide +kernel, ⟨0x40400000, by decide +kernel⟩, by decide +kernel⟩

/-- The boundary of R143, 2^-113, and a subnormal. -/
theorem test_met_ScaleOverflowExactlyAtTinyRanges :
    Representable .f32 (pow2 (-113)) ∧ 0 ≤ pow2 (-113)
      ∧ 0 < pow2 (-113) * 2 ^ 0 ∧ pow2 (-113) * 2 ^ 0 ≤ maxFinite .f32
      ∧ decodeFinite .f32 0x00000001 = some (pow2 (-149)) ∧ expField .f32 0x00000001 = 0 ∧ 0 < pow2 (-149) :=
  ⟨⟨0x07000000, by decide +kernel⟩, by decide +kernel, by decide +kernel, by decide +kernel, by decide +kernel,
    by decide +kernel, by decide +kernel⟩

theorem test_met_StoredScalesAreNormal :
    Representable .f32 (maxFinite .f32) ∧ (0 : ℚ) ≤ maxFinite .f32
      ∧ computeScale .f32 (maxFinite .f32) 0 = .ok (minScale .f32, false)
      ∧ computeScale .f32 0 31 = .ok (1, true) :=
  ⟨maxFinite_representable, by decide +kernel, computeScale_ok_iff.2 (by decide +kernel),
    computeScale_ok_iff.2 (by decide +kernel)⟩

theorem test_met_InitBoundBuildsTheInstance :
    (1 : Nat) < 32 ∧ decodeFinite .f32 (boundPattern .f32 scenario) = some 3 ∧ (0 : ℚ) < 3
      ∧ (3 : ℚ) * 2 ^ 1 ≤ maxFinite .f32
      ∧ rne .f32 (32768 / (3 * 2 ^ 1)) = .fin ((decodeFinite .f32 0x45AAAAAB).getD 0) := by
  decide +kernel

theorem test_met_InitSamplesBuildsTheInstance :
    (1 : Nat) < 32 ∧ scenario.n ≠ 0 ∧ BufOk scenario scenario.src (elemSize .f32) ∧ IsAbsMax .f32 scenario 3
      ∧ (0 : ℚ) < 3 ∧ (3 : ℚ) * 2 ^ 1 ≤ maxFinite .f32
      ∧ rne .f32 (32768 / (3 * 2 ^ 1)) = .fin ((decodeFinite .f32 0x45AAAAAB).getD 0) :=
  ⟨by decide, by decide, scenario_source, scenario_absMax, by norm_num, by decide +kernel, by decide +kernel⟩

/-- A bound of -0 (B8) and a buffer of one 0.0. -/
theorem test_met_ZeroRangeBuildsADegenerateInstance :
    decodeFinite .f32 (boundPattern .f32 { zeros with boundLo := 0x80000000 }) = some 0
      ∧ zeros.n ≠ 0 ∧ BufOk zeros zeros.src (elemSize .f32)
      ∧ (∀ i < zeros.n, rawAt .f32 zeros.mem zeros.src i = some 0) ∧ computeScale .f32 0 0 = .ok (1, true) :=
  ⟨by decide +kernel, by decide, .inr (by decide), by decide +kernel, computeScale_ok_iff.2 (by decide +kernel)⟩

/-- NaN (B30), +Inf (B29), -1.0 (B28) and -0 (B8). -/
theorem test_met_BadBoundIsRejected :
    decodeF .f32 (boundPattern .f32 { zeros with boundLo := 0x7FC00000 }) = none
      ∧ decodeF .f32 (boundPattern .f32 { zeros with boundLo := 0x7F800000 }) = some (.inf false)
      ∧ decodeF .f32 (boundPattern .f32 { zeros with boundLo := 0xBF800000 }) = some (.fin (-1))
      ∧ decodeF .f32 (boundPattern .f32 { zeros with boundLo := 0x80000000 }) = some (.fin 0) := by
  decide +kernel

theorem test_met_BoundAndSamplesBuildTheSameInstance :
    (0 : ℚ) ≤ 3 ∧ decodeFinite .f32 (boundPattern .f32 scenario) = some 3 ∧ scenario.n ≠ 0
      ∧ BufOk scenario scenario.src (elemSize .f32) ∧ IsAbsMax .f32 scenario 3 :=
  ⟨by norm_num, by decide +kernel, by decide, scenario_source, scenario_absMax⟩

theorem test_met_TransformsNeedAnInstance :
    infinite.inst.valid = false ∧ ∃ t, exec .release scenario = .next t := ⟨rfl, _, rfl⟩

theorem test_met_ProductOverflowSaturates :
    overflowThreshold .f32 ≤ maxFinite .f32 * 32768 ∧ overflowThreshold .f32 ≤ -(-maxFinite .f32 * 32768) := by
  decide +kernel

/-- A product with a Scale other than 1.0 (Q-DR1), and the thresholds themselves. -/
theorem test_met_SaturationThresholds :
    rne .f32 (3 * 2) = .fin 6
      ∧ (decodeFinite .f32 0x44124925).isSome = true ∧ (decodeFinite .f32 0x41C0003F).isSome = true
      ∧ (-65537 / 2 : ℚ) < -65535 / 2 ∧ (-65535 / 2 : ℚ) ≤ -65535 / 2
      ∧ ({ memBytes := 8, symSat := true } : Params).symSat = true
      ∧ ({ memBytes := 8, symSat := false } : Params).symSat = false := by
  decide +kernel

theorem test_met_QuantStoresEveryElement :
    scenario.inst.valid = true ∧ BufOk scenario scenario.src (elemSize scenario.inst.fmt)
      ∧ BufOk scenario scenario.dst 2 ∧ AllFinite scenario.inst.fmt scenario :=
  ⟨rfl, scenario_source, .inr (by decide), scenario_finite⟩

/-- E = 1 and E = 0 with the bound 3.0 (B1, B26). -/
theorem test_met_NoClampInsideTheMargin :
    Representable .f32 3 ∧ (0 : ℚ) ≤ 3
      ∧ computeScale .f32 3 1 = .ok ((decodeFinite .f32 0x45AAAAAB).getD 0, false) ∧ |(-3 : ℚ)| ≤ 3
      ∧ computeScale .f32 3 0 = .ok ((decodeFinite .f32 0x462AAAAB).getD 0, false) :=
  ⟨⟨0x40400000, by decide +kernel⟩, by norm_num, computeScale_ok_iff.2 (by decide +kernel), by norm_num,
    computeScale_ok_iff.2 (by decide +kernel)⟩

theorem test_met_DegenerateInstanceRoundsTheInput :
    Representable .f32 3 ∧ zeros.Inv ∧ zeros.inst.degen = true
      ∧ (∀ k < zeros.n, rawAt zeros.inst.fmt zeros.mem zeros.src k = some 0)
      ∧ (∃ t, exec .quant zeros = .next t ∧ t.err = .none) ∧ (∀ k < zeros.n, qAt zeros.mem zeros.src k = 0)
      ∧ ∃ t, exec .dequant zeros = .next t ∧ t.err = .none :=
  ⟨⟨0x40400000, by decide +kernel⟩, zeros_inv, rfl, by decide +kernel, next_of_after_if (by decide +kernel),
    by decide +kernel, next_of_after_if (by decide +kernel)⟩

theorem test_met_DequantNeverOverflows :
    zeros.Inv ∧ zeros.inst.valid = true ∧ (-32768 : ℤ) ≤ -32768 ∧ (-32768 : ℤ) ≤ 32767 ∧ zeros.inst.degen = true :=
  ⟨zeros_inv, rfl, by decide, by decide, rfl⟩

theorem test_met_DequantStoresEveryElement :
    scenario.inst.valid = true ∧ BufOk scenario scenario.src 2
      ∧ BufOk scenario scenario.dst (elemSize scenario.inst.fmt) :=
  ⟨rfl, .inr (by decide), .inr (by decide)⟩

/-- The largest power of two as Scale (B13), whose quotients are subnormal. -/
theorem test_met_RoundTripIsWithinHalfAStep_subnormal :
    0 < pow2 127 ∧ quantElem { memBytes := 256, symSat := false } .f32 (pow2 127) (pow2 (-127)) = (1, false)
      ∧ dequantElem .f32 (pow2 127) 1 = .fin (pow2 (-127)) := by
  decide +kernel

/-- RT2 with the source scenario's Scale. -/
theorem test_met_RoundTripIsWithinHalfAStep :
    0 < (decodeFinite .f32 0x45AAAAAB).getD 0 ∧ (decodeFinite .f32 0x45AAAAAB).getD 0 * (2 : ℚ) ^ emin .f32 ≤ 1
      ∧ quantElem { memBytes := 256, symSat := false } .f32 ((decodeFinite .f32 0x45AAAAAB).getD 0)
          ((decodeFinite .f32 0x3FCC68FF).getD 0) = (8722, false)
      ∧ dequantElem .f32 ((decodeFinite .f32 0x45AAAAAB).getD 0) 8722
          = .fin ((decodeFinite .f32 0x3FCC6C00).getD 0) := by
  decide +kernel

/-- The same instance and input with another destination, for each of the two transforms. -/
theorem test_met_TransformsArePureFunctionsOfTheirInput :
    scenario.inst = ({ scenario with dstAddr := 0x80 } : State).inst
      ∧ (∃ t, exec .quant scenario = .next t ∧ t.err = .none)
      ∧ (∃ t, exec .quant { scenario with dstAddr := 0x80 } = .next t ∧ t.err = .none)
      ∧ (∃ t, exec .dequant scenario = .next t ∧ t.err = .none)
      ∧ ∃ t, exec .dequant { scenario with dstAddr := 0x80 } = .next t ∧ t.err = .none :=
  ⟨rfl, next_of_after_if (by decide +kernel), next_of_after_if (by decide +kernel),
    next_of_after_if (by decide +kernel), next_of_after_if (by decide +kernel)⟩

theorem test_met_ReleaseDiscardsTheInstance : ∃ t, exec .release scenario = .next t := ⟨_, rfl⟩

theorem test_met_ResetSetsEveryRegister : (State.doing .reset scenario).pending = .reset :: [] := rfl

/-- A QUANT, a DEQUANT and a RELEASE abandoned by a reset. -/
theorem test_met_ResetDuringACommandDrawsItsDestination :
    (State.doing (.resetDuring 4) scenario).pending = .resetDuring 4 :: []
      ∧ (State.doing (.resetDuring 5) scenario).pending = .resetDuring 5 :: []
      ∧ (State.doing (.resetDuring 6) scenario).pending = .resetDuring 6 :: [] := ⟨rfl, rfl, rfl⟩

end Sys2Proof.Tests
end

section
/-! # Buffer memory: `MemWrite` read back byte by byte (R13, R64)

The frame of a write and the canonical form are laws of the model's own layer; what is added here is what the written
bytes themselves hold. -/

namespace Sys2Proof.Machine

/-- Byte `j` of a little-endian store holds bits 8j+7:8j of the number (R13). -/
theorem toNat_byte_writeLE_inside (n : Nat) : ∀ (m : Memory) (a v : Nat) {j : Nat}, j < n →
    ((m.writeLE a n v).byte (a + j)).toNat = v / 256 ^ j % 256 := by
  induction n with
  | zero => intro m a v j h; omega
  | succ n ih =>
    intro m a v j h
    rw [Memory.writeLE]
    cases j with
    | zero =>
      rw [byte_writeLE_outside _ _ _ _ (by omega)]
      simp
    | succ j =>
      have hrest := ih (m.write a (BitVec.ofNat 8 v)) (a + 1) (v / 256) (j := j) (by omega)
      rw [show a + (j + 1) = a + 1 + j by omega, hrest, Nat.div_div_eq_div_mul, ← pow_succ']

/-- `MemRead` of the bytes `MemWrite` stored is the low 8n bits of the number (R64). -/
theorem readLE_writeLE (n : Nat) : ∀ (m : Memory) (a v : Nat), (m.writeLE a n v).readLE a n = v % 256 ^ n := by
  induction n with
  | zero => intro m a v; simp [Memory.readLE, Nat.mod_one]
  | succ n ih =>
    intro m a v
    have hlow := toNat_byte_writeLE_inside (n + 1) m a v (j := 0) (by omega)
    rw [pow_zero, Nat.div_one, add_zero] at hlow
    rw [Memory.readLE, hlow, Memory.writeLE, ih, pow_succ', Nat.mod_mul]

/-- Settles O12: the two read-back lemmas, with the model's own frame and canonical-form laws. -/
theorem memWriteThenMemReadIsLittleEndian : Obligations.MemWriteThenMemReadIsLittleEndian := by
  intro m a n v
  exact ⟨readLE_writeLE n m a v, fun _ hj => toNat_byte_writeLE_inside n m a v hj,
    fun _ hb => byte_writeLE_outside n m a v hb, wf_writeLE n a v⟩

end Sys2Proof.Machine
end

section
/-! # The host's side of a step (R25, R73, R91)

What a command or an access leaves of the host's own fields. A command touches none of them; an access may add one
observation; the step itself takes the access off the list. -/

namespace Sys2Proof.Machine

/-- Two states agree on the host's accesses still to make, its observations and the parameters. -/
structure SameHostSide (s t : State) : Prop where
  pending : t.pending = s.pending
  observed : t.observed = s.observed
  params : t.params = s.params

/-- The results of a command leave the host's side alone (R110). -/
theorem sameHostSide_of_resultsOf {i : Instr} {s t : State} (h : resultsOf s i = .ok t) : SameHostSide s t := by
  cases i with
  | scan F =>
    obtain ⟨-, -, xs, -, rfl⟩ := doScan_ok_iff.1 h
    constructor <;> simp
  | initb F qt eb =>
    obtain ⟨-, b, scale, degen, -, -, rfl⟩ := doInitB_ok_iff.1 h
    constructor <;> simp [install]
  | inits F qt eb =>
    obtain ⟨-, -, -, xs, scale, degen, -, -, rfl⟩ := doInitS_ok_iff.1 h
    constructor <;> simp [install]
  | quant =>
    obtain ⟨-, -, -, xs, -, rfl⟩ := doQuant_ok_iff.1 h
    constructor <;> simp
  | dequant =>
    obtain ⟨-, -, -, rfl⟩ := doDequant_ok_iff.1 h
    constructor <;> simp
  | release =>
    obtain rfl : s.setInst Inst.absent = t := Except.ok.inj h
    constructor <;> simp

/-- A command, whether it commits or raises its error, leaves the host's side alone (R110, R112). -/
theorem sameHostSide_of_exec {i : Instr} {s t : State} (h : exec i s = .next t) : SameHostSide s t := by
  rw [exec_eq_finish] at h
  obtain ⟨r, hr, hf⟩ | ⟨e, -, hf⟩ := finish_eq (buildsInst i) s (resultsOf s i)
  · obtain rfl := Host.Outcome.next.inj (hf.symm.trans h)
    obtain ⟨hpending, hobserved, hparams⟩ := sameHostSide_of_resultsOf hr
    constructor <;> simp [*]
  · obtain rfl := Host.Outcome.next.inj (hf.symm.trans h)
    constructor <;> simp

/-- A write to CMD, of any word, leaves the host's side alone (R104, R113). -/
theorem sameHostSide_of_execCommand {w : Word} {s t : State} (h : execCommand w s = .next t) : SameHostSide s t := by
  unfold execCommand at h
  split at h
  · exact sameHostSide_of_exec h
  · obtain rfl := Host.Outcome.next.inj h
    constructor <;> simp

/-- A register write leaves the host's side alone, at every offset (R103). -/
theorem sameHostSide_of_regWrite {off : Byte} {v : Word} {s t : State} (h : regWrite off v s = .next t) :
    SameHostSide s t := by
  unfold regWrite at h
  split at h
  next r _ =>
    cases r with
    | cmd => exact sameHostSide_of_execCommand h
    | _ =>
      obtain rfl := Host.Outcome.next.inj h
      constructor <;> rfl
  next =>
    obtain rfl := Host.Outcome.next.inj h
    constructor <;> rfl

theorem sameHostSide_hostMemWrite (a : Word) (v : Byte) (s : State) : SameHostSide s (hostMemWrite a v s) := by
  unfold hostMemWrite
  split <;> constructor <;> simp

/-- What one access of the host keeps: the accesses after it and the parameters stay, and it records at most one
observation (R91). -/
structure AccessFrame (s t : State) : Prop where
  pending : t.pending = s.pending
  params : t.params = s.params
  observed : t.observed = s.observed ∨ ∃ o, t.observed = o :: s.observed

theorem SameHostSide.accessFrame {s t : State} (h : SameHostSide s t) : AccessFrame s t :=
  ⟨h.pending, h.params, .inl h.observed⟩

theorem accessFrame_observe (o : Observation) (s : State) : AccessFrame s (s.observe o) := ⟨rfl, rfl, .inr ⟨o, rfl⟩⟩

/-- Only the two reads record an observation; every other access leaves the whole host's side alone. -/
theorem accessFrame_of_hostAccess {x : HostAccess} {s t : State} (h : hostAccess x s = .next t) : AccessFrame s t := by
  cases x with
  | regRead off =>
    simp only [hostAccess] at h
    split at h
    · obtain rfl := Host.Outcome.next.inj h
      exact accessFrame_observe _ s
    · cases h
  | regWrite off v =>
    simp only [hostAccess] at h
    split at h
    · exact (sameHostSide_of_regWrite h).accessFrame
    · cases h
  | regNarrow off bytes => cases h
  | memRead a =>
    obtain rfl := Host.Outcome.next.inj h
    exact accessFrame_observe _ s
  | memWrite a v =>
    obtain rfl := Host.Outcome.next.inj h
    exact (sameHostSide_hostMemWrite a v s).accessFrame
  | reset =>
    obtain rfl := Host.Outcome.next.inj h
    exact ⟨rfl, rfl, .inl rfl⟩
  | resetDuring w =>
    obtain rfl := Host.Outcome.next.inj h
    exact ⟨rfl, rfl, .inl rfl⟩

/-- Settles O23: a step either waits, or runs the next access at the state that no longer lists it. -/
theorem stepsFollowProgramOrder : Obligations.StepsFollowProgramOrder := by
  intro s t h
  obtain ⟨hnone, hstep⟩ | ⟨x, rest, hsome, hstep⟩ := step_cases s
  · obtain rfl := Host.Outcome.next.inj (hstep.symm.trans h)
    exact ⟨by simp [hnone], rfl, fun _ => rfl, .inl rfl⟩
  · obtain ⟨hpending, hparams, hobserved⟩ := accessFrame_of_hostAccess (hstep.symm.trans h)
    exact ⟨by simp [hpending, hsome], hparams, fun hnil => absurd (hsome.symm.trans hnil) (by simp), hobserved⟩

end Sys2Proof.Machine
end

section
/-! # Rounding to an integer, half away from zero (R20) -/

namespace Sys2Proof.Machine

theorem rha_of_nonneg {r : ℚ} (h : 0 ≤ r) : rha r = ⌊r + 1 / 2⌋ := by
  rw [rha, if_neg (not_lt.2 h), abs_of_nonneg h]

theorem rha_of_neg {r : ℚ} (h : r < 0) : rha r = -⌊|r| + 1 / 2⌋ := by
  rw [rha, if_pos h]

/-- From 0 up, `rha r` lies in the half-open interval from r - 1/2 (excluded) to r + 1/2: a tie goes up. -/
theorem rha_bounds_of_nonneg {r : ℚ} (h : 0 ≤ r) : r - 1 / 2 < rha r ∧ (rha r : ℚ) ≤ r + 1 / 2 := by
  have hle := Int.floor_le (r + 1 / 2)
  have hlt := Int.lt_floor_add_one (r + 1 / 2)
  rw [rha_of_nonneg h]
  constructor <;> linarith

/-- What the sign-symmetric part of R20 says of one number: within a half, and farther from 0 on a tie. -/
def RoundsHalfAway (r : ℚ) : Prop :=
  |(rha r : ℚ) - r| ≤ 1 / 2 ∧ (|(rha r : ℚ) - r| = 1 / 2 → |r| < |(rha r : ℚ)|)

theorem roundsHalfAway_of_nonneg {r : ℚ} (h : 0 ≤ r) : RoundsHalfAway r := by
  obtain ⟨hlo, hhi⟩ := rha_bounds_of_nonneg h
  refine ⟨abs_le.2 ⟨by linarith, by linarith⟩, fun htie => ?_⟩
  have hup : (rha r : ℚ) - r = 1 / 2 := by
    obtain h' | h' := (abs_eq (by norm_num)).1 htie
    · exact h'
    · linarith
  rw [abs_of_nonneg h, abs_of_nonneg (by linarith)]
  linarith

theorem roundsHalfAway_neg {r : ℚ} (h : RoundsHalfAway r) : RoundsHalfAway (-r) := by
  unfold RoundsHalfAway at *
  rw [rha_neg, Int.cast_neg, neg_sub_neg, abs_sub_comm, abs_neg, abs_neg]
  exact h

theorem roundsHalfAway (r : ℚ) : RoundsHalfAway r := by
  obtain h | h := le_total 0 r
  · exact roundsHalfAway_of_nonneg h
  · simpa using roundsHalfAway_neg (roundsHalfAway_of_nonneg (neg_nonneg.2 h))

/-- Settles O3: the formula by sign, and nearest with ties away from 0 by the symmetry `rha (-r) = -rha r`. -/
theorem rhaRoundsHalfAwayFromZero : Obligations.RhaRoundsHalfAwayFromZero := by
  refine ⟨fun r => ⟨fun h => ?_, rha_of_neg, (roundsHalfAway r).1, (roundsHalfAway r).2⟩, ?_⟩
  · rw [rha_of_nonneg h.le, abs_of_pos h]
  · decide +kernel

end Sys2Proof.Machine
end

section
/-! # Floating-point formats: significand and shift (R15 to R17)

Every finite value of a format is, up to its sign, `n * 2^j` smallest subnormals, with `n` below `2^p`, and with the
hidden bit set in `n` unless `j` is 0. In these terms the exponent and fraction bits are the single number
`j * 2^(p-1) + n`, for subnormals and normals alike; decoding, encoding and rounding are related through this form. -/

namespace Sys2Proof.Machine

/-- The smallest subnormal, 2^(emin-p+1): every finite value of the format is a multiple of it (R16). -/
def ulpMin (F : Fmt) : ℚ := pow2 (emin F - fPrec F + 1)

/-- The shift of the largest binade, emax - emin. -/
def maxShift (F : Fmt) : Nat := 2 ^ fExpWidth F - 3

/-- The magnitude of significand `n` at shift `j`. -/
def floatMag (F : Fmt) (n j : Nat) : ℚ := ((n * 2 ^ j : Nat) : ℚ) * ulpMin F

/-- The exponent and fraction bits of significand `n` at shift `j` (R15): a hidden bit in `n` carries into the
exponent. -/
def magBits (F : Fmt) (n j : Nat) : Nat := j * 2 ^ (fPrec F - 1) + n

/-- The significand and shift the format uses for a finite magnitude: p bits, the hidden bit set but in the lowest
binade. -/
structure IsCanonical (F : Fmt) (n j : Nat) : Prop where
  sig_lt : n < 2 ^ fPrec F
  hidden : j ≠ 0 → 2 ^ (fPrec F - 1) ≤ n
  shift_le : j ≤ maxShift F

theorem IsCanonical.shift_eq_zero {F : Fmt} {n j : Nat} (h : IsCanonical F n j) (hn : n < 2 ^ (fPrec F - 1)) :
    j = 0 := by
  by_contra hj
  exact absurd (h.hidden hj) (not_le.2 hn)

/-! ### The parameters of the two formats -/

theorem two_pow_fPrec (F : Fmt) : 2 ^ fPrec F = 2 * 2 ^ (fPrec F - 1) := by cases F <;> norm_num [fPrec]

theorem cast_two_pow_fPrec (F : Fmt) : (2 : ℚ) ^ fPrec F = 2 * 2 ^ (fPrec F - 1) := by
  exact_mod_cast two_pow_fPrec F

theorem even_two_pow_fPrec (F : Fmt) : Even (2 ^ fPrec F) := two_pow_fPrec F ▸ even_two_mul _

theorem even_two_pow_fPrec_sub_one (F : Fmt) : Even (2 ^ (fPrec F - 1)) := by
  cases F <;> exact Nat.even_pow.2 ⟨even_two, by decide⟩

theorem fWidth_sub_one (F : Fmt) : fWidth F - 1 = fPrec F - 1 + fExpWidth F := by cases F <;> rfl

theorem maxShift_add_three (F : Fmt) : maxShift F + 3 = 2 ^ fExpWidth F := by cases F <;> rfl

theorem emax_eq (F : Fmt) : emax F = emin F + maxShift F := by cases F <;> rfl

theorem emin_add_emax (F : Fmt) : emin F + emax F = 1 := by cases F <;> rfl

theorem ulpMin_pos (F : Fmt) : 0 < ulpMin F := pow2_pos _

theorem two_pow_mul_ulpMin_pos (F : Fmt) (j : Nat) : 0 < 2 ^ j * ulpMin F := mul_pos (by positivity) (ulpMin_pos F)

theorem pow2_add_natCast (z : ℤ) (j : Nat) : pow2 (z + j) = 2 ^ j * pow2 z := by
  rw [pow2_add, pow2_natCast, mul_comm]

/-- The unit of shift `j`, as a power of two. -/
theorem two_pow_mul_ulpMin (F : Fmt) (j : Nat) : 2 ^ j * ulpMin F = pow2 (emin F + j - fPrec F + 1) := by
  rw [ulpMin, ← pow2_add_natCast]
  congr 1
  ring

/-- A whole binade at shift `j`: 2^(p-1) units are 2^(emin+j). -/
theorem pow2_emin_add (F : Fmt) (j : Nat) : pow2 (emin F + j) = 2 ^ (fPrec F - 1) * (2 ^ j * ulpMin F) := by
  rw [two_pow_mul_ulpMin, ← pow2_natCast, ← pow2_add]
  congr 1
  cases F <;> simp only [fPrec] <;> ring

/-- One binade up: 2^p units are 2^(emin+j+1). -/
theorem pow2_emin_add_succ (F : Fmt) (j : Nat) : pow2 (emin F + j + 1) = 2 ^ fPrec F * (2 ^ j * ulpMin F) := by
  rw [two_pow_mul_ulpMin, ← pow2_natCast, ← pow2_add]
  congr 1
  ring

theorem floatMag_eq (F : Fmt) (n j : Nat) : floatMag F n j = n * (2 ^ j * ulpMin F) := by
  rw [floatMag]
  push_cast
  ring

theorem floatMag_nonneg (F : Fmt) (n j : Nat) : 0 ≤ floatMag F n j :=
  mul_nonneg (Nat.cast_nonneg _) (ulpMin_pos F).le

@[simp] theorem floatMag_zero (F : Fmt) (j : Nat) : floatMag F 0 j = 0 := by simp [floatMag]

theorem floatMag_eq_zero_iff {F : Fmt} {n j : Nat} : floatMag F n j = 0 ↔ n = 0 := by
  simp [floatMag, (ulpMin_pos F).ne']

/-- A magnitude with its hidden bit set is at least its binade's lower end. -/
theorem pow2_le_floatMag {F : Fmt} {n : Nat} (j : Nat) (h : 2 ^ (fPrec F - 1) ≤ n) :
    pow2 (emin F + j) ≤ floatMag F n j := by
  rw [floatMag_eq, pow2_emin_add]
  exact mul_le_mul_of_nonneg_right (by exact_mod_cast h) (two_pow_mul_ulpMin_pos F j).le

/-- A magnitude of p bits is below its binade's upper end. -/
theorem floatMag_lt_pow2 {F : Fmt} {n : Nat} (j : Nat) (h : n < 2 ^ fPrec F) :
    floatMag F n j < pow2 (emin F + j + 1) := by
  rw [floatMag_eq, pow2_emin_add_succ]
  exact mul_lt_mul_of_pos_right (by exact_mod_cast h) (two_pow_mul_ulpMin_pos F j)

theorem abs_applySign (neg : Bool) (a : ℚ) : |applySign neg a| = |a| := by cases neg <;> simp [applySign]

/-! ### The fields of a pattern -/

/-- The exponent and fraction bits of a pattern, b[W-2:0] (R15). -/
def magField (F : Fmt) (b : Pattern) : Nat := b.toNat % 2 ^ (fWidth F - 1)

theorem expField_eq (F : Fmt) (b : Pattern) : expField F b = magField F b / 2 ^ (fPrec F - 1) := by
  rw [expField, magField, fWidth_sub_one, pow_add, Nat.mod_mul_right_div_self]

theorem fracField_eq (F : Fmt) (b : Pattern) : fracField F b = magField F b % 2 ^ (fPrec F - 1) := by
  rw [fracField, magField, fWidth_sub_one, pow_add, Nat.mod_mul_right_mod]

theorem signField_eq (F : Fmt) (b : Pattern) : signField F b = decide (b.toNat / 2 ^ (fWidth F - 1) % 2 = 1) := by
  rw [signField, ← BitVec.testBit_toNat, Nat.testBit_eq_decide_div_mod_eq]

theorem magField_lt (F : Fmt) (b : Pattern) : magField F b < 2 ^ (fWidth F - 1) := Nat.mod_lt _ (by positivity)

/-- The exponent field of canonical bits is 0 for a subnormal and one more than the shift for a normal number. -/
theorem magBits_div_mod {F : Fmt} {n j : Nat} (h : IsCanonical F n j) :
    (n < 2 ^ (fPrec F - 1) ∧ j = 0 ∧ magBits F n j / 2 ^ (fPrec F - 1) = 0 ∧ magBits F n j % 2 ^ (fPrec F - 1) = n) ∨
      (2 ^ (fPrec F - 1) ≤ n ∧ magBits F n j / 2 ^ (fPrec F - 1) = j + 1 ∧
        2 ^ (fPrec F - 1) + magBits F n j % 2 ^ (fPrec F - 1) = n) := by
  have hsig := h.sig_lt
  rw [two_pow_fPrec] at hsig
  by_cases hn : n < 2 ^ (fPrec F - 1)
  · obtain rfl := h.shift_eq_zero hn
    exact .inl ⟨hn, rfl, by simp [magBits, Nat.div_eq_of_lt hn], by simp [magBits, Nat.mod_eq_of_lt hn]⟩
  · obtain ⟨f, rfl⟩ := Nat.exists_eq_add_of_le (not_lt.1 hn)
    have hf : f < 2 ^ (fPrec F - 1) := by omega
    have hbits : magBits F (2 ^ (fPrec F - 1) + f) j = f + 2 ^ (fPrec F - 1) * (j + 1) := by
      rw [magBits]
      ring
    refine .inr ⟨by omega, ?_, ?_⟩
    · rw [hbits, Nat.add_mul_div_left _ _ (by positivity), Nat.div_eq_of_lt hf]
      omega
    · rw [hbits, Nat.add_mul_mod_self_left, Nat.mod_eq_of_lt hf]

theorem magBits_lt {F : Fmt} {n j : Nat} (h : IsCanonical F n j) : magBits F n j < 2 ^ (fWidth F - 1) := by
  have hsig := h.sig_lt
  rw [two_pow_fPrec] at hsig
  have hexp := maxShift_add_three F
  have hj : (j + 2) * 2 ^ (fPrec F - 1) ≤ 2 ^ fExpWidth F * 2 ^ (fPrec F - 1) :=
    Nat.mul_le_mul_right _ (by have := h.shift_le; omega)
  rw [fWidth_sub_one, pow_add, magBits]
  linarith

/-! ### Decoding -/

/-- Canonical bits decode to their magnitude under the pattern's sign (R16). -/
theorem decodeF_of_magField {F : Fmt} {b : Pattern} {n j : Nat} (h : IsCanonical F n j)
    (hb : magField F b = magBits F n j) : decodeF F b = some (.fin (applySign (signField F b) (floatMag F n j))) := by
  have hexp := maxShift_add_three F
  have hshift := h.shift_le
  rw [decodeF, expField_eq, fracField_eq, hb, floatMag_eq]
  obtain ⟨-, rfl, hdiv, hmod⟩ | ⟨-, hdiv, hmod⟩ := magBits_div_mod h
  · rw [hdiv, hmod, if_neg (by omega), if_pos rfl, pow_zero, one_mul, ulpMin]
  · rw [hdiv, hmod, if_neg (by omega), if_neg (by omega), two_pow_mul_ulpMin]
    have hunit : ((j + 1 : Nat) : ℤ) - emax F - fPrec F + 1 = emin F + j - fPrec F + 1 := by
      have := emin_add_emax F
      push_cast
      linarith
    rw [hunit]

/-- Every finite pattern has canonical bits (R16). -/
theorem exists_canonical_of_decodeFinite {F : Fmt} {b : Pattern} {r : ℚ} (h : decodeFinite F b = some r) :
    ∃ n j, IsCanonical F n j ∧ magField F b = magBits F n j ∧ r = applySign (signField F b) (floatMag F n j) := by
  have hfinite : expField F b ≠ 2 ^ fExpWidth F - 1 := by
    intro he
    by_cases hf : fracField F b = 0 <;> simp [decodeFinite, decodeF, he, hf] at h
  suffices hc : ∃ n j, IsCanonical F n j ∧ magField F b = magBits F n j by
    obtain ⟨n, j, hc, hb⟩ := hc
    refine ⟨n, j, hc, hb, ?_⟩
    rw [decodeFinite, decodeF_of_magField hc hb] at h
    exact (Option.some.inj h).symm
  have hsplit := Nat.div_add_mod (magField F b) (2 ^ (fPrec F - 1))
  have hfrac : magField F b % 2 ^ (fPrec F - 1) < 2 ^ (fPrec F - 1) := Nat.mod_lt _ (by positivity)
  have hexp : magField F b / 2 ^ (fPrec F - 1) < 2 ^ fExpWidth F := by
    rw [Nat.div_lt_iff_lt_mul (by positivity), ← pow_add, add_comm, ← fWidth_sub_one]
    exact magField_lt F b
  rw [expField_eq] at hfinite
  have hprec := two_pow_fPrec F
  have hmax := maxShift_add_three F
  generalize magField F b % 2 ^ (fPrec F - 1) = f at *
  obtain he | ⟨e, he⟩ : magField F b / 2 ^ (fPrec F - 1) = 0 ∨ ∃ e, magField F b / 2 ^ (fPrec F - 1) = e + 1 := by
    cases magField F b / 2 ^ (fPrec F - 1) <;> simp
  · refine ⟨f, 0, ⟨by omega, by simp, by omega⟩, ?_⟩
    rw [← hsplit, he, magBits]
    ring
  · refine ⟨2 ^ (fPrec F - 1) + f, e, ⟨by omega, by omega, by omega⟩, ?_⟩
    rw [← hsplit, he, magBits]
    ring

/-! ### Packing -/

theorem toNat_packBits {F : Fmt} {m : Nat} (neg : Bool) (h : m < 2 ^ (fWidth F - 1)) :
    (packBits F neg m).toNat = neg.toNat * 2 ^ (fWidth F - 1) + m := by
  have hwidth : 2 ^ fWidth F = 2 * 2 ^ (fWidth F - 1) := by cases F <;> rfl
  have hzext : 2 ^ fWidth F ≤ 2 ^ 64 := by cases F <;> decide
  have hsign : (if neg then 2 ^ (fWidth F - 1) else 0) = neg.toNat * 2 ^ (fWidth F - 1) := by cases neg <;> simp
  have hfits : neg.toNat * 2 ^ (fWidth F - 1) + m < 2 ^ fWidth F := by cases neg <;> simp <;> omega
  rw [packBits, hsign, Nat.mod_eq_of_lt hfits, BitVec.toNat_ofNat, Nat.mod_eq_of_lt (hfits.trans_le hzext)]

theorem magField_packBits {F : Fmt} {m : Nat} (neg : Bool) (h : m < 2 ^ (fWidth F - 1)) :
    magField F (packBits F neg m) = m := by
  rw [magField, toNat_packBits neg h, Nat.mul_add_mod_self_right, Nat.mod_eq_of_lt h]

theorem signField_packBits {F : Fmt} {m : Nat} (neg : Bool) (h : m < 2 ^ (fWidth F - 1)) :
    signField F (packBits F neg m) = neg := by
  rw [signField_eq, toNat_packBits neg h, mul_comm, Nat.mul_add_div (by positivity), Nat.div_eq_of_lt h]
  cases neg <;> rfl

/-- A pattern of W bits is its sign over its exponent and fraction bits (R15). -/
theorem packBits_fields {F : Fmt} {b : Pattern} (h : b.toNat < 2 ^ fWidth F) :
    packBits F (signField F b) (magField F b) = b := by
  apply BitVec.eq_of_toNat_eq
  have htop : b.toNat / 2 ^ (fWidth F - 1) < 2 := by
    rw [Nat.div_lt_iff_lt_mul (by positivity), ← pow_succ']
    cases F <;> exact h
  have hsign : (signField F b).toNat = b.toNat / 2 ^ (fWidth F - 1) := by
    rw [signField_eq, Nat.mod_eq_of_lt htop]
    interval_cases b.toNat / 2 ^ (fWidth F - 1) <;> rfl
  rw [toNat_packBits _ (magField_lt F b), hsign, magField, Nat.div_add_mod']

/-! ### Encoding -/

/-- A number in [2^z, 2^(z+1)) has base-2 logarithm `z`. -/
theorem log_eq_of_mem_binade {a : ℚ} {z : ℤ} (hlo : pow2 z ≤ a) (hhi : a < pow2 (z + 1)) : Int.log 2 a = z := by
  have ha : 0 < a := (pow2_pos z).trans_le hlo
  have h1 : z < Int.log 2 a + 1 := pow2_lt_pow2_iff.1 (hlo.trans_lt (lt_pow2_log_succ a))
  have h2 : Int.log 2 a < z + 1 := pow2_lt_pow2_iff.1 ((pow2_log_le ha).trans_lt hhi)
  omega

/-- Encoding a canonical magnitude gives its bits back (R17). -/
theorem encodeMag_floatMag {F : Fmt} {n j : Nat} (h : IsCanonical F n j) :
    encodeMag F (floatMag F n j) = magBits F n j := by
  have hu := two_pow_mul_ulpMin_pos F j
  by_cases hn : n < 2 ^ (fPrec F - 1)
  · obtain rfl := h.shift_eq_zero hn
    have hsub : floatMag F n 0 < pow2 (emin F) := by
      have := pow2_emin_add F 0
      rw [Nat.cast_zero, add_zero] at this
      rw [floatMag_eq, this]
      exact mul_lt_mul_of_pos_right (by exact_mod_cast hn) hu
    rw [encodeMag, if_pos hsub, ← ulpMin, floatMag_eq, pow_zero, one_mul, mul_div_cancel_right₀ _ (ulpMin_pos F).ne',
      Int.floor_natCast, Int.toNat_natCast, magBits, zero_mul, zero_add]
  · have hlo := pow2_le_floatMag j (not_lt.1 hn)
    have hhi := floatMag_lt_pow2 j h.sig_lt
    have hnormal : ¬ floatMag F n j < pow2 (emin F) := not_lt.2 ((pow2_le_pow2_iff.2 (by omega)).trans hlo)
    have hbiased : (emin F + j + emax F).toNat = j + 1 := by
      have := emin_add_emax F
      omega
    rw [encodeMag, if_neg hnormal, log_eq_of_mem_binade hlo hhi, hbiased, ← two_pow_mul_ulpMin, floatMag_eq,
      mul_div_cancel_right₀ _ hu.ne', Int.floor_natCast, Int.toNat_natCast, magBits, add_mul, one_mul]
    omega

/-- A signed canonical magnitude encodes as its sign and bits, but zero has no sign (R17). -/
theorem encodeF_applySign {F : Fmt} {n j : Nat} (h : IsCanonical F n j) (neg : Bool) :
    encodeF F (.fin (applySign neg (floatMag F n j))) = packBits F (neg && decide (n ≠ 0)) (magBits F n j) := by
  have hsign : decide (applySign neg (floatMag F n j) < 0) = (neg && decide (n ≠ 0)) := by
    have hnonneg := floatMag_nonneg F n j
    cases neg with
    | false => simpa [applySign] using hnonneg
    | true => simp [applySign, hnonneg.lt_iff_ne', floatMag_eq_zero_iff]
  rw [encodeF, hsign, abs_applySign, abs_of_nonneg (floatMag_nonneg F n j), encodeMag_floatMag h]

/-- The bits of the infinities (R16): the exponent field full, the fraction 0. -/
theorem infBits_lt (F : Fmt) : (2 ^ fExpWidth F - 1) * 2 ^ (fPrec F - 1) < 2 ^ (fWidth F - 1) := by
  cases F <;> norm_num [fExpWidth, fPrec, fWidth]

theorem decodeF_encodeF_inf (F : Fmt) (neg : Bool) : decodeF F (encodeF F (.inf neg)) = some (.inf neg) := by
  rw [encodeF, decodeF, expField_eq, fracField_eq, magField_packBits neg (infBits_lt F),
    Nat.mul_div_cancel _ (by positivity), if_pos rfl, Nat.mul_mod_left, if_pos rfl,
    signField_packBits neg (infBits_lt F)]

theorem isCanonical_zero (F : Fmt) : IsCanonical F 0 0 := ⟨by positivity, by simp, by simp⟩

theorem encodeF_zero (F : Fmt) : encodeF F (.fin 0) = 0 := by
  have h := encodeF_applySign (isCanonical_zero F) false
  rw [floatMag_zero, Bool.false_and, applySign, if_neg (by decide)] at h
  rw [h]
  apply BitVec.eq_of_toNat_eq
  rw [toNat_packBits _ (magBits_lt (isCanonical_zero F))]
  simp [magBits]

/-- A signed canonical magnitude decodes from its encoding (R16, R17). -/
theorem decodeF_encodeF_applySign {F : Fmt} {n j : Nat} (h : IsCanonical F n j) (neg : Bool) :
    decodeF F (encodeF F (.fin (applySign neg (floatMag F n j)))) = some (.fin (applySign neg (floatMag F n j))) := by
  rw [encodeF_applySign h, decodeF_of_magField h (magField_packBits _ (magBits_lt h)),
    signField_packBits _ (magBits_lt h)]
  by_cases hn : n = 0
  · simp [hn, applySign]
  · simp [hn]

/-- A signed canonical magnitude never encodes as the pattern -0 (R17). -/
theorem encodeF_applySign_ne_negZero {F : Fmt} {n j : Nat} (h : IsCanonical F n j) (neg : Bool) :
    encodeF F (.fin (applySign neg (floatMag F n j))) ≠ BitVec.ofNat 64 (2 ^ (fWidth F - 1)) := by
  have hneg : BitVec.ofNat 64 (2 ^ (fWidth F - 1)) = packBits F true 0 := by cases F <;> rfl
  rw [encodeF_applySign h, hneg]
  intro he
  have hsign := congrArg (signField F) he
  have hmag := congrArg (magField F) he
  rw [signField_packBits _ (magBits_lt h), signField_packBits _ (by positivity)] at hsign
  rw [magField_packBits _ (magBits_lt h), magField_packBits _ (by positivity), magBits] at hmag
  have hn : n = 0 := by omega
  simp [hn] at hsign

/-- Settles O1: a finite pattern is its canonical significand and shift, which encoding gives back. -/
theorem encodeFInvertsDecodeF : Obligations.EncodeFInvertsDecodeF := by
  refine fun F => ⟨fun b r hr => ?_, encodeF_zero F, decodeF_encodeF_inf F⟩
  obtain ⟨n, j, hc, hb, rfl⟩ := exists_canonical_of_decodeFinite hr
  refine ⟨decodeF_encodeF_applySign hc _, fun hwidth hr0 => ?_, encodeF_applySign_ne_negZero hc _⟩
  have hn : n ≠ 0 := fun hn => hr0 (by simp [hn, applySign])
  rw [encodeF_applySign hc, ← hb, decide_eq_true hn, Bool.and_true, packBits_fields hwidth]

end Sys2Proof.Machine
end

section
/-! # RNE is round-to-nearest, ties to even (R18)

The rounding of a positive number at the unit its binade gives is nearest among the multiples of that unit. A
representable number that is no such multiple lies below the binade, where the binade's own lower end is already
nearer. -/

namespace Sys2Proof.Machine

open Sys2Proof.Claims

/-! ### Ties to even, on integers -/

theorem roundTiesEven_even_of_tie {q : ℚ} (h : |(roundTiesEven q : ℚ) - q| = 1 / 2) : Even (roundTiesEven q) := by
  have hlo := Int.floor_le q
  have hhi := Int.lt_floor_add_one q
  unfold roundTiesEven at *
  split_ifs at * with hdown hup heven
  · rw [abs_sub_comm, abs_of_nonneg (by linarith)] at h
    linarith
  · push_cast at h
    rw [abs_of_nonneg (by linarith)] at h
    linarith
  · exact Int.even_iff.2 heven
  · exact Int.even_iff.2 (by omega)

/-- Two different integers are never both within less than a half. -/
theorem half_le_of_ne_roundTiesEven {q : ℚ} {k : ℤ} (h : k ≠ roundTiesEven q) : 1 / 2 ≤ |(k : ℚ) - q| := by
  have hgap : (1 : ℚ) ≤ |(k : ℚ) - roundTiesEven q| := by exact_mod_cast Int.one_le_abs (sub_ne_zero.2 h)
  have hnear := roundTiesEven_err q
  have htriangle := abs_sub_le (k : ℚ) q (roundTiesEven q)
  rw [abs_sub_comm q] at htriangle
  linarith

theorem roundTiesEven_nearest (q : ℚ) (k : ℤ) : |(roundTiesEven q : ℚ) - q| ≤ |(k : ℚ) - q| := by
  by_cases h : k = roundTiesEven q
  · rw [h]
  · exact (roundTiesEven_err q).trans (half_le_of_ne_roundTiesEven h)

theorem roundTiesEven_even_of_equally_near {q : ℚ} {k : ℤ} (hk : k ≠ roundTiesEven q)
    (h : |(roundTiesEven q : ℚ) - q| = |(k : ℚ) - q|) : Even (roundTiesEven q) :=
  roundTiesEven_even_of_tie (le_antisymm (roundTiesEven_err q) (h ▸ half_le_of_ne_roundTiesEven hk))

/-- Rounding reaches an even integer from its lower midpoint on. -/
theorem le_roundTiesEven_iff_of_even {q : ℚ} {k : ℤ} (hk : Even k) : k ≤ roundTiesEven q ↔ (k : ℚ) - 1 / 2 ≤ q := by
  have herr := roundTiesEven_err q
  obtain ⟨-, hup⟩ := abs_le.1 herr
  constructor
  · intro h
    have : (k : ℚ) ≤ roundTiesEven q := by exact_mod_cast h
    linarith
  · intro h
    by_contra hlt
    have hbelow : (roundTiesEven q : ℚ) ≤ k - 1 := by exact_mod_cast Int.le_sub_one_of_lt (not_le.1 hlt)
    have hfar : 1 / 2 ≤ |(roundTiesEven q : ℚ) - q| := by
      rw [abs_sub_comm]
      exact le_trans (by linarith) (le_abs_self _)
    have htie := le_antisymm herr hfar
    have hexact : (roundTiesEven q : ℚ) = k - 1 := by
      rw [abs_sub_comm, abs_of_nonneg (by linarith)] at htie
      linarith
    have hodd : roundTiesEven q = k - 1 := by exact_mod_cast hexact
    have heven := roundTiesEven_even_of_tie htie
    rw [hodd] at heven
    exact Int.not_even_one ((Int.even_sub.1 heven).1 hk)

/-! ### The unit a number is rounded to -/

/-- The number `a` is rounded at shift `j`: its unit is that shift's, and it lies in that binade, or below the
lowest. -/
structure RoundsAt (F : Fmt) (a : ℚ) (j : Nat) : Prop where
  unit_eq : roundUnit F a = 2 ^ j * ulpMin F
  lt : a < pow2 (emin F + j + 1)
  hidden : j ≠ 0 → pow2 (emin F + j) ≤ a

theorem exists_roundsAt (F : Fmt) {a : ℚ} (ha : 0 < a) : ∃ j, RoundsAt F a j := by
  have hlo := pow2_log_le ha
  have hhi := lt_pow2_log_succ a
  obtain hlog | hlog := le_total (Int.log 2 a) (emin F)
  · refine ⟨0, ?_, hhi.trans_le (pow2_le_pow2_iff.2 (by omega)), by simp⟩
    rw [roundUnit, max_eq_right hlog, two_pow_mul_ulpMin, Nat.cast_zero, add_zero]
  · obtain ⟨j, hj⟩ := Int.eq_ofNat_of_zero_le (sub_nonneg.2 hlog)
    obtain hlog' : Int.log 2 a = emin F + j := by omega
    refine ⟨j, ?_, hlog' ▸ hhi, fun _ => hlog' ▸ hlo⟩
    rw [roundUnit, max_eq_left hlog, hlog', two_pow_mul_ulpMin]

/-- The significand `a` is rounded to, before a carry into the next binade: the n of R18. -/
def roundSig (F : Fmt) (a : ℚ) : Nat := (roundTiesEven (a / roundUnit F a)).toNat

theorem natCast_roundSig (F : Fmt) {a : ℚ} (ha : 0 < a) : (roundSig F a : ℤ) = roundTiesEven (a / roundUnit F a) :=
  Int.toNat_of_nonneg (roundTiesEven_nonneg (div_pos ha (roundUnit_pos F a)).le)

theorem roundMag_eq_floatMag {F : Fmt} {a : ℚ} {j : Nat} (ha : 0 < a) (h : RoundsAt F a j) :
    roundMag F a = floatMag F (roundSig F a) j := by
  rw [roundMag, ← natCast_roundSig F ha, floatMag_eq, h.unit_eq, Int.cast_natCast]

theorem roundSig_le {F : Fmt} {a : ℚ} {j : Nat} (ha : 0 < a) (h : RoundsAt F a j) : roundSig F a ≤ 2 ^ fPrec F := by
  have hq : a / roundUnit F a < 2 ^ fPrec F := by
    rw [div_lt_iff₀ (roundUnit_pos F a), h.unit_eq, ← pow2_emin_add_succ]
    exact h.lt
  obtain ⟨-, hup⟩ := abs_le.1 (roundTiesEven_err (a / roundUnit F a))
  rw [← natCast_roundSig F ha, Int.cast_natCast] at hup
  have : (roundSig F a : ℚ) < (2 ^ fPrec F + 1 : Nat) := by
    push_cast
    linarith
  exact Nat.lt_succ_iff.1 (by exact_mod_cast this)

theorem two_pow_le_roundSig {F : Fmt} {a : ℚ} {j : Nat} (ha : 0 < a) (h : RoundsAt F a j) (hj : j ≠ 0) :
    2 ^ (fPrec F - 1) ≤ roundSig F a := by
  have hq : (2 : ℚ) ^ (fPrec F - 1) ≤ a / roundUnit F a := by
    rw [le_div_iff₀ (roundUnit_pos F a), h.unit_eq, ← pow2_emin_add]
    exact h.hidden hj
  have hreach := (le_roundTiesEven_iff_of_even (q := a / roundUnit F a)
    (by exact_mod_cast even_two_pow_fPrec_sub_one F : Even ((2 : ℤ) ^ (fPrec F - 1)))).2 (by push_cast; linarith)
  rw [← natCast_roundSig F ha] at hreach
  exact_mod_cast hreach

/-! ### The rounded magnitude is representable, unless it overflows -/

theorem pow2_emax_add_one (F : Fmt) : pow2 (emax F + 1) = 2 ^ fPrec F * (2 ^ maxShift F * ulpMin F) := by
  rw [emax_eq, pow2_emin_add_succ]

theorem shift_le_of_floatMag_lt {F : Fmt} {n j : Nat} (hidden : j ≠ 0 → 2 ^ (fPrec F - 1) ≤ n)
    (h : floatMag F n j < pow2 (emax F + 1)) : j ≤ maxShift F := by
  by_cases hj : j = 0
  · omega
  · have := pow2_lt_pow2_iff.1 ((pow2_le_floatMag j (hidden hj)).trans_lt h)
    rw [emax_eq] at this
    omega

/-- Below the overflow bound the rounded magnitude is canonical, after a carry if the significand rounded up to 2^p; an
even n of R18 stays even. -/
theorem exists_canonical_roundMag {F : Fmt} {a : ℚ} (ha : 0 < a) (h : roundMag F a < pow2 (emax F + 1)) :
    ∃ n j, IsCanonical F n j ∧ roundMag F a = floatMag F n j ∧ (Even (roundTiesEven (a / roundUnit F a)) → Even n) := by
  obtain ⟨j, hj⟩ := exists_roundsAt F ha
  have hmag := roundMag_eq_floatMag ha hj
  obtain hlt | hcarry := (roundSig_le ha hj).lt_or_eq
  · have hidden := two_pow_le_roundSig ha hj
    refine ⟨roundSig F a, j, ⟨hlt, hidden, shift_le_of_floatMag_lt hidden (hmag ▸ h)⟩, hmag, fun heven => ?_⟩
    rw [← natCast_roundSig F ha] at heven
    exact_mod_cast heven
  · have hnext : roundMag F a = floatMag F (2 ^ (fPrec F - 1)) (j + 1) := by
      rw [hmag, hcarry, two_pow_fPrec, floatMag, floatMag, pow_succ']
      ring_nf
    have hsig : 2 ^ (fPrec F - 1) < 2 ^ fPrec F := by
      rw [two_pow_fPrec]
      exact lt_two_mul_self (by positivity)
    exact ⟨2 ^ (fPrec F - 1), j + 1, ⟨hsig, fun _ => le_rfl, shift_le_of_floatMag_lt (fun _ => le_rfl) (hnext ▸ h)⟩,
      hnext, fun _ => even_two_pow_fPrec_sub_one F⟩

/-! ### Representable numbers -/

/-- The representable numbers are the signed canonical magnitudes (R16, R17). -/
theorem representable_iff {F : Fmt} {w : ℚ} :
    Representable F w ↔ ∃ neg n j, IsCanonical F n j ∧ w = applySign neg (floatMag F n j) := by
  constructor
  · rintro ⟨b, hb⟩
    obtain ⟨n, j, hc, -, hw⟩ := exists_canonical_of_decodeFinite hb
    exact ⟨_, n, j, hc, hw⟩
  · rintro ⟨neg, n, j, hc, rfl⟩
    exact ⟨_, by rw [decodeFinite, decodeF_encodeF_applySign hc]⟩

theorem representable_zero (F : Fmt) : Representable F 0 :=
  representable_iff.2 ⟨false, 0, 0, isCanonical_zero F, by simp [applySign]⟩

theorem applySign_applySign (s neg : Bool) (a : ℚ) : applySign s (applySign neg a) = applySign (s ^^ neg) a := by
  cases s <;> cases neg <;> simp [applySign]

theorem representable_applySign {F : Fmt} {w : ℚ} (neg : Bool) (h : Representable F w) :
    Representable F (applySign neg w) := by
  obtain ⟨s, n, j, hc, rfl⟩ := representable_iff.1 h
  exact representable_iff.2 ⟨neg ^^ s, n, j, hc, applySign_applySign _ _ _⟩

/-- A representable number at or above a binade's lower end is a multiple of that binade's unit. -/
theorem exists_mul_unit_of_representable {F : Fmt} {w : ℚ} {j : Nat} (hw : Representable F w)
    (h : j ≠ 0 → pow2 (emin F + j) ≤ w) : ∃ k : ℤ, w = k * (2 ^ j * ulpMin F) := by
  obtain ⟨neg, n, i, hc, rfl⟩ := representable_iff.1 hw
  have hji : j ≤ i := by
    by_cases hj : j = 0
    · omega
    · have hle : pow2 (emin F + j) ≤ floatMag F n i := by
        rw [← abs_of_nonneg (floatMag_nonneg F n i), ← abs_applySign neg]
        exact (h hj).trans (le_abs_self _)
      have := pow2_lt_pow2_iff.1 (hle.trans_lt (floatMag_lt_pow2 i hc.sig_lt))
      omega
  obtain ⟨d, rfl⟩ := Nat.exists_eq_add_of_le hji
  refine ⟨if neg then -(n * 2 ^ d : Nat) else (n * 2 ^ d : Nat), ?_⟩
  rw [floatMag, pow_add]
  cases neg <;> simp [applySign] <;> ring

/-! ### Nearest -/

theorem abs_sub_mul_unit {a u : ℚ} (hu : 0 < u) (k : ℤ) : |a - k * u| = |(k : ℚ) - a / u| * u := by
  rw [abs_sub_comm, ← abs_of_pos hu, ← abs_mul, abs_of_pos hu, sub_mul, div_mul_cancel₀ _ hu.ne']

/-- No representable number is nearer than the rounded magnitude, and where another is as near, n is even (R18). -/
theorem roundMag_nearest {F : Fmt} {a w : ℚ} (ha : 0 < a) (hw : Representable F w) :
    |a - roundMag F a| ≤ |a - w| ∧
      (|a - roundMag F a| = |a - w| → w ≠ roundMag F a → Even (roundTiesEven (a / roundUnit F a))) := by
  have hu := roundUnit_pos F a
  have nearest (k : ℤ) : |a - roundMag F a| ≤ |a - k * roundUnit F a| := by
    rw [roundMag, abs_sub_mul_unit hu, abs_sub_mul_unit hu]
    exact mul_le_mul_of_nonneg_right (roundTiesEven_nearest _ k) hu.le
  obtain ⟨j, hj⟩ := exists_roundsAt F ha
  by_cases habove : j ≠ 0 → pow2 (emin F + j) ≤ w
  · obtain ⟨k, rfl⟩ := exists_mul_unit_of_representable hw habove
    rw [← hj.unit_eq]
    refine ⟨nearest k, fun htie hne => ?_⟩
    have hk : k ≠ roundTiesEven (a / roundUnit F a) := by
      rintro rfl
      exact hne rfl
    rw [roundMag, abs_sub_mul_unit hu, abs_sub_mul_unit hu] at htie
    exact roundTiesEven_even_of_equally_near hk (mul_right_cancel₀ hu.ne' htie)
  · obtain ⟨hj0, hbelow⟩ := Classical.not_imp.1 habove
    have hbelow := not_le.1 hbelow
    have hend := hj.hidden hj0
    have hnear : |a - roundMag F a| ≤ |a - pow2 (emin F + j)| := by
      have := nearest (2 ^ (fPrec F - 1))
      rwa [hj.unit_eq, Int.cast_pow, Int.cast_ofNat, ← pow2_emin_add] at this
    have hstrict : |a - roundMag F a| < |a - w| := by
      rw [abs_of_nonneg (sub_nonneg.2 hend)] at hnear
      rw [abs_of_nonneg (by linarith : (0 : ℚ) ≤ a - w)]
      linarith
    exact ⟨hstrict.le, fun htie => absurd htie hstrict.ne⟩

/-! ### Overflow -/

theorem overflowThreshold_eq (F : Fmt) :
    overflowThreshold F = (2 ^ fPrec F - 1 / 2) * (2 ^ maxShift F * ulpMin F) := by
  have hemax : (2 : ℚ) ^ emax F = 2 ^ (fPrec F - 1) * (2 ^ maxShift F * ulpMin F) := by
    rw [← pow2_emin_add, ← emax_eq, pow2]
  rw [overflowThreshold, hemax, zpow_neg, zpow_natCast, cast_two_pow_fPrec]
  field_simp

theorem pow2_emax_lt_overflowThreshold (F : Fmt) : pow2 (emax F) < overflowThreshold F := by
  have hone : (1 : ℚ) ≤ 2 ^ (fPrec F - 1) := one_le_pow₀ (by norm_num)
  rw [overflowThreshold_eq, emax_eq, pow2_emin_add, cast_two_pow_fPrec]
  exact mul_lt_mul_of_pos_right (by linarith) (two_pow_mul_ulpMin_pos F _)

theorem overflowThreshold_lt_pow2_emax_add_one (F : Fmt) : overflowThreshold F < pow2 (emax F + 1) := by
  rw [overflowThreshold_eq, pow2_emax_add_one]
  exact mul_lt_mul_of_pos_right (by linarith) (two_pow_mul_ulpMin_pos F _)

/-- The overflow of R18, seen on the number itself: only in the top binade does the rounding decide. -/
theorem overflow_iff {F : Fmt} {a : ℚ} (ha : 0 < a) :
    pow2 (emax F + 1) ≤ roundMag F a ↔ overflowThreshold F ≤ a := by
  obtain ⟨j, hj⟩ := exists_roundsAt F ha
  have hmag := roundMag_eq_floatMag ha hj
  obtain hlow | rfl | hhigh := lt_trichotomy j (maxShift F)
  · have hbinade : pow2 (emin F + j + 1) ≤ pow2 (emax F) := pow2_le_pow2_iff.2 (by rw [emax_eq]; omega)
    have hround : roundMag F a ≤ pow2 (emin F + j + 1) := by
      rw [hmag, floatMag_eq, pow2_emin_add_succ]
      exact mul_le_mul_of_nonneg_right (by exact_mod_cast roundSig_le ha hj) (two_pow_mul_ulpMin_pos F j).le
    have hemax : pow2 (emax F) < pow2 (emax F + 1) := pow2_lt_pow2_iff.2 (by omega)
    exact iff_of_false (not_le.2 ((hround.trans hbinade).trans_lt hemax))
      (not_le.2 ((hj.lt.trans_le hbinade).trans (pow2_emax_lt_overflowThreshold F)))
  · have heven : Even ((2 : ℤ) ^ fPrec F) := by exact_mod_cast even_two_pow_fPrec F
    have hreach := le_roundTiesEven_iff_of_even (q := a / roundUnit F a) heven
    have hu := roundUnit_pos F a
    rw [pow2_emax_add_one, overflowThreshold_eq, ← hj.unit_eq, roundMag, mul_le_mul_iff_left₀ hu, ← le_div_iff₀ hu]
    rw [Int.cast_pow, Int.cast_ofNat] at hreach
    exact Iff.trans (by exact_mod_cast Iff.rfl) hreach
  · have hbinade : pow2 (emax F + 1) ≤ pow2 (emin F + j) := pow2_le_pow2_iff.2 (by rw [emax_eq]; omega)
    have hround : pow2 (emin F + j) ≤ roundMag F a := by
      rw [hmag]
      exact pow2_le_floatMag j (two_pow_le_roundSig ha hj (by omega))
    exact iff_of_true (hbinade.trans hround)
      ((overflowThreshold_lt_pow2_emax_add_one F).le.trans (hbinade.trans (hj.hidden (by omega))))

/-! ### Both signs -/

theorem applySign_decide_abs (r : ℚ) : applySign (decide (r < 0)) |r| = r := by
  by_cases h : r < 0
  · simp [applySign, h, abs_of_neg h]
  · simp [applySign, h, abs_of_nonneg (not_lt.1 h)]

theorem abs_applySign_sub (neg : Bool) (x y : ℚ) : |applySign neg x - applySign neg y| = |x - y| := by
  cases neg
  · rfl
  · simp only [applySign, if_true, neg_sub_neg, abs_sub_comm]

/-- The last significand bit of an encoding is that of its significand (R15, R17). -/
theorem fracField_encodeF_even {F : Fmt} {n j : Nat} (h : IsCanonical F n j) (heven : Even n) (neg : Bool) :
    fracField F (encodeF F (.fin (applySign neg (floatMag F n j)))) % 2 = 0 := by
  have hpow := even_two_pow_fPrec_sub_one F
  rw [encodeF_applySign h, fracField_eq, magField_packBits _ (magBits_lt h), Nat.mod_mod_of_dvd _ hpow.two_dvd]
  exact Nat.even_iff.1 ((hpow.mul_left j).add heven)

/-- What R18 says of a finite result `v` of rounding `r`: representable, nearest, and even where another is as near. -/
def IsNearestEven (F : Fmt) (r v : ℚ) : Prop :=
  Representable F v ∧ ∀ w, Representable F w →
    |r - v| ≤ |r - w| ∧ (|r - v| = |r - w| → w ≠ v → fracField F (encodeF F (.fin v)) % 2 = 0)

theorem isNearestEven_zero (F : Fmt) : IsNearestEven F 0 0 :=
  ⟨representable_zero F, fun w _ => ⟨by simp, fun _ _ => by simp [encodeF_zero, fracField]⟩⟩

theorem isNearestEven_roundMag {F : Fmt} {a : ℚ} (ha : 0 < a) (h : roundMag F a < pow2 (emax F + 1)) (neg : Bool) :
    IsNearestEven F (applySign neg a) (applySign neg (roundMag F a)) := by
  obtain ⟨n, j, hc, hmag, heven⟩ := exists_canonical_roundMag ha h
  refine ⟨representable_iff.2 ⟨neg, n, j, hc, by rw [hmag]⟩, fun w hw => ?_⟩
  have hw' : applySign neg (applySign neg w) = w := by cases neg <;> simp [applySign]
  obtain ⟨hnear, htie⟩ := roundMag_nearest ha (representable_applySign neg hw)
  rw [← hw', abs_applySign_sub, abs_applySign_sub]
  refine ⟨hnear, fun heq hne => ?_⟩
  rw [hmag]
  exact fracField_encodeF_even hc (heven (htie heq fun he => hne (congrArg _ he))) neg

/-- Settles O2: at 0 directly, and elsewhere on |r| with the sign put back. -/
theorem rneRoundsToNearestEven : Obligations.RneRoundsToNearestEven := by
  intro F r
  obtain rfl | hr := eq_or_ne r 0
  · refine ⟨fun v hv => ?_, fun neg => ?_⟩
    · obtain rfl : 0 = v := by simpa using hv
      exact isNearestEven_zero F
    · have hthreshold := (pow2_pos (emax F)).trans (pow2_emax_lt_overflowThreshold F)
      simp [hthreshold]
  · have ha : 0 < |r| := abs_pos.2 hr
    obtain ⟨hover, hrne⟩ | ⟨hfits, hrne⟩ := rne_cases F hr
    · have hthreshold := (overflow_iff ha).1 hover
      exact ⟨fun v hv => by simp [hrne] at hv, fun neg => by simp [hrne, hthreshold, eq_comm]⟩
    · have hthreshold := mt (overflow_iff ha).2 (not_le.2 hfits)
      refine ⟨fun v hv => ?_, fun neg => by simp [hrne, hthreshold]⟩
      obtain rfl : applySign (decide (r < 0)) (roundMag F |r|) = v := FpNum.fin.inj (hrne.symm.trans hv)
      have hnearest := isNearestEven_roundMag ha hfits (decide (r < 0))
      rwa [applySign_decide_abs] at hnearest

end Sys2Proof.Machine
end

section
/-! # Commands and steps by cases (R25, R101 to R104, R111 to R113)

A command commits its results or raises its error; a step that is not a command, a memory write or a reset leaves the
group of R32, the error fields, SATCNT and memory alone. -/

namespace Sys2Proof.Machine

open Sys2Proof.Claims

/-- A command that ends has committed its results or raised its error (R111, R112). -/
theorem exec_cases {i : Instr} {s t : State} (h : exec i s = .next t) :
    (∃ r, resultsOf s i = .ok r ∧ t = r.commit) ∨ (∃ e, resultsOf s i = .error e ∧ t = s.raise (buildsInst i) e) := by
  rw [exec_eq_finish] at h
  obtain ⟨r, hr, hf⟩ | ⟨e, he, hf⟩ := finish_eq (buildsInst i) s (resultsOf s i)
  · exact .inl ⟨r, hr, Host.Outcome.next.inj (h.symm.trans hf)⟩
  · exact .inr ⟨e, he, Host.Outcome.next.inj (h.symm.trans hf)⟩

/-- The accumulator of `AbsMax` only grows (R132). -/
theorem le_foldl_max_absF (xs : List ℚ) : ∀ m : ℚ, m ≤ xs.foldl (fun m y => max m (absF y)) m := by
  induction xs with
  | nil => exact fun m => le_rfl
  | cons x xs ih => exact fun m => (le_max_left _ _).trans (ih _)

theorem absMax_nonneg (xs : List ℚ) : 0 ≤ absMax xs := by
  cases xs with
  | nil => exact le_rfl
  | cons x xs => exact (abs_nonneg x).trans (le_foldl_max_absF xs _)

/-- What a command commits, as an update of the state (R110): a construction installs the Scale of a range of at least 0,
and a transform stores its elements in a buffer that passed its checks. -/
inductive CommandResult (s : State) : Instr → State → Prop
  | scan (F : Fmt) (p : Pattern) : CommandResult s (.scan F) (s.setAbsmax p)
  | construct {i : Instr} {F : Fmt} {eb : Nat} {a scale : ℚ} {degen : Bool} (hi : construction i = some (F, 0, eb))
      (ha : 0 ≤ a) (hc : computeScale F a eb = .ok (scale, degen)) : CommandResult s i (install F 0 eb a scale degen s)
  | quant (vs : List Nat) (k : Nat) (hdst : checkBuf s.params s.dst 2 vs.length = .ok ()) :
      CommandResult s .quant ((s.setMem (s.mem.putAll 2 s.dst vs)).setSatCnt k)
  | dequant (vs : List Nat) (hdst : checkBuf s.params s.dst (elemSize s.inst.fmt) vs.length = .ok ()) :
      CommandResult s .dequant (s.setMem (s.mem.putAll (elemSize s.inst.fmt) s.dst vs))
  | release : CommandResult s .release (s.setInst Inst.absent)

theorem commandResult_of_resultsOf {i : Instr} {s r : State} (h : resultsOf s i = .ok r) : CommandResult s i r := by
  cases i with
  | scan F =>
    obtain ⟨-, -, xs, -, rfl⟩ := doScan_ok_iff.1 h
    exact .scan F _
  | initb F qt eb =>
    obtain ⟨rfl, b, scale, degen, hb, hc, rfl⟩ := doInitB_ok_iff.1 h
    obtain ⟨-, hnonneg⟩ := boundValue_ok_iff.1 hb
    exact .construct rfl hnonneg hc
  | inits F qt eb =>
    obtain ⟨rfl, -, -, xs, scale, degen, -, hc, rfl⟩ := doInitS_ok_iff.1 h
    exact .construct rfl (absMax_nonneg xs) hc
  | quant =>
    obtain ⟨-, -, hdst, xs, hxs, rfl⟩ := doQuant_ok_iff.1 h
    exact .quant _ _ (by simpa [finiteElems_length hxs] using hdst)
  | dequant =>
    obtain ⟨-, -, hdst, rfl⟩ := doDequant_ok_iff.1 h
    exact .dequant _ (by simpa [intElems] using hdst)
  | release =>
    obtain rfl : s.setInst Inst.absent = r := Except.ok.inj h
    exact .release

/-- A word written to CMD runs the command it decodes to, or is illegal (R104, R113). -/
theorem execCommand_cases {w : Word} {s t : State} (h : execCommand w s = .next t) :
    (∃ i, decode w = .ok i ∧ exec i s = .next t) ∨
      ((∃ r, decode w = .error r) ∧ t = s.raise false { code := .illegalCommand, index := 0 }) := by
  unfold execCommand at h
  split at h
  next i hd => exact .inl ⟨i, hd, h⟩
  next r hd => exact .inr ⟨⟨r, hd⟩, (Host.Outcome.next.inj h).symm⟩

/-- A change that leaves alone the group `Inst`, the error fields, SATCNT, memory and the parameters. -/
structure KeepsResults (s t : State) : Prop where
  inst : t.inst = s.inst
  err : t.err = s.err
  errIndex : t.errIndex = s.errIndex
  satCnt : t.satCnt = s.satCnt
  mem : t.mem = s.mem
  params : t.params = s.params

theorem regOffset_of_regAt {off : Byte} {r : RegName} (h : regAt off = some r) : regOffset r = off := by
  simpa using List.find?_some h

/-- A register write runs a command at CMD, and elsewhere reaches at most one operand or bound register (R33, R103). -/
theorem regWrite_cases {off : Byte} {v : Word} {s t : State} (h : regWrite off v s = .next t) :
    (off = 0x04 ∧ execCommand v s = .next t) ∨ KeepsResults s t := by
  unfold regWrite at h
  split at h
  next r hr =>
    cases r with
    | cmd => exact .inl ⟨(regOffset_of_regAt hr).symm, h⟩
    | _ =>
      obtain rfl := Host.Outcome.next.inj h
      exact .inr (by constructor <;> rfl)
  next =>
    obtain rfl := Host.Outcome.next.inj h
    exact .inr (by constructor <;> rfl)

/-- What one step does (R25): nothing to the results of commands, a byte written through the memory port, a command, or
one of the two resets. -/
inductive StepEffect (s t : State) : Prop
  | quiet (h : KeepsResults s t)
  | memWrite (a : Word) (v : Byte) (rest : List HostAccess) (hp : s.pending = .memWrite a v :: rest)
      (ht : t = hostMemWrite a v { s with pending := rest })
  | command (w : Word) (rest : List HostAccess) (hp : s.pending = .regWrite 0x04 w :: rest)
      (h : execCommand w { s with pending := rest } = .next t)
  | reset (rest : List HostAccess) (hp : s.pending = .reset :: rest) (ht : t = resetInput { s with pending := rest })
  | resetDuring (w : Word) (rest : List HostAccess) (hp : s.pending = .resetDuring w :: rest)
      (ht : t = resetDuringCommand w { s with pending := rest })

theorem stepEffect_of_step {s t : State} (h : step s = .next t) : StepEffect s t := by
  obtain ⟨-, hstep⟩ | ⟨x, rest, hp, hstep⟩ := step_cases s
  · obtain rfl := Host.Outcome.next.inj (hstep.symm.trans h)
    exact .quiet (by constructor <;> rfl)
  · rw [hstep] at h
    cases x with
    | regRead off =>
      simp only [hostAccess] at h
      split at h
      · obtain rfl := Host.Outcome.next.inj h
        exact .quiet (by constructor <;> rfl)
      · cases h
    | regWrite off v =>
      simp only [hostAccess] at h
      split at h
      · obtain ⟨rfl, hc⟩ | ⟨hinst, herr, hindex, hsat, hmem, hparams⟩ := regWrite_cases h
        · exact .command v rest hp hc
        · exact .quiet ⟨hinst, herr, hindex, hsat, hmem, hparams⟩
      · cases h
    | regNarrow off bytes => cases h
    | memRead a =>
      obtain rfl := Host.Outcome.next.inj h
      exact .quiet (by constructor <;> rfl)
    | memWrite a v => exact .memWrite a v rest hp (Host.Outcome.next.inj h).symm
    | reset => exact .reset rest hp (Host.Outcome.next.inj h).symm
    | resetDuring w => exact .resetDuring w rest hp (Host.Outcome.next.inj h).symm

/-- The memory port writes memory and nothing else (R61, R63). -/
theorem hostMemWrite_eq_setMem (a : Word) (v : Byte) (s : State) : ∃ m, hostMemWrite a v s = s.setMem m := by
  unfold hostMemWrite
  split
  · exact ⟨_, rfl⟩
  · exact ⟨s.mem, rfl⟩

end Sys2Proof.Machine
end

section
/-! # The word of a command, from its fields (R80, R88) -/

namespace Sys2Proof

theorem toNat_extractLsb'_eq (w : Word) (lo len : Nat) : (w.extractLsb' lo len).toNat = w.toNat / 2 ^ lo % 2 ^ len := by
  rw [BitVec.extractLsb'_toNat, Nat.shiftRight_eq_div_pow]

theorem toNat_getLsbD_eq (w : Word) (k : Nat) : (w.getLsbD k).toNat = w.toNat / 2 ^ k % 2 := by
  rw [← BitVec.testBit_toNat, Nat.toNat_testBit]

/-- Every word is its reserved bits, EB, QTYPE, FMT and OP at their places (R80). -/
theorem toNat_eq_fields (w : Word) :
    w.toNat = (w.extractLsb' 13 19).toNat * 2 ^ 13 + (w.extractLsb' 8 5).toNat * 2 ^ 8
      + (w.extractLsb' 5 3).toNat * 2 ^ 5 + (w.getLsbD 4).toNat * 2 ^ 4 + (w.extractLsb' 0 4).toNat := by
  have := w.isLt
  simp only [toNat_extractLsb'_eq, toNat_getLsbD_eq]
  omega

theorem ifUnused_ok_iff {b : Bool} {i j : Instr} : ifUnused b i = .ok j ↔ b = true ∧ i = j := by
  cases b <;> simp [ifUnused]

/-- QUANT has one word, 4: its FMT, QTYPE and EB must be 0 (R86). -/
theorem eq_of_decode_quant {w : Word} (h : decode w = .ok .quant) : w = 0x00000004 := by
  simp only [decode] at h
  split at h
  · cases h
  next hres =>
    split at h
    case h_4 hop =>
      obtain ⟨hunused, -⟩ := ifUnused_ok_iff.1 h
      simp only [Bool.and_eq_true, Bool.not_eq_true', beq_iff_eq] at hunused
      obtain ⟨⟨hfmt, hqt⟩, heb⟩ := hunused
      apply BitVec.eq_of_toNat_eq
      rw [toNat_eq_fields, not_not.1 hres, heb, hqt, hfmt, hop]
      rfl
    all_goals simp [ifUnused_ok_iff] at h

end Sys2Proof
end

section
/-! # ERR_INDEX: which errors carry an index (R37, R108) -/

namespace Sys2Proof.Machine

open Sys2Proof.Claims

/-- An error other than NONFINITE, with index 0 (R14, R37). -/
def PlainError (e : CmdError) : Prop := e.code ≠ .nonFinite ∧ e.index = 0

theorem plainError_of_check {b : Bool} {c : ErrCode} {e : CmdError} (hc : c ≠ .nonFinite)
    (h : check b c = .error e) : PlainError e := by
  obtain ⟨-, rfl⟩ := check_error_iff.1 h
  exact ⟨hc, rfl⟩

theorem plainError_of_checkBuf {p : Params} {base es n : Nat} {e : CmdError} (h : checkBuf p base es n = .error e) :
    PlainError e := by
  obtain ⟨-, ⟨-, rfl⟩ | ⟨-, -, rfl⟩⟩ := checkBuf_error_iff.1 h <;> exact ⟨by simp, rfl⟩

theorem plainError_of_boundValue {F : Fmt} {s : State} {e : CmdError} (h : boundValue F s = .error e) :
    PlainError e := by
  obtain ⟨rfl, -⟩ := boundValue_error h
  exact ⟨by simp, rfl⟩

theorem plainError_of_computeScale {F : Fmt} {a : ℚ} {E : Nat} {e : CmdError} (h : computeScale F a E = .error e) :
    PlainError e := by
  obtain ⟨-, rfl⟩ | ⟨-, -, rfl, -⟩ := computeScale_error_iff.1 h <;> exact ⟨by simp, rfl⟩

/-- NONFINITE at the lowest non-finite element of a command's source buffer (R108). -/
def NonFiniteError (source : Option Fmt) (s : State) (e : CmdError) : Prop :=
  e.code = .nonFinite ∧ ∃ F, source = some F ∧ firstNonFinite F s.mem s.src s.n = some e.index

theorem nonFiniteError_of_finiteElems {F : Fmt} {s : State} {e : CmdError}
    (h : finiteElems F s.mem s.src s.n = .error e) : NonFiniteError (some F) s e := by
  obtain ⟨i, hi, rfl⟩ := finiteElems_error_iff.1 h
  exact ⟨rfl, F, rfl, hi⟩

/-- A command raises NONFINITE only from reading its elements; every other error has index 0 (R37, R195). -/
theorem error_index_cases {i : Instr} {s : State} {e : CmdError} (h : resultsOf s i = .error e) :
    PlainError e ∨ NonFiniteError (rawSource s i) s e := by
  cases i with
  | scan F =>
    simp only [resultsOf, doScan, bind_error_iff] at h
    obtain h | ⟨-, -, h | ⟨-, -, h | ⟨xs, -, h⟩⟩⟩ := h
    · exact .inl (plainError_of_check (by simp) h)
    · exact .inl (plainError_of_checkBuf h)
    · exact .inr (nonFiniteError_of_finiteElems h)
    · cases h
  | initb F qt eb =>
    simp only [resultsOf, doInitB, bind_error_iff] at h
    obtain h | ⟨-, -, h | ⟨b, -, h | ⟨c, -, h⟩⟩⟩ := h
    · exact .inl (plainError_of_check (by simp) h)
    · exact .inl (plainError_of_boundValue h)
    · exact .inl (plainError_of_computeScale h)
    · cases h
  | inits F qt eb =>
    simp only [resultsOf, doInitS, bind_error_iff] at h
    obtain h | ⟨-, -, h | ⟨-, -, h | ⟨-, -, h | ⟨xs, -, h | ⟨c, -, h⟩⟩⟩⟩⟩ := h
    · exact .inl (plainError_of_check (by simp) h)
    · exact .inl (plainError_of_check (by simp) h)
    · exact .inl (plainError_of_checkBuf h)
    · exact .inr (nonFiniteError_of_finiteElems h)
    · exact .inl (plainError_of_computeScale h)
    · cases h
  | quant =>
    simp only [resultsOf, doQuant, bind_error_iff] at h
    obtain h | ⟨-, -, h | ⟨-, -, h | ⟨-, -, h | ⟨xs, -, h⟩⟩⟩⟩ := h
    · exact .inl (plainError_of_check (by simp) h)
    · exact .inl (plainError_of_checkBuf h)
    · exact .inl (plainError_of_checkBuf h)
    · exact .inr (nonFiniteError_of_finiteElems h)
    · cases h
  | dequant =>
    simp only [resultsOf, doDequant, bind_error_iff] at h
    obtain h | ⟨-, -, h | ⟨-, -, h | ⟨-, -, h⟩⟩⟩ := h
    · exact .inl (plainError_of_check (by simp) h)
    · exact .inl (plainError_of_checkBuf h)
    · exact .inl (plainError_of_checkBuf h)
    · cases h
  | release => cases h

/-- A command word ends with ERR_INDEX 0 and no NONFINITE, or with NONFINITE at its source's lowest failing index. -/
theorem errIndex_cases {w : Word} {s t : State} (h : execCommand w s = .next t) :
    (t.err ≠ .nonFinite ∧ t.errIndex = 0) ∨
      ∃ i e, decode w = .ok i ∧ NonFiniteError (rawSource s i) s e ∧ t = s.raise (buildsInst i) e := by
  obtain ⟨i, hd, hi⟩ | ⟨-, rfl⟩ := execCommand_cases h
  · obtain ⟨r, -, rfl⟩ | ⟨e, he, rfl⟩ := exec_cases hi
    · exact .inl ⟨by simp, by simp⟩
    · obtain ⟨hcode, hindex⟩ | hnf := error_index_cases he
      · exact .inl ⟨by simpa using hcode, by simp [hindex]⟩
      · exact .inr ⟨i, e, hd, hnf, rfl⟩
  · exact .inl ⟨by simp, by simp⟩

/-- Settles O5: the index fits its register, being below COUNT, and is the lowest by what `FirstNonFinite` answers. -/
theorem errIndexIsTheLowestNonFiniteElement : Obligations.ErrIndexIsTheLowestNonFiniteElement := by
  intro w s t h
  obtain ⟨herr, hindex⟩ | ⟨i, e, hd, ⟨hcode, F, hF, hfirst⟩, rfl⟩ := errIndex_cases h
  · exact ⟨fun _ => hindex, fun hn => absurd hn herr⟩
  · obtain ⟨hlt, hnone, hlow⟩ := firstNonFinite_some_iff.1 hfirst
    have hfits : (BitVec.ofNat 32 e.index).toNat = e.index :=
      Nat.mod_eq_of_lt (hlt.trans s.count.isLt)
    refine ⟨fun hn => absurd (by simp [hcode]) hn, fun _ => ⟨i, F, hd, hF, ?_⟩⟩
    rw [raise_errIndex, hfits]
    exact ⟨hlt, hnone, hlow⟩

end Sys2Proof.Machine
end

section
/-! # Which commands write the bound, SATCNT and the group `Inst` (R32, R40, R43, R44, R110) -/

namespace Sys2Proof.Machine

open Sys2Proof.Claims

/-! ### The bound -/

theorem bound_of_resultsOf {i : Instr} {s r : State} (h : resultsOf s i = .ok r) :
    r.boundLo = s.boundLo ∧ r.boundHi = s.boundHi := by
  cases commandResult_of_resultsOf h <;> exact ⟨rfl, rfl⟩

theorem bound_of_execCommand {w : Word} {s t : State} (h : execCommand w s = .next t) :
    t.boundLo = s.boundLo ∧ t.boundHi = s.boundHi := by
  obtain ⟨i, -, hi⟩ | ⟨-, rfl⟩ := execCommand_cases h
  · obtain ⟨r, hr, rfl⟩ | ⟨e, -, rfl⟩ := exec_cases hi
    · simpa using bound_of_resultsOf hr
    · exact ⟨by simp, by simp⟩
  · exact ⟨rfl, rfl⟩

/-- A pair holds its two registers side by side (R31). -/
theorem toNat_ofPair (hi lo : Word) : (Pattern.ofPair hi lo).toNat = hi.toNat * 2 ^ 32 + lo.toNat := by
  have := hi.isLt
  have := lo.isLt
  rw [Pattern.ofPair, BitVec.toNat_ofNat, Nat.mod_eq_of_lt (by omega)]

/-- BOUND_HI rewritten. -/
def State.setBoundHi (h : Word) (s : State) : State := { s with boundHi := h }

/-- The results of a binary32 INITB, with another BOUND_HI (R40): the bound is read from BOUND_LO alone, and nothing else
that INITB reads is a register. -/
theorem doInitB_f32_setBoundHi (qt eb : Nat) (s : State) (h : Word) :
    doInitB .f32 qt eb (s.setBoundHi h) = State.setBoundHi h <$> doInitB .f32 qt eb s := by
  have hb : boundValue .f32 (s.setBoundHi h) = boundValue .f32 s := rfl
  rw [doInitB, doInitB, hb, map_bind]
  refine bind_congr fun _ => ?_
  rw [map_bind]
  refine bind_congr fun b => ?_
  rw [map_bind]
  exact bind_congr fun c => rfl

theorem exec_initb_f32_setBoundHi {qt eb : Nat} {s t : State} (h : Word)
    (hs : exec (.initb .f32 qt eb) s = .next t) :
    exec (.initb .f32 qt eb) (s.setBoundHi h) = .next (t.setBoundHi h) := by
  rw [exec_eq_finish, resultsOf, doInitB_f32_setBoundHi]
  obtain ⟨r, hr, rfl⟩ | ⟨e, he, rfl⟩ := exec_cases hs
  · rw [show doInitB .f32 qt eb s = .ok r from hr]
    rfl
  · rw [show doInitB .f32 qt eb s = .error e from he]
    rfl

/-- Settles O6: a binary32 INITB reads BOUND_LO alone, the pair's number, and the frame of the bound. -/
theorem boundIsReadInTheCommandsFormat : Obligations.BoundIsReadInTheCommandsFormat := by
  refine ⟨fun qt eb s t h hs => exec_initb_f32_setBoundHi h hs, fun s => ⟨?_, toNat_ofPair _ _⟩,
    fun w s t h => bound_of_execCommand h⟩
  rw [boundPattern, toNat_ofPair]
  simp

/-! ### SATCNT -/

/-- Of the commands that succeed, only QUANT writes SATCNT (R43). -/
theorem satCnt_of_resultsOf {i : Instr} {s r : State} (h : resultsOf s i = .ok r) :
    i = .quant ∨ r.satCnt = s.satCnt := by
  cases commandResult_of_resultsOf h with
  | quant vs k hdst => exact .inl rfl
  | _ => exact .inr rfl

theorem satCnt_of_execCommand {w : Word} {s t : State} (h : execCommand w s = .next t) :
    t.satCnt = s.satCnt ∨ (w = 0x00000004 ∧ t.err = .none) := by
  obtain ⟨i, hd, hi⟩ | ⟨-, rfl⟩ := execCommand_cases h
  · obtain ⟨r, hr, rfl⟩ | ⟨e, -, rfl⟩ := exec_cases hi
    · obtain rfl | hsame := satCnt_of_resultsOf hr
      · exact .inr ⟨eq_of_decode_quant hd, rfl⟩
      · exact .inl hsame
    · exact .inl (by simp)
  · exact .inl rfl

/-- Settles O7, by the effect of the step. -/
theorem onlyQuantWritesSatCnt : Obligations.OnlyQuantWritesSatCnt := by
  intro s t h hne
  cases stepEffect_of_step h with
  | quiet hk => exact absurd hk.satCnt hne
  | memWrite a v rest hp ht =>
    obtain ⟨m, hm⟩ := hostMemWrite_eq_setMem a v { s with pending := rest }
    exact absurd (by rw [ht, hm]; rfl) hne
  | command w rest hp hc =>
    obtain hsame | ⟨rfl, hnone⟩ := satCnt_of_execCommand hc
    · exact absurd hsame hne
    · exact ⟨_, rest, hp, .inl ⟨rfl, hnone⟩⟩
  | reset rest hp ht => exact ⟨_, rest, hp, .inr (.inl rfl)⟩
  | resetDuring w rest hp ht => exact ⟨_, rest, hp, .inr (.inr ⟨w, rfl⟩)⟩

/-! ### The group `Inst` -/

theorem buildsInst_eq_isSome_construction (i : Instr) : buildsInst i = (construction i).isSome := by cases i <;> rfl

/-- Of the commands that succeed, RELEASE discards the group `Inst`, a construction builds one and every other keeps it
(R32, R44). -/
theorem inst_of_resultsOf {i : Instr} {s r : State} (h : resultsOf s i = .ok r) :
    r.inst = s.inst ∨ (i = .release ∧ r.inst = Inst.absent) ∨ (construction i).isSome := by
  cases commandResult_of_resultsOf h with
  | construct hi ha hc => exact .inr (.inr (by simp [hi]))
  | release => exact .inr (.inl ⟨rfl, rfl⟩)
  | _ => exact .inl rfl

/-- A command word keeps the group `Inst`, or discards it by RELEASE or a failed construction, or builds one (R44,
R112). -/
theorem inst_of_execCommand {w : Word} {s t : State} (h : execCommand w s = .next t) :
    t.inst = s.inst ∨ ∃ i, decode w = .ok i ∧
      ((t.inst = Inst.absent ∧ (i = .release ∨ (construction i).isSome)) ∨ (t.err = .none ∧ (construction i).isSome)) := by
  obtain ⟨i, hd, hi⟩ | ⟨-, rfl⟩ := execCommand_cases h
  · obtain ⟨r, hr, rfl⟩ | ⟨e, -, rfl⟩ := exec_cases hi
    · obtain hsame | ⟨rfl, habsent⟩ | hbuilds := inst_of_resultsOf hr
      · exact .inl hsame
      · exact .inr ⟨_, hd, .inl ⟨habsent, .inl rfl⟩⟩
      · exact .inr ⟨i, hd, .inr ⟨rfl, hbuilds⟩⟩
    · rw [raise_inst]
      split
      next hb => exact .inr ⟨i, hd, .inl ⟨rfl, .inr (buildsInst_eq_isSome_construction i ▸ hb)⟩⟩
      next => exact .inl rfl
  · exact .inl rfl

/-- Settles O8, by the effect of the step. -/
theorem onlyConstructionAndReleaseWriteTheInstance : Obligations.OnlyConstructionAndReleaseWriteTheInstance := by
  intro s t h hne
  cases stepEffect_of_step h with
  | quiet hk => exact absurd hk.inst hne
  | memWrite a v rest hp ht =>
    obtain ⟨m, hm⟩ := hostMemWrite_eq_setMem a v { s with pending := rest }
    exact absurd (by rw [ht, hm]; rfl) hne
  | command w rest hp hc =>
    obtain hsame | ⟨i, hd, ⟨habsent, hi⟩ | ⟨hnone, hi⟩⟩ := inst_of_execCommand hc
    · exact absurd hsame hne
    · exact ⟨_, rest, hp, .inl ⟨w, i, rfl, hd, hi⟩, fun hv => by simp [habsent, Inst.absent] at hv⟩
    · exact ⟨_, rest, hp, .inl ⟨w, i, rfl, hd, .inr hi⟩, fun _ => ⟨hnone, w, i, rfl, hd, hi⟩⟩
  | reset rest hp ht =>
    subst ht
    exact ⟨_, rest, hp, .inr (.inl rfl), fun hv => absurd hv (by simp [State.reset, Inst.absent])⟩
  | resetDuring w rest hp ht =>
    subst ht
    exact ⟨_, rest, hp, .inr (.inr ⟨w, rfl⟩), fun hv => by simp [resetDuringCommand, State.reset, Inst.absent] at hv⟩

end Sys2Proof.Machine
end

section
/-! # STATUS (R35, R190) -/

namespace Sys2Proof.Machine

open Sys2Proof.Claims

/-- STATUS is the sum of its fields, none of which reaches into the next (R35). -/
theorem toNat_statusWord (i : Inst) (e : ErrCode) :
    (statusWord i e).toNat = 65536 * (errCode e).toNat + 64 * i.eb.toNat + 8 * i.qtype.toNat
      + 4 * (fmtBit i.fmt).toNat + 2 * i.degen.toNat + i.valid.toNat := by
  have herr := (errCode e).isLt
  have heb := i.eb.isLt
  have hqtype := i.qtype.isLt
  have hfmt := (fmtBit i.fmt).toNat_lt
  have hdegen := i.degen.toNat_lt
  have hvalid := i.valid.toNat_lt
  simp only [statusWord, placeField, BitVec.toNat_ofNat]
  omega

theorem getLsbD_eq_of_toNat {w : Word} {k : Nat} {b : Bool} (h : w.toNat / 2 ^ k % 2 = b.toNat) : w.getLsbD k = b :=
  by rw [← Bool.ofNat_toNat b, ← h, ← toNat_getLsbD_eq, Bool.ofNat_toNat]

theorem extractLsb'_eq_of_toNat {w : Word} {lo len : Nat} {x : BitVec len}
    (h : w.toNat / 2 ^ lo % 2 ^ len = x.toNat) : w.extractLsb' lo len = x :=
  BitVec.eq_of_toNat_eq (by rw [toNat_extractLsb'_eq, h])

/-- A step that changes STATUS is a command or a reset (R35). -/
theorem status_of_step {s t : State} (h : step s = .next t) (hne : readReg .status t ≠ readReg .status s) :
    ∃ x rest, s.pending = x :: rest ∧ ((∃ w, x = .regWrite 0x04 w) ∨ x = .reset ∨ ∃ w, x = .resetDuring w) := by
  cases stepEffect_of_step h with
  | quiet hk => exact absurd (by rw [readReg, readReg, hk.inst, hk.err]) hne
  | memWrite a v rest hp ht =>
    obtain ⟨m, hm⟩ := hostMemWrite_eq_setMem a v { s with pending := rest }
    exact absurd (by rw [ht, hm]; rfl) hne
  | command w rest hp hc => exact ⟨_, rest, hp, .inl ⟨w, rfl⟩⟩
  | reset rest hp ht => exact ⟨_, rest, hp, .inr (.inl rfl)⟩
  | resetDuring w rest hp ht => exact ⟨_, rest, hp, .inr (.inr ⟨w, rfl⟩)⟩

/-- Settles O4: each field is read off the sum. -/
theorem statusHoldsItsFields : Obligations.StatusHoldsItsFields := by
  refine ⟨fun s => ?_, by decide, by decide, fun s t => status_of_step⟩
  have hsum := toNat_statusWord s.inst s.err
  have herr := (errCode s.err).isLt
  have heb := s.inst.eb.isLt
  have hqtype := s.inst.qtype.isLt
  have hfmt := (fmtBit s.inst.fmt).toNat_lt
  have hdegen := s.inst.degen.toNat_lt
  have hvalid := s.inst.valid.toNat_lt
  simp only [readReg]
  refine ⟨getLsbD_eq_of_toNat ?_, getLsbD_eq_of_toNat ?_, getLsbD_eq_of_toNat ?_, extractLsb'_eq_of_toNat ?_,
    extractLsb'_eq_of_toNat ?_, extractLsb'_eq_of_toNat ?_, extractLsb'_eq_of_toNat ?_,
    extractLsb'_eq_of_toNat ?_⟩ <;> simp only [hsum, BitVec.ofNat_eq_ofNat, BitVec.toNat_zero] <;> omega

end Sys2Proof.Machine
end

section
/-! # The state after power-on (R33, R46, R160) -/

namespace Sys2Proof.Machine

open Sys2Proof.Claims

theorem readReg_reset (r : RegName) : readReg r State.reset = if r = .caps then 0x001F0103 else 0 := by
  cases r <;> decide

theorem regOffset_eq_zero_iff (r : RegName) : regOffset r = 0x00 ↔ r = .caps := by cases r <;> decide

theorem registersReset_reset : RegistersReset State.reset := by
  intro off _
  unfold regRead
  split
  next r hr =>
    rw [readReg_reset, ← regOffset_of_regAt hr]
    simp only [regOffset_eq_zero_iff]
  next hnone =>
    rw [if_neg]
    rintro rfl
    exact absurd hnone (by decide)

/-- With VALID 0, a command that needs a Scale fails at its first check (R160, R195). -/
theorem exec_of_not_valid {i : Instr} {s : State} (hi : needsInstance i = true) (h : s.inst.valid = false) :
    exec i s = .next (s.setErr .noInstance 0) := by
  have hcheck : check s.inst.valid .noInstance = .error { code := .noInstance, index := 0 } :=
    check_error_iff.2 ⟨h, rfl⟩
  cases i with
  | quant =>
    rw [exec_eq_finish, resultsOf, doQuant, hcheck]
    rfl
  | dequant =>
    rw [exec_eq_finish, resultsOf, doDequant, hcheck]
    rfl
  | _ => cases hi

/-- Settles O9: the registers one by one, and the transforms' first check. -/
theorem powerOnStateHasItsResetValues : Obligations.PowerOnStateHasItsResetValues :=
  ⟨registersReset_reset, fun _ => rfl, exec_of_not_valid rfl rfl, exec_of_not_valid rfl rfl⟩

theorem instOk_absent : Inst.absent.Ok := by simp [Inst.Ok, Inst.absent]

/-- Settles O10: with VALID 0 and nothing written, only the parameters are left to check. -/
theorem resetStateMeetsTheInvariant : Obligations.ResetStateMeetsTheInvariant :=
  ⟨by decide, wf_reset, by simp [State.reset], instOk_absent, fun _ => rfl⟩

end Sys2Proof.Machine
end

section
/-! # The smallest Scale (R140, R141, R144)

An effective range of at most MAX_F has a quotient past the midpoint of 2^(14-emax) and the next representable number,
which is the smallest Scale; rounding to nearest cannot fall below it. -/

namespace Sys2Proof.Machine

open Sys2Proof.Claims

theorem emin_add_thirteen (F : Fmt) : emin F + (13 : Nat) = 14 - emax F := by
  have := emin_add_emax F
  push_cast
  omega

theorem isCanonical_two_pow_add {F : Fmt} {d j : Nat} (hd : d < 2 ^ (fPrec F - 1)) (hj : j ≤ maxShift F) :
    IsCanonical F (2 ^ (fPrec F - 1) + d) j :=
  ⟨by rw [two_pow_fPrec]; omega, fun _ => Nat.le_add_right _ _, hj⟩

theorem representable_floatMag {F : Fmt} {n j : Nat} (h : IsCanonical F n j) : Representable F (floatMag F n j) :=
  representable_iff.2 ⟨false, n, j, h, rfl⟩

/-- The smallest Scale is the successor of 2^(14-emax) in the format. -/
theorem minScale_eq_floatMag (F : Fmt) : minScale F = floatMag F (2 ^ (fPrec F - 1) + 1) 13 := by
  have hulp : pow2 (1 - fPrec F) * 2 ^ (fPrec F - 1) = 1 := by
    rw [← pow2_natCast, ← pow2_add]
    cases F <;> rfl
  rw [minScale, ← emin_add_thirteen, pow2_emin_add, floatMag_eq]
  push_cast
  linear_combination 2 ^ 13 * ulpMin F * hulp

theorem isCanonical_minScale (F : Fmt) : IsCanonical F (2 ^ (fPrec F - 1) + 1) 13 :=
  isCanonical_two_pow_add (by cases F <;> decide) (by cases F <;> decide)

theorem representable_minScale (F : Fmt) : Representable F (minScale F) :=
  minScale_eq_floatMag F ▸ representable_floatMag (isCanonical_minScale F)

theorem pow2_lt_minScale (F : Fmt) : pow2 (14 - emax F) < minScale F :=
  lt_mul_of_one_lt_left (pow2_pos _) (lt_add_of_pos_right 1 (pow2_pos _))

/-- Nothing representable lies between 2^(14-emax) and the smallest Scale. -/
theorem le_pow2_of_lt_minScale {F : Fmt} {v : ℚ} (hv : Representable F v) (h : v < minScale F) :
    v ≤ pow2 (14 - emax F) := by
  by_contra hlt
  have hlt := not_le.1 hlt
  have hu := two_pow_mul_ulpMin_pos F 13
  rw [← emin_add_thirteen] at hlt
  obtain ⟨k, rfl⟩ := exists_mul_unit_of_representable hv fun _ => hlt.le
  rw [pow2_emin_add] at hlt
  rw [minScale_eq_floatMag, floatMag_eq] at h
  have hlo : ((2 ^ (fPrec F - 1) : ℤ) : ℚ) < k := by exact_mod_cast lt_of_mul_lt_mul_right hlt hu.le
  have hhi : (k : ℚ) < ((2 ^ (fPrec F - 1) + 1 : ℤ) : ℚ) := by exact_mod_cast lt_of_mul_lt_mul_right h hu.le
  have := Int.cast_lt.1 hlo
  have := Int.cast_lt.1 hhi
  omega

/-- Past that midpoint a number rounds to the smallest Scale or above. -/
theorem minScale_le_of_rne {F : Fmt} {q v : ℚ} (hq : pow2 (14 - emax F) + minScale F < 2 * q)
    (hv : rne F q = .fin v) : minScale F ≤ v := by
  obtain ⟨hround, -⟩ := rneRoundsToNearestEven F q
  obtain ⟨hrep, hnearest⟩ := hround v hv
  obtain ⟨hnear, -⟩ := hnearest _ (representable_minScale F)
  by_contra hlt
  have hlt := not_le.1 hlt
  have hgap := le_pow2_of_lt_minScale hrep hlt
  have hstep := pow2_lt_minScale F
  rw [abs_of_pos (by linarith : (0 : ℚ) < q - v), le_abs] at hnear
  obtain h | h := hnear <;> linarith

/-- The midpoint times MAX_F is 2^15 less 2^(15-2p). -/
theorem midpoint_mul_maxFinite_lt (F : Fmt) :
    (pow2 (14 - emax F) + minScale F) * maxFinite F < 2 * pow2 (qBits - 1) := by
  have hx := pow2_pos (1 - fPrec F)
  have hscale : pow2 (14 - emax F) * pow2 (emax F) = pow2 14 := by rw [← pow2_add, sub_add_cancel]
  have htop : pow2 (qBits - 1) = 2 * pow2 14 := by norm_num [qBits, pow2]
  have hprod : (pow2 (14 - emax F) + minScale F) * maxFinite F
      = (4 - pow2 (1 - fPrec F) * pow2 (1 - fPrec F)) * pow2 14 := by
    rw [minScale, maxFinite, ← hscale]
    ring
  rw [hprod, htop]
  nlinarith [mul_pos (mul_pos hx hx) (pow2_pos 14)]

/-- A range that passes the guard of R139 has its quotient past the midpoint. -/
theorem midpoint_lt_quotient {F : Fmt} {b : ℚ} (h0 : 0 < b) (hb : b ≤ maxFinite F) :
    pow2 (14 - emax F) + minScale F < 2 * (pow2 (qBits - 1) / b) := by
  have hpos : 0 < pow2 (14 - emax F) + minScale F := add_pos (pow2_pos _) ((pow2_pos _).trans (pow2_lt_minScale F))
  rw [← mul_div_assoc, lt_div_iff₀ h0]
  exact (mul_le_mul_of_nonneg_left hb hpos.le).trans_lt (midpoint_mul_maxFinite_lt F)

theorem representable_one (F : Fmt) : Representable F 1 := by
  obtain ⟨j, hj, hone⟩ : ∃ j ≤ maxShift F, emin F + (j : Nat) = 0 := by
    cases F
    · exact ⟨126, by decide, rfl⟩
    · exact ⟨1022, by decide, rfl⟩
  have h := representable_floatMag (isCanonical_two_pow_add (F := F) (d := 0) (by positivity) hj)
  rw [add_zero, floatMag_eq, Nat.cast_pow, Nat.cast_ofNat, ← pow2_emin_add, hone] at h
  simpa [pow2] using h

theorem minScale_le_one (F : Fmt) : minScale F ≤ 1 := by
  have h := floatMag_lt_pow2 13 (isCanonical_minScale F).sig_lt
  have htop : pow2 (emin F + (13 : Nat) + 1) ≤ pow2 0 := pow2_le_pow2_iff.2 (by cases F <;> decide)
  rw [← minScale_eq_floatMag] at h
  exact h.le.trans (htop.trans_eq (by simp [pow2]))

/-- Every Scale `ComputeScale` yields is representable and at least the smallest one, and a degenerate one is 1 (R141,
R144). -/
theorem computeScale_spec {F : Fmt} {a scale : ℚ} {E : Nat} {degen : Bool} (ha : 0 ≤ a)
    (h : computeScale F a E = .ok (scale, degen)) :
    Representable F scale ∧ minScale F ≤ scale ∧ (degen = true → scale = 1) := by
  obtain ⟨hguard, ⟨-, rfl, -⟩ | ⟨hne, hdiv, rfl⟩⟩ := computeScale_ok_iff.1 h
  · exact ⟨representable_one F, minScale_le_one F, fun _ => rfl⟩
  · have hpos : 0 < a * pow2 E := lt_of_le_of_ne (mul_nonneg ha (pow2_pos _).le) hne.symm
    obtain ⟨hround, -⟩ := rneRoundsToNearestEven F (pow2 (qBits - 1) / (a * pow2 E))
    obtain ⟨hrep, -⟩ := hround scale hdiv
    exact ⟨hrep, minScale_le_of_rne (midpoint_lt_quotient hpos hguard) hdiv, by simp⟩

end Sys2Proof.Machine
end

section
/-! # The invariant of the machine (R36, R37, R60, R144) -/

namespace Sys2Proof.Machine

open Sys2Proof.Claims

/-! ### The group `Inst` a construction installs -/

/-- A pair holds a pattern as its two halves (R31). -/
theorem ofPair_hi_lo (p : Pattern) : Pattern.ofPair p.hi p.lo = p := by
  apply BitVec.eq_of_toNat_eq
  rw [toNat_ofPair]
  have := p.isLt
  simp only [Pattern.hi, Pattern.lo, BitVec.toNat_ofNat]
  omega

/-- An encoding is a pattern of W bits (R15, R17). -/
theorem toNat_encodeF_lt (F : Fmt) (v : FpNum) : (encodeF F v).toNat < 2 ^ fWidth F := by
  have hpack (neg : Bool) (m : Nat) : (packBits F neg m).toNat < 2 ^ fWidth F := by
    rw [packBits, BitVec.toNat_ofNat]
    exact (Nat.mod_le _ _).trans_lt (Nat.mod_lt _ (by positivity))
  cases v <;> exact hpack _ _

/-- A binary32 encoding leaves the high register of its pair 0 (R31). -/
theorem hi_encodeF_f32 (v : FpNum) : (encodeF .f32 v).hi = 0 := by
  have hzero : (encodeF .f32 v).toNat / 2 ^ 32 = 0 := Nat.div_eq_of_lt (toNat_encodeF_lt .f32 v)
  rw [Pattern.hi, hzero]
  rfl

theorem decodeFinite_encodeF {F : Fmt} {v : ℚ} (h : Representable F v) :
    decodeFinite F (encodeF F (.fin v)) = some v := by
  obtain ⟨b, hb⟩ := h
  obtain ⟨hround, -⟩ := encodeFInvertsDecodeF F
  obtain ⟨hdecode, -⟩ := hround b v hb
  rw [decodeFinite, hdecode]

theorem instOk_install {F : Fmt} {eb E : Nat} {a scale : ℚ} {degen : Bool} (s : State) (ha : 0 ≤ a)
    (h : computeScale F a E = .ok (scale, degen)) : (install F 0 eb a scale degen s).inst.Ok := by
  obtain ⟨hrep, hmin, hdegen⟩ := computeScale_spec ha h
  have hscale : (install F 0 eb a scale degen s).inst.scale = encodeF F (.fin scale) := ofPair_hi_lo _
  rw [Inst.Ok, if_pos (by rfl), hscale]
  exact ⟨⟨scale, decodeFinite_encodeF hrep, hmin, hdegen⟩, by rintro rfl; exact hi_encodeF_f32 _, rfl⟩

/-- The results of a command hold a good group `Inst`, or the absent one (R36). -/
theorem instOk_of_resultsOf {i : Instr} {s r : State} (hs : s.inst.Ok) (h : resultsOf s i = .ok r) : r.inst.Ok := by
  cases commandResult_of_resultsOf h with
  | construct hi ha hc => exact instOk_install s ha hc
  | release => exact instOk_absent
  | _ => exact hs

/-! ### Memory -/

/-- Buffer memory in its canonical form and inside MEM_BYTES (R60). -/
structure MemoryOk (p : Params) (m : Memory) : Prop where
  wf : m.wf
  within : m.Within p.memBytes

/-- Elements stored in a buffer that passed its checks stay inside memory (R66, R106). -/
theorem memoryOk_putAll {p : Params} {m : Memory} {base es : Nat} {vs : List Nat} (hm : MemoryOk p m)
    (h : checkBuf p base es vs.length = .ok ()) : MemoryOk p (m.putAll es base vs) := by
  refine ⟨wf_putAll es vs base hm.wf, ?_⟩
  obtain hempty | ⟨-, hrange⟩ := checkBuf_ok_iff.1 h
  · obtain rfl := List.length_eq_zero_iff.1 hempty
    exact hm.within
  · exact within_putAll es vs base hm.within (by rwa [mul_comm])

theorem memoryOk_of_resultsOf {i : Instr} {s r : State} (hs : MemoryOk s.params s.mem) (h : resultsOf s i = .ok r) :
    MemoryOk s.params r.mem := by
  cases commandResult_of_resultsOf h with
  | quant vs k hdst => exact memoryOk_putAll hs hdst
  | dequant vs hdst => exact memoryOk_putAll hs hdst
  | _ => exact hs

theorem memoryOk_hostMemWrite {s : State} (a : Word) (v : Byte) (hs : MemoryOk s.params s.mem) :
    MemoryOk s.params (hostMemWrite a v s).mem := by
  unfold hostMemWrite
  split
  next ha => exact ⟨wf_write hs.wf _ _, within_write hs.within ha _⟩
  next => exact hs

theorem destBytes_le (w : Word) (s : State) : destBytes w s ≤ s.params.memBytes - s.dst := by
  unfold destBytes
  split <;> omega

/-- The draws of an abandoned command stay inside memory, its destination being clipped to it (R221). -/
theorem memoryOk_resetDuringCommand {s : State} (w : Word) (hs : MemoryOk s.params s.mem) :
    MemoryOk s.params (resetDuringCommand w s).mem := by
  have hle := destBytes_le w s
  refine ⟨wf_drawAll _ _ _ hs.wf, ?_⟩
  obtain hout | hin := le_total s.params.memBytes s.dst
  · have hnone : destBytes w s = 0 := by omega
    simpa [resetDuringCommand, hnone, Memory.drawAll] using hs.within
  · exact within_drawAll _ _ _ hs.within (by omega)

/-! ### Every step -/

/-- The invariant after a command, from its parts: what a command leaves to check is memory and `Inst`. -/
theorem inv_of_execCommand {w : Word} {s t : State} (hs : s.Inv) (h : execCommand w s = .next t) : t.Inv := by
  obtain ⟨hlegal, hwf, hwithin, hinst, -⟩ := hs
  have hparams := (sameHostSide_of_execCommand h).params
  have hindex : t.err ≠ .nonFinite → t.errIndex = 0 := (errIndexIsTheLowestNonFiniteElement w s t h).1
  suffices hparts : MemoryOk s.params t.mem ∧ t.inst.Ok by
    obtain ⟨hmem, hok⟩ := hparts
    exact ⟨hparams ▸ hlegal, hmem.wf, hparams ▸ hmem.within, hok, hindex⟩
  obtain ⟨i, -, hi⟩ | ⟨-, rfl⟩ := execCommand_cases h
  · obtain ⟨r, hr, rfl⟩ | ⟨e, -, rfl⟩ := exec_cases hi
    · rw [commit_mem, commit_inst]
      exact ⟨memoryOk_of_resultsOf ⟨hwf, hwithin⟩ hr, instOk_of_resultsOf hinst hr⟩
    · rw [raise_mem, raise_inst]
      exact ⟨⟨hwf, hwithin⟩, by split <;> [exact instOk_absent; exact hinst]⟩
  · exact ⟨⟨hwf, hwithin⟩, hinst⟩

/-- Settles O11: each effect of a step keeps the parts of the invariant. -/
theorem everyStepKeepsTheInvariant : Obligations.EveryStepKeepsTheInvariant := by
  intro s t hs h
  obtain ⟨hlegal, hwf, hwithin, hinst, hindex⟩ := hs
  cases stepEffect_of_step h with
  | quiet hk =>
    obtain ⟨hinst', herr', hindex', -, hmem', hparams'⟩ := hk
    rw [State.Inv, hinst', herr', hindex', hmem', hparams']
    exact ⟨hlegal, hwf, hwithin, hinst, hindex⟩
  | memWrite a v rest hp ht =>
    have hmem := memoryOk_hostMemWrite (s := { s with pending := rest }) a v ⟨hwf, hwithin⟩
    obtain ⟨m, hm⟩ := hostMemWrite_eq_setMem a v { s with pending := rest }
    rw [ht]
    rw [hm] at hmem ⊢
    exact ⟨hlegal, hmem.wf, hmem.within, hinst, hindex⟩
  | command w rest hp hc =>
    exact inv_of_execCommand (s := { s with pending := rest }) ⟨hlegal, hwf, hwithin, hinst, hindex⟩ hc
  | reset rest hp ht =>
    rw [ht]
    exact ⟨hlegal, hwf, hwithin, instOk_absent, fun _ => rfl⟩
  | resetDuring w rest hp ht =>
    have hmem := memoryOk_resetDuringCommand (s := { s with pending := rest }) w ⟨hwf, hwithin⟩
    rw [ht]
    exact ⟨hlegal, hmem.wf, hmem.within, instOk_absent, fun _ => rfl⟩

end Sys2Proof.Machine
end

section
/-! # The memory port (R61, R63, R70)

One step of the port, then any number of reads in a row. -/

namespace Sys2Proof.Machine

theorem hostMemRead_of_lt {a : Word} {s : State} (h : a.toNat < s.params.memBytes) :
    hostMemRead a s = s.mem.byte a.toNat := if_pos h

theorem hostMemRead_of_le {a : Word} {s : State} (h : s.params.memBytes ≤ a.toNat) : hostMemRead a s = 0 :=
  if_neg h.not_gt

theorem hostMemWrite_of_lt {a : Word} {s : State} (v : Byte) (h : a.toNat < s.params.memBytes) :
    hostMemWrite a v s = s.setMem (s.mem.write a.toNat v) := if_pos h

theorem hostMemWrite_of_le {a : Word} {s : State} (v : Byte) (h : s.params.memBytes ≤ a.toNat) :
    hostMemWrite a v s = s := if_neg h.not_gt

/-- A step is the host's next access, at the state that no longer lists it (R25, R101). -/
theorem step_of_pending {s : State} {x : HostAccess} {rest : List HostAccess} (h : s.pending = x :: rest) :
    step s = hostAccess x { s with pending := rest } := by
  obtain ⟨hnone, -⟩ | ⟨y, rest', hsome, hstep⟩ := step_cases s
  · simp [hnone] at h
  · obtain ⟨rfl, rfl⟩ := List.cons.inj (h.symm.trans hsome)
    exact hstep

/-- A read of the port records the byte it returns and changes nothing else (R61). -/
theorem step_memRead {s : State} {a : Word} {rest : List HostAccess} (h : s.pending = .memRead a :: rest) :
    step s = .next { s with pending := rest, observed := .mem a (hostMemRead a s) :: s.observed } := step_of_pending h

/-- Inside memory a write of the port changes its byte and nothing else (R61). -/
theorem step_memWrite_of_lt {s : State} {a : Word} {v : Byte} {rest : List HostAccess}
    (h : s.pending = .memWrite a v :: rest) (ha : a.toNat < s.params.memBytes) :
    step s = .next { s with mem := s.mem.write a.toNat v, pending := rest } := by
  have hwrite := hostMemWrite_of_lt (s := { s with pending := rest }) v ha
  exact (step_of_pending h).trans (congrArg Host.Outcome.next hwrite)

/-- Outside memory a write of the port is ignored (R63). -/
theorem step_memWrite_of_le {s : State} {a : Word} {v : Byte} {rest : List HostAccess}
    (h : s.pending = .memWrite a v :: rest) (ha : s.params.memBytes ≤ a.toNat) :
    step s = .next { s with pending := rest } := by
  have hwrite := hostMemWrite_of_le (s := { s with pending := rest }) v ha
  exact (step_of_pending h).trans (congrArg Host.Outcome.next hwrite)

/-- Settles O13: one step of the port at an address outside memory. -/
theorem memoryPortStopsAtMemBytes : Obligations.MemoryPortStopsAtMemBytes := by
  intro s rest a ha
  refine ⟨fun hread => ?_, fun v hwrite => step_memWrite_of_le hwrite ha⟩
  rw [step_memRead hread, hostMemRead_of_le ha]

/-- A run takes its first step and goes on from the state that step answers. -/
theorem run_succ_of_step {s t : State} (k : Nat) (h : step s = .next t) :
    Sys2Proof.core.run (k + 1) s = Sys2Proof.core.run k t := by
  have hcore : Sys2Proof.core.step s = .next t := h
  simp only [Host.Core.run, hcore]

/-- Reads in a row all return the same byte: a read leaves memory as it is (R70). -/
theorem run_memReads (a : Word) (v : Byte) (rest : List HostAccess) (k : Nat) : ∀ {s : State}, hostMemRead a s = v →
    s.pending = List.replicate k (.memRead a) ++ rest →
    Sys2Proof.core.run k s =
      .next { s with pending := rest, observed := List.replicate k (.mem a v) ++ s.observed } := by
  induction k with
  | zero =>
    rintro s - rfl
    rfl
  | succ k ih =>
    intro s hread hp
    have hstep := step_memRead hp
    rw [hread] at hstep
    have hrun := (run_succ_of_step k hstep).trans (ih hread rfl)
    rwa [List.append_cons, ← List.replicate_succ'] at hrun

/-- Settles O14: the write, then the reads in a row, each of which returns the byte written. -/
theorem memoryPortReadsTheLastWrite : Obligations.MemoryPortReadsTheLastWrite := by
  intro s rest a v k ha hp
  have hread := (hostMemRead_of_lt (a := a) (s := { s with
    mem := s.mem.write a.toNat v, pending := List.replicate k (.memRead a) ++ rest }) ha).trans (byte_write_same _ _ v)
  exact ⟨_, (run_succ_of_step k (step_memWrite_of_lt hp ha)).trans (run_memReads a v rest k hread rfl), rfl,
    byte_write_same _ _ v, fun _ hb => byte_write_other _ v hb⟩

end Sys2Proof.Machine
end

section
/-! # The word of a command is its encoding (R80, R86) -/

namespace Sys2Proof

theorem fmtBit_fmtOfBit (b : Bool) : fmtBit (fmtOfBit b) = b := by cases b <;> rfl

/-- A word whose reserved bits are 0 is put together from its own fields (R80, R85). -/
theorem commandWord_fields {w : Word} {op : BitVec 4} (hres : w.extractLsb' 13 19 = 0)
    (hop : (w.extractLsb' 0 4).toNat = op.toNat) :
    commandWord (w.extractLsb' 8 5).toNat (w.extractLsb' 5 3).toNat (w.getLsbD 4) op = w := by
  have heb := (w.extractLsb' 8 5).isLt
  have hqt := (w.extractLsb' 5 3).isLt
  have hreserved : (w.extractLsb' 13 19).toNat = 0 := by rw [hres]; rfl
  apply BitVec.eq_of_toNat_eq
  rw [Laws.OpcodeField.toNat_commandWord, Nat.mod_eq_of_lt heb, Nat.mod_eq_of_lt hqt, toNat_eq_fields w]
  omega

/-- A word whose FMT, QTYPE and EB must be 0, and are, is its OP code (R86). -/
theorem commandWord_of_ifUnused {w : Word} {i j : Instr} (hres : w.extractLsb' 13 19 = 0)
    (hop : (w.extractLsb' 0 4).toNat = (opcode i).toNat)
    (h : ifUnused (!w.getLsbD 4 && (w.extractLsb' 5 3).toNat == 0 && (w.extractLsb' 8 5).toNat == 0) i = .ok j) :
    i = j ∧ commandWord 0 0 false (opcode i) = w := by
  obtain ⟨hunused, rfl⟩ := ifUnused_ok_iff.1 h
  simp only [Bool.and_eq_true, Bool.not_eq_true', beq_iff_eq] at hunused
  obtain ⟨⟨hfmt, hqt⟩, heb⟩ := hunused
  have hw := commandWord_fields hres hop
  rw [heb, hqt, hfmt] at hw
  exact ⟨rfl, hw⟩

/-- A word that decodes is the encoding of its command: the fields the command does not use are 0 (R86). -/
theorem encode_of_decode {w : Word} {i : Instr} (h : decode w = .ok i) : encode i = w := by
  simp only [decode] at h
  split at h
  · cases h
  next hne =>
    have hres := not_not.1 hne
    split at h
    case h_1 hop =>
      obtain ⟨hunused, rfl⟩ := ifUnused_ok_iff.1 h
      simp only [Bool.and_eq_true, beq_iff_eq] at hunused
      obtain ⟨hqt, heb⟩ := hunused
      have hw := commandWord_fields (op := 0x1) hres hop
      rw [heb, hqt] at hw
      rwa [encode, fmtBit_fmtOfBit]
    case h_2 hop =>
      obtain rfl := Except.ok.inj h
      rw [encode, fmtBit_fmtOfBit]
      exact commandWord_fields hres hop
    case h_3 hop =>
      obtain rfl := Except.ok.inj h
      rw [encode, fmtBit_fmtOfBit]
      exact commandWord_fields hres hop
    case h_4 hop =>
      obtain ⟨rfl, hword⟩ := commandWord_of_ifUnused (i := .quant) hres hop h
      exact hword
    case h_5 hop =>
      obtain ⟨rfl, hword⟩ := commandWord_of_ifUnused (i := .dequant) hres hop h
      exact hword
    case h_6 hop =>
      obtain ⟨rfl, hword⟩ := commandWord_of_ifUnused (i := .release) hres hop h
      exact hword
    case h_7 => cases h

/-- DEQUANT has one word, 5 (R86). -/
theorem eq_of_decode_dequant {w : Word} (h : decode w = .ok .dequant) : w = 0x00000005 := by
  rw [← encode_of_decode h]
  decide

end Sys2Proof
end

section
/-! # What writes buffer memory (R63, R67, R68, R221) -/

namespace Sys2Proof.Machine

/-- Of the commands that succeed, only the two transforms write memory (R67, R110). -/
theorem mem_of_resultsOf {i : Instr} {s r : State} (h : resultsOf s i = .ok r) :
    r.mem = s.mem ∨ i = .quant ∨ i = .dequant := by
  cases commandResult_of_resultsOf h with
  | quant vs k hdst => exact .inr (.inl rfl)
  | dequant vs hdst => exact .inr (.inr rfl)
  | _ => exact .inl rfl

theorem mem_of_execCommand {w : Word} {s t : State} (h : execCommand w s = .next t) :
    t.mem = s.mem ∨ ((w = 0x00000004 ∨ w = 0x00000005) ∧ t.err = .none) := by
  obtain ⟨i, hd, hi⟩ | ⟨-, rfl⟩ := execCommand_cases h
  · obtain ⟨r, hr, rfl⟩ | ⟨e, -, rfl⟩ := exec_cases hi
    · obtain hsame | rfl | rfl := mem_of_resultsOf hr
      · exact .inl hsame
      · exact .inr ⟨.inl (eq_of_decode_quant hd), rfl⟩
      · exact .inr ⟨.inr (eq_of_decode_dequant hd), rfl⟩
    · exact .inl (by simp)
  · exact .inl rfl

/-- Only the words of the two transforms have a destination (R67). -/
theorem destBytes_eq_zero_or (w : Word) (s : State) : destBytes w s = 0 ∨ w = 0x00000004 ∨ w = 0x00000005 := by
  unfold destBytes
  split
  next hd => exact .inr (.inl (eq_of_decode_quant hd))
  next hd => exact .inr (.inr (eq_of_decode_dequant hd))
  all_goals exact .inl rfl

/-- A reset draws bytes only when it abandons a transform (R221). -/
theorem mem_of_resetDuringCommand (w : Word) (s : State) :
    (resetDuringCommand w s).mem = s.mem ∨ w = 0x00000004 ∨ w = 0x00000005 := by
  obtain hnone | hw := destBytes_eq_zero_or w s
  · exact .inl (by simp [resetDuringCommand, hnone, Memory.drawAll])
  · exact .inr hw

/-- Settles O15, by the effect of the step. -/
theorem onlyTransformsAndThePortWriteMemory : Obligations.OnlyTransformsAndThePortWriteMemory := by
  intro s t h hne
  cases stepEffect_of_step h with
  | quiet hk => exact absurd hk.mem hne
  | memWrite a v rest hp ht => exact ⟨_, rest, hp, .inl ⟨a, v, rfl⟩⟩
  | command w rest hp hc =>
    obtain hsame | ⟨hw, hnone⟩ := mem_of_execCommand hc
    · exact absurd hsame hne
    · exact ⟨_, rest, hp, .inr (.inl ⟨by simpa using hw, hnone⟩)⟩
  | reset rest hp ht => exact absurd (by rw [ht]; rfl) hne
  | resetDuring w rest hp ht =>
    obtain hsame | rfl | rfl := mem_of_resetDuringCommand w { s with pending := rest }
    · exact absurd (ht ▸ hsame) hne
    · exact ⟨_, rest, hp, .inr (.inr (.inl rfl))⟩
    · exact ⟨_, rest, hp, .inr (.inr (.inr rfl))⟩

end Sys2Proof.Machine
end

section
/-! # The transforms complete, element by element (R69, R164, R166, R169, R172) -/

namespace Sys2Proof.Machine

open Sys2Proof.Claims

/-! ### Reading back a stored sequence -/

/-- Element `k` of a stored sequence reads back as its low bytes: the elements before it end where it begins, and those
after it begin where it ends (R67). -/
theorem readLE_putAll (w : Nat) (vs : List Nat) : ∀ (m : Memory) (a : Nat) {k : Nat} (hk : k < vs.length),
    (m.putAll w a vs).readLE (a + w * k) w = vs[k] % 256 ^ w := by
  induction vs with
  | nil => intro m a k hk; simp at hk
  | cons v vs ih =>
    intro m a k hk
    cases k with
    | zero =>
      calc (Memory.putAll w (m.writeLE a w v) (a + w) vs).readLE a w
          = (m.writeLE a w v).readLE a w := readLE_congr w a fun b _ hb => byte_putAll_outside w vs _ _ (.inl hb)
        _ = v % 256 ^ w := readLE_writeLE w m a v
    | succ k =>
      rw [Memory.putAll, show a + w * (k + 1) = a + w + w * k by ring]
      exact ih _ _ (by simpa using hk)

/-- A stored 16-bit integer reads back (R12, R107). -/
theorem qAt_putAll {m : Memory} {base k : Nat} {ys : List ℤ} (hk : k < ys.length)
    (hlo : -2 ^ 15 ≤ ys[k]) (hhi : ys[k] < 2 ^ 15) : qAt (m.putAll 2 base (ys.map bits16)) base k = ys[k] := by
  rw [qAt, readLE_putAll 2 _ m base (by simpa using hk), List.getElem_map,
    Nat.mod_eq_of_lt (b := 256 ^ 2) (bits16_lt _), toInt_bits16 hlo hhi]

theorem two_pow_fWidth (F : Fmt) : 2 ^ fWidth F = 256 ^ elemSize F := by cases F <;> rfl

/-- A stored pattern of a format reads back (R107). -/
theorem rawPattern_putAll {F : Fmt} {m : Memory} {base k : Nat} {vs : List FpNum} (hk : k < vs.length) :
    rawPattern F (m.putAll (elemSize F) base (vs.map fun v => (encodeF F v).toNat)) base k = encodeF F vs[k] := by
  have hfits := toNat_encodeF_lt F vs[k]
  rw [two_pow_fWidth] at hfits
  rw [rawPattern, mul_comm, readLE_putAll _ _ m base (by simpa using hk), List.getElem_map, Nat.mod_eq_of_lt hfits,
    BitVec.ofNat_toNat, BitVec.setWidth_eq]

/-! ### QUANT -/

/-- Q1 of each source element, in order: the integers QUANT stores, and which of them saturated (R164, R166). -/
def quantResults (s : State) : List (ℤ × Bool) :=
  (List.range s.n).map fun k =>
    quantElem s.params s.inst.fmt s.inst.scaleValue ((rawAt s.inst.fmt s.mem s.src k).getD 0)

/-- Q1 stores a 16-bit integer, under both readings of SYM_SAT (R11, R163). -/
theorem quantElem_int16 (p : Params) (F : Fmt) (scale x : ℚ) :
    -2 ^ 15 ≤ (quantElem p F scale x).1 ∧ (quantElem p F scale x).1 < 2 ^ 15 := by
  obtain ⟨hlo, hhi⟩ := quantElem_mem p F scale x
  have hmin : -2 ^ 15 ≤ qMin p := by
    unfold qMin
    split <;> decide
  have hmax : qMax < 2 ^ 15 := by decide
  exact ⟨hmin.trans hlo, hhi.trans_lt hmax⟩

theorem quantResults_length (s : State) : (quantResults s).length = s.n := by simp [quantResults]

/-- QUANT whose checks pass stores its results and their count of saturations, and commits (R166). -/
theorem exec_quant_of_ok {s : State} (hv : s.inst.valid = true) (hsrc : BufOk s s.src (elemSize s.inst.fmt))
    (hdst : BufOk s s.dst 2) (hfin : AllFinite s.inst.fmt s) :
    exec .quant s = .next (((s.setMem (s.mem.putAll 2 s.dst (((quantResults s).map Prod.fst).map bits16))).setSatCnt
      ((quantResults s).countP Prod.snd)).commit) := by
  have hresults : doQuant s = .ok _ := doQuant_ok_iff.2
    ⟨hv, checkBuf_ok_iff.2 hsrc, checkBuf_ok_iff.2 hdst, _, finiteElems_ok_iff.2 ⟨hfin, rfl⟩, rfl⟩
  rw [exec_eq_finish, resultsOf, hresults, finish_ok]
  simp [quantResults, Function.comp_def]

/-- The count of saturations fits SATCNT: it is at most COUNT (R39, R43). -/
theorem countP_quantResults_lt (s : State) : (quantResults s).countP Prod.snd < 2 ^ 32 :=
  (List.countP_le_length.trans_eq (quantResults_length s)).trans_lt s.count.isLt

/-- Settles O46: the elements read back, the count of saturations, and the frame of the store. -/
theorem quantStoresEveryElement : Obligations.QuantStoresEveryElement := by
  intro s hv hsrc hdst hfin
  refine ⟨_, exec_quant_of_ok hv hsrc hdst hfin, fun k hk x hx => ?_, ?_, fun b hb => ?_, rfl⟩
  · have hlen : k < ((quantResults s).map Prod.fst).length := by simpa [quantResults_length] using hk
    have hget : ((quantResults s).map Prod.fst)[k] = (quantElem s.params s.inst.fmt s.inst.scaleValue x).1 := by
      simp [quantResults, hx]
    obtain ⟨hlo, hhi⟩ := quantElem_int16 s.params s.inst.fmt s.inst.scaleValue x
    rw [← hget] at hlo hhi ⊢
    exact qAt_putAll hlen hlo hhi
  · rw [commit_satCnt, setSatCnt_satCnt, BitVec.toNat_ofNat, Nat.mod_eq_of_lt (countP_quantResults_lt s), quantResults,
      List.countP_map, List.countP_eq_length_filter]
    rfl
  · exact byte_putAll_outside _ _ _ _ (by simpa [quantResults_length, mul_comm] using hb)

/-! ### DEQUANT -/

/-- DQ1 of each source element, in order: the numbers whose patterns DEQUANT stores (R169, R172). -/
def dequantResults (s : State) : List FpNum :=
  (intElems s.mem s.src s.n).map (dequantElem s.inst.fmt s.inst.scaleValue)

theorem dequantResults_length (s : State) : (dequantResults s).length = s.n := by simp [dequantResults, intElems]

/-- DEQUANT whose checks pass stores the patterns of its results, and commits (R172). -/
theorem exec_dequant_of_ok {s : State} (hv : s.inst.valid = true) (hsrc : BufOk s s.src 2)
    (hdst : BufOk s s.dst (elemSize s.inst.fmt)) :
    exec .dequant s = .next (s.setMem (s.mem.putAll (elemSize s.inst.fmt) s.dst
      ((dequantResults s).map fun v => (encodeF s.inst.fmt v).toNat))).commit := by
  have hresults : doDequant s = .ok _ := doDequant_ok_iff.2 ⟨hv, checkBuf_ok_iff.2 hsrc, checkBuf_ok_iff.2 hdst, rfl⟩
  rw [exec_eq_finish, resultsOf, hresults, finish_ok, dequantResults]

/-- Settles O50: the patterns read back, and the frame of the store. -/
theorem dequantStoresEveryElement : Obligations.DequantStoresEveryElement := by
  intro s hv hsrc hdst
  refine ⟨_, exec_dequant_of_ok hv hsrc hdst, fun k hk => ?_, fun b hb => ?_, rfl⟩
  · have hlen : k < (dequantResults s).length := by simpa [dequantResults_length] using hk
    have hget : (dequantResults s)[k] = rne s.inst.fmt (qAt s.mem s.src k / s.inst.scaleValue) := by
      simp [dequantResults, intElems, dequantElem, divF]
    rw [← hget]
    exact rawPattern_putAll hlen
  · exact byte_putAll_outside _ _ _ _ (by simpa [dequantResults_length, mul_comm] using hb)

end Sys2Proof.Machine
end

section
/-! # Decoding and encoding are inverse (R80 to R88, R93)

Every fact about a command word is one about its five fields: what each field of `commandWord` holds, and that a word is
its fields. -/

namespace Sys2Proof

open Sys2Proof.Machine

/-! ### The fields of an encoded word -/

@[simp] theorem op_commandWord (eb qt : Nat) (f : Bool) (op : BitVec 4) :
    (commandWord eb qt f op).extractLsb' 0 4 = op := (Laws.OpcodeField.fields_of_commandWord eb qt f op).1

@[simp] theorem reserved_commandWord (eb qt : Nat) (f : Bool) (op : BitVec 4) :
    (commandWord eb qt f op).extractLsb' 13 19 = 0 := (Laws.OpcodeField.fields_of_commandWord eb qt f op).2

@[simp] theorem eb_commandWord (eb qt : Nat) (f : Bool) (op : BitVec 4) :
    (commandWord eb qt f op).extractLsb' 8 5 = BitVec.ofNat 5 eb := by
  have hop := op.isLt
  have hf := f.toNat_le
  apply extractLsb'_eq_of_toNat
  rw [Laws.OpcodeField.toNat_commandWord, BitVec.toNat_ofNat]
  omega

@[simp] theorem qtype_commandWord (eb qt : Nat) (f : Bool) (op : BitVec 4) :
    (commandWord eb qt f op).extractLsb' 5 3 = BitVec.ofNat 3 qt := by
  have hop := op.isLt
  have hf := f.toNat_le
  apply extractLsb'_eq_of_toNat
  rw [Laws.OpcodeField.toNat_commandWord, BitVec.toNat_ofNat]
  omega

@[simp] theorem fmt_commandWord (eb qt : Nat) (f : Bool) (op : BitVec 4) : (commandWord eb qt f op)[4] = f := by
  have hop := op.isLt
  have hf := f.toNat_le
  refine getLsbD_eq_of_toNat (k := 4) ?_
  rw [Laws.OpcodeField.toNat_commandWord]
  omega

/-- Two words with the same five fields are the same word (R80). -/
theorem eq_of_fields {v w : Word} (hres : v.extractLsb' 13 19 = w.extractLsb' 13 19)
    (heb : v.extractLsb' 8 5 = w.extractLsb' 8 5) (hqt : v.extractLsb' 5 3 = w.extractLsb' 5 3)
    (hfmt : v.getLsbD 4 = w.getLsbD 4) (hop : v.extractLsb' 0 4 = w.extractLsb' 0 4) : v = w := by
  apply BitVec.eq_of_toNat_eq
  rw [toNat_eq_fields v, toNat_eq_fields w, hres, heb, hqt, hfmt, hop]

/-! ### The round trips -/

@[simp] theorem fmtOfBit_fmtBit (F : Fmt) : fmtOfBit (fmtBit F) = F := by cases F <;> rfl

theorem wellFormed_initb_iff {F : Fmt} {qt eb : Nat} : (Instr.initb F qt eb).WellFormed ↔ qt < 8 ∧ eb < 32 := by
  simp [Instr.WellFormed, Instr.wf]

theorem wellFormed_inits_iff {F : Fmt} {qt eb : Nat} : (Instr.inits F qt eb).WellFormed ↔ qt < 8 ∧ eb < 32 := by
  simp [Instr.WellFormed, Instr.wf]

/-- Settles O16: the decoder reads the fields the encoder placed; an operand within its field is read back whole. -/
theorem decodeInvertsEncode : Obligations.DecodeInvertsEncode := by
  intro i hi
  cases i with
  | scan F => simp [decode, encode, opcode, ifUnused]
  | initb F qt eb =>
    obtain ⟨hqt, heb⟩ := wellFormed_initb_iff.1 hi
    simp [decode, encode, opcode, Nat.mod_eq_of_lt hqt, Nat.mod_eq_of_lt heb]
  | inits F qt eb =>
    obtain ⟨hqt, heb⟩ := wellFormed_inits_iff.1 hi
    simp [decode, encode, opcode, Nat.mod_eq_of_lt hqt, Nat.mod_eq_of_lt heb]
  | quant => rfl
  | dequant => rfl
  | release => rfl

/-- The decoder reads QTYPE from 3 bits and EB from 5, so what it answers is well formed (R83, R84). -/
theorem wellFormed_of_decode {w : Word} {i : Instr} (h : decode w = .ok i) : i.WellFormed := by
  have hqt := (w.extractLsb' 5 3).isLt
  have heb := (w.extractLsb' 8 5).isLt
  simp only [decode] at h
  split at h
  · cases h
  · split at h
    case h_2 =>
      obtain rfl := Except.ok.inj h
      exact wellFormed_initb_iff.2 ⟨hqt, heb⟩
    case h_3 =>
      obtain rfl := Except.ok.inj h
      exact wellFormed_inits_iff.2 ⟨hqt, heb⟩
    case h_7 => cases h
    all_goals
      obtain ⟨-, rfl⟩ := ifUnused_ok_iff.1 h
      rfl

/-- Settles O17. -/
theorem encodeInvertsDecode : Obligations.EncodeInvertsDecode :=
  fun _ _ h => ⟨wellFormed_of_decode h, encode_of_decode h⟩

/-- The words of a command are exactly its encoding (R88). -/
theorem decode_ok_iff {w : Word} {i : Instr} : decode w = .ok i ↔ i.WellFormed ∧ w = encode i := by
  constructor
  · intro h
    exact ⟨wellFormed_of_decode h, (encode_of_decode h).symm⟩
  · rintro ⟨hwf, rfl⟩
    exact decodeInvertsEncode i hwf

/-- Settles O19: each word is evaluated by the decoder. -/
theorem workedWordsDecode : Obligations.WorkedWordsDecode := by
  unfold Obligations.WorkedWordsDecode
  decide

end Sys2Proof
end

section
/-! # Selection by match and mask (R86) -/

namespace Sys2Proof

open Sys2Proof.Claims

/-- A selected word agrees with the match on every field the mask covers. -/
theorem field_of_selects {v mask w : Word} {lo len : Nat} (hmask : mask.extractLsb' lo len = BitVec.allOnes len)
    (h : Selects (v, mask) w) : w.extractLsb' lo len = v.extractLsb' lo len := by
  rw [← show w &&& mask = v from h, BitVec.extractLsb'_and, hmask, BitVec.and_allOnes]

/-- The mask 0xFFFFFFEF leaves FMT free. -/
theorem selects_scan_iff {w : Word} : Selects (0x00000001, 0xFFFFFFEF) w ↔ ∃ F, w = encode (.scan F) := by
  constructor
  · intro h
    use fmtOfBit (w.getLsbD 4)
    apply eq_of_fields
    case hfmt => simp [encode, fmtBit_fmtOfBit]
    all_goals exact (field_of_selects (by decide) h).trans (by simp [encode, opcode])
  · rintro ⟨F, rfl⟩
    cases F <;> decide

/-- The mask 0xFFFFE00F leaves FMT, QTYPE and EB free. -/
theorem selects_construction_iff {op : BitVec 4} {w : Word} :
    Selects (commandWord 0 0 false op, 0xFFFFE00F) w ↔
      ∃ F, ∃ qt < 8, ∃ eb < 32, w = commandWord eb qt (fmtBit F) op := by
  constructor
  · intro h
    have hres : w.extractLsb' 13 19 = 0 := (field_of_selects (by decide) h).trans (by simp)
    have hop : w.extractLsb' 0 4 = op := (field_of_selects (by decide) h).trans (by simp)
    refine ⟨fmtOfBit (w.getLsbD 4), _, (w.extractLsb' 5 3).isLt, _, (w.extractLsb' 8 5).isLt, ?_⟩
    rw [fmtBit_fmtOfBit, commandWord_fields hres (congrArg BitVec.toNat hop)]
  · rintro ⟨F, qt, -, eb, -, rfl⟩
    have hop : op &&& 15#4 = op := BitVec.and_allOnes
    apply eq_of_fields <;> simp [BitVec.extractLsb'_and, hop]

/-- Under the full mask a word is the match itself. -/
theorem selects_full_iff {v w : Word} : Selects (v, 0xFFFFFFFF) w ↔ w = v := by
  have hall : (0xFFFFFFFF : Word) = BitVec.allOnes 32 := by decide
  rw [Selects, hall, BitVec.and_allOnes]

/-- Every mask covers OP, and no two matches agree there. -/
theorem maskTable_disjoint (w : Word) : maskTable.Pairwise (fun x y => ¬ (Selects x w ∧ Selects y w)) := by
  have hcover : ∀ row ∈ maskTable, row.2.extractLsb' 0 4 = BitVec.allOnes 4 := by simp [maskTable]
  have hops : maskTable.Pairwise (fun x y => x.1.extractLsb' 0 4 ≠ y.1.extractLsb' 0 4) := by decide
  refine hops.imp_of_mem fun hx hy hne ⟨hselx, hsely⟩ => hne ?_
  exact (field_of_selects (hcover _ hx) hselx).symm.trans (field_of_selects (hcover _ hy) hsely)

theorem decode_scan_iff_selects {w : Word} :
    (∃ F, decode w = .ok (.scan F)) ↔ Selects (0x00000001, 0xFFFFFFEF) w := by
  rw [selects_scan_iff]
  exact exists_congr fun F => decode_ok_iff.trans (and_iff_right rfl)

theorem decode_initb_iff_selects {w : Word} :
    (∃ F qt eb, decode w = .ok (.initb F qt eb)) ↔ Selects (0x00000002, 0xFFFFE00F) w := by
  refine Iff.trans ?_ (selects_construction_iff (op := 0x2)).symm
  simp [decode_ok_iff, wellFormed_initb_iff, encode, opcode, and_assoc]

theorem decode_inits_iff_selects {w : Word} :
    (∃ F qt eb, decode w = .ok (.inits F qt eb)) ↔ Selects (0x00000003, 0xFFFFE00F) w := by
  refine Iff.trans ?_ (selects_construction_iff (op := 0x3)).symm
  simp [decode_ok_iff, wellFormed_inits_iff, encode, opcode, and_assoc]

/-- A command without operands has one word, its encoding. -/
theorem decode_iff_selects_full {i : Instr} {w : Word} (hwf : i.WellFormed) :
    decode w = .ok i ↔ Selects (encode i, 0xFFFFFFFF) w :=
  decode_ok_iff.trans ((and_iff_right hwf).trans selects_full_iff.symm)

theorem decode_quant_iff_selects {w : Word} : decode w = .ok .quant ↔ Selects (0x00000004, 0xFFFFFFFF) w :=
  decode_iff_selects_full rfl

theorem decode_dequant_iff_selects {w : Word} : decode w = .ok .dequant ↔ Selects (0x00000005, 0xFFFFFFFF) w :=
  decode_iff_selects_full rfl

theorem decode_release_iff_selects {w : Word} : decode w = .ok .release ↔ Selects (0x00000006, 0xFFFFFFFF) w :=
  decode_iff_selects_full rfl

/-- A word that no row selects is illegal: otherwise its command's own row would. -/
theorem decode_error_iff {w : Word} : (∃ r, decode w = .error r) ↔ ∀ row ∈ maskTable, ¬ Selects row w := by
  simp only [maskTable, List.forall_mem_cons, List.not_mem_nil, false_imp_iff, implies_true, and_true,
    ← decode_scan_iff_selects, ← decode_initb_iff_selects, ← decode_inits_iff_selects, ← decode_quant_iff_selects,
    ← decode_dequant_iff_selects, ← decode_release_iff_selects]
  cases decode w with
  | error r => simp
  | ok i => cases i <;> simp

/-- Settles O18, row by row of the table. -/
theorem commandsAreSelectedByMatchAndMask : Obligations.CommandsAreSelectedByMatchAndMask := fun w =>
  ⟨decode_scan_iff_selects, decode_initb_iff_selects, decode_inits_iff_selects, decode_quant_iff_selects,
    decode_dequant_iff_selects, decode_release_iff_selects, decode_error_iff, maskTable_disjoint w⟩

end Sys2Proof
end

section
/-! # The host assembler: commands and multi-byte writes (R92) -/

namespace Sys2Proof.Machine

/-! ### Commands -/

/-- R92's expressions put each field above the ones already placed, so that its `or` is a sum. -/
theorem toNat_or_shiftLeft {u : Word} {k v : Nat} (hu : u.toNat < 2 ^ k) (hv : v * 2 ^ k < 2 ^ 32) :
    (u ||| BitVec.ofNat 32 v <<< k).toNat = v * 2 ^ k + u.toNat := by
  have hv32 : v < 2 ^ 32 := lt_of_le_of_lt (Nat.le_mul_of_pos_right v (Nat.two_pow_pos k)) hv
  rw [BitVec.toNat_or, BitVec.toNat_shiftLeft, BitVec.toNat_ofNat, Nat.mod_eq_of_lt hv32, Nat.shiftLeft_eq,
    Nat.mod_eq_of_lt hv, ← Nat.shiftLeft_eq, Nat.or_comm, ← Nat.shiftLeft_add_eq_or_of_lt hu]

theorem asmFmt_eq (F : Fmt) : asmFmt F = BitVec.ofNat 32 (fmtBit F).toNat := by cases F <;> rfl

/-- OP and FMT placed by R92's expression are the word with QTYPE and EB 0. -/
theorem asmWord_op_fmt (F : Fmt) (op : BitVec 4) :
    (op.setWidth 32 ||| asmFmt F <<< 4) = commandWord 0 0 (fmtBit F) op := by
  have hop := op.isLt
  have hf := (fmtBit F).toNat_le
  have hop32 : (op.setWidth 32).toNat = op.toNat := BitVec.toNat_setWidth_of_le (by norm_num)
  apply BitVec.eq_of_toNat_eq
  rw [asmFmt_eq, toNat_or_shiftLeft (by omega) (by omega), Laws.OpcodeField.toNat_commandWord]
  omega

/-- All four fields placed by R92's expression are the word of a construction. -/
theorem asmWord_construction (F : Fmt) {qt eb : Nat} (op : BitVec 4) (hqt : qt < 8) (heb : eb < 32) :
    (op.setWidth 32 ||| asmFmt F <<< 4 ||| BitVec.ofNat 32 qt <<< 5 ||| BitVec.ofNat 32 eb <<< 8)
      = commandWord eb qt (fmtBit F) op := by
  have hop := op.isLt
  have hf := (fmtBit F).toNat_le
  have hlow := Laws.OpcodeField.toNat_commandWord 0 0 (fmtBit F) op
  have hmid := toNat_or_shiftLeft (u := commandWord 0 0 (fmtBit F) op) (k := 5) (v := qt) (by omega) (by omega)
  apply BitVec.eq_of_toNat_eq
  rw [asmWord_op_fmt, toNat_or_shiftLeft (by omega) (by omega), hmid, hlow, Laws.OpcodeField.toNat_commandWord]
  omega

/-- R92's expressions compute the encoding. -/
theorem asmWord_eq_encode {i : Instr} (hi : i.WellFormed) : asmWord i = encode i := by
  cases i with
  | scan F => exact asmWord_op_fmt F 0x1
  | initb F qt eb =>
    obtain ⟨hqt, heb⟩ := wellFormed_initb_iff.1 hi
    exact asmWord_construction F 0x2 hqt heb
  | inits F qt eb =>
    obtain ⟨hqt, heb⟩ := wellFormed_inits_iff.1 hi
    exact asmWord_construction F 0x3 hqt heb
  | quant => rfl
  | dequant => rfl
  | release => rfl

/-- Settles O20. -/
theorem assembledCommandsWriteTheirEncoding : Obligations.AssembledCommandsWriteTheirEncoding := by
  intro i hi
  rw [expand, asmWord_eq_encode hi, asmWrite, regOffset]

/-! ### Multi-byte writes -/

/-- The byte writes of a multi-byte pseudo-instruction inside memory store its value little-endian and change nothing
else. The address is a number here: the last one may be 2^32 - 1, whose successor no byte is written to. -/
theorem run_asmBytes (rest : List HostAccess) (n : Nat) : ∀ {s : State} (k v : Nat), k + n ≤ s.params.memBytes →
    s.params.memBytes ≤ 2 ^ 32 → s.pending = asmBytes (BitVec.ofNat 32 k) v n ++ rest →
    Sys2Proof.core.run n s = .next { s with mem := s.mem.writeLE k n v, pending := rest } := by
  induction n with
  | zero =>
    rintro s k v - - rfl
    rfl
  | succ n ih =>
    intro s k v hin hsize hp
    have haddr : (BitVec.ofNat 32 k).toNat = k := by
      rw [BitVec.toNat_ofNat]
      omega
    have hstep := step_memWrite_of_lt hp (by omega)
    rw [haddr] at hstep
    rw [run_succ_of_step n hstep]
    refine ih (k + 1) (v / 256) ?_ hsize ?_
    · rwa [Nat.add_assoc, Nat.add_comm 1]
    · rw [BitVec.ofNat_add]
      rfl

/-- Settles O21: the run of its four byte writes, and what a little-endian store reads back as. -/
theorem mwwStoresItsWord : Obligations.MwwStoresItsWord := by
  intro s rest a v hlegal hin hp
  obtain ⟨-, -, hsize⟩ := hlegal
  have hrun := run_asmBytes rest 4 a.toNat v.toNat hin hsize (by rw [BitVec.ofNat_toNat, BitVec.setWidth_eq]; exact hp)
  refine ⟨_, hrun, ?_, fun b hb => byte_writeLE_outside 4 s.mem a.toNat v.toNat hb, rfl⟩
  rw [readLE_writeLE]
  exact Nat.mod_eq_of_lt v.isLt

end Sys2Proof.Machine
end

section
/-! # The register port (R33, R100, R102, R103) -/

namespace Sys2Proof.Machine

open Sys2Proof.Claims

theorem regAt_regOffset (r : RegName) : regAt (regOffset r) = some r := by cases r <;> rfl

/-- Every offset is a register's or a reserved one (R33). -/
theorem offset_cases (off : Byte) :
    (∃ r, off = regOffset r) ∨ (regAt off = none ∧ ∀ r, off ≠ regOffset r) := by
  cases h : regAt off with
  | some r => exact .inl ⟨r, (regOffset_of_regAt h).symm⟩
  | none =>
    refine .inr ⟨rfl, ?_⟩
    rintro r rfl
    exact absurd ((regAt_regOffset r).symm.trans h) (by simp)

theorem regRead_regOffset (r : RegName) (s : State) : regRead (regOffset r) s = readReg r s := by
  rw [regRead, regAt_regOffset]

theorem regWrite_regOffset (r : RegName) (v : Word) (s : State) : regWrite (regOffset r) v s = writeReg r v s := by
  rw [regWrite, regAt_regOffset]

theorem regRead_of_reserved {off : Byte} (s : State) (h : regAt off = none) : regRead off s = 0 := by rw [regRead, h]

theorem regWrite_of_reserved {off : Byte} (v : Word) (s : State) (h : regAt off = none) :
    regWrite off v s = .next s := by rw [regWrite, h]

/-! ### One step of the port -/

theorem step_regRead {s : State} {off : Byte} {rest : List HostAccess} (h : s.pending = .regRead off :: rest)
    (hoff : off.toNat % 4 = 0) :
    step s = .next { s with pending := rest, observed := .reg off (regRead off s) :: s.observed } :=
  (step_of_pending h).trans (if_pos hoff)

theorem step_regWrite {s : State} {off : Byte} {v : Word} {rest : List HostAccess}
    (h : s.pending = .regWrite off v :: rest) (hoff : off.toNat % 4 = 0) :
    step s = regWrite off v { s with pending := rest } :=
  (step_of_pending h).trans (if_pos hoff)

/-- A write to CMD is one step, which runs the word as a command (R101). -/
theorem step_cmd {s : State} {w : Word} {rest : List HostAccess} (h : s.pending = .regWrite 0x04 w :: rest) :
    step s = execCommand w { s with pending := rest } :=
  (step_regWrite h (by decide)).trans (regWrite_regOffset .cmd w _)

theorem execCommand_of_decode {w : Word} {i : Instr} (s : State) (h : decode w = .ok i) :
    execCommand w s = exec i s := by rw [execCommand, h]

theorem execCommand_of_illegal {w : Word} {r : IllegalWord} (s : State) (h : decode w = .error r) :
    execCommand w s = .next (s.setErr .illegalCommand 0) := by
  rw [execCommand, h]
  rfl

/-- Settles O22: the write to CMD, and `withFetchWord`, which is that write placed in front of the list. -/
theorem stepRunsTheDecodedCommand : Obligations.StepRunsTheDecodedCommand := by
  refine ⟨fun s rest w i hp hd _ => (step_cmd hp).trans (execCommand_of_decode _ hd), fun s w i hw hd _ => ?_⟩
  have hp : (s.withFetchWord 32 w).pending = .regWrite 0x04 (BitVec.ofNat 32 w) :: s.pending := by
    rw [State.withFetchWord, Nat.mod_eq_of_lt hw]
  exact (step_cmd hp).trans (execCommand_of_decode s hd)

/-- Settles O30: the write to CMD, of a word that does not decode. -/
theorem illegalWordWritesOnlyItsError : Obligations.IllegalWordWritesOnlyItsError :=
  fun _ _ _ _ hp hd => (step_cmd hp).trans (execCommand_of_illegal _ hd)

/-- Settles O26. -/
theorem partialRegisterAccessesAreRefused : Obligations.PartialRegisterAccessesAreRefused := by
  refine fun s rest off => ⟨fun hoff => ⟨fun hp => ?_, fun v hp => ?_⟩, fun k hp => step_of_pending hp⟩
  · exact (step_of_pending hp).trans (if_neg hoff)
  · exact (step_of_pending hp).trans (if_neg hoff)

/-! ### The tables of R102 and R103 -/

theorem statusWord_eq_statusSum (s : State) : statusWord s.inst s.err = BitVec.ofNat 32 (statusSum s) := by
  apply BitVec.eq_of_toNat_eq
  have hsum : statusSum s = (statusWord s.inst s.err).toNat := by
    rw [toNat_statusWord, statusSum]
    omega
  rw [hsum, BitVec.ofNat_toNat, BitVec.setWidth_eq]

theorem readTable_regOffset (r : RegName) (s : State) : readTable (regOffset r) s = readReg r s := by
  cases r with
  | caps => exact (by decide : (0x001F0103 : Word) = capsWord)
  | status => exact (statusWord_eq_statusSum s).symm
  | _ => rfl

theorem readTable_of_reserved {off : Byte} (s : State) (h : ∀ r, off ≠ regOffset r) : readTable off s = 0 :=
  (if_neg (h .caps)).trans <| (if_neg (h .cmd)).trans <| (if_neg (h .status)).trans <|
    (if_neg (h .errIndex)).trans <| (if_neg (h .srcAddr)).trans <| (if_neg (h .dstAddr)).trans <|
    (if_neg (h .count)).trans <| (if_neg (h .boundLo)).trans <| (if_neg (h .boundHi)).trans <|
    (if_neg (h .absmaxLo)).trans <| (if_neg (h .absmaxHi)).trans <| (if_neg (h .scaleLo)).trans <|
    (if_neg (h .scaleHi)).trans <| if_neg (h .satCnt)

theorem regRead_eq_readTable (off : Byte) (s : State) : regRead off s = readTable off s := by
  obtain ⟨r, rfl⟩ | ⟨hnone, hne⟩ := offset_cases off
  · rw [regRead_regOffset, readTable_regOffset]
  · rw [regRead_of_reserved s hnone, readTable_of_reserved s hne]

/-- Settles O24: the step of an aligned read, its value by the table. -/
theorem registerReadReturnsTheTable : Obligations.RegisterReadReturnsTheTable := by
  intro s rest off hp hoff
  rw [step_regRead hp hoff, regRead_eq_readTable]

/-- Settles O25: the registers one by one, and the reserved offsets, which no entry of the table names. -/
theorem registerWriteFollowsTheTable : Obligations.RegisterWriteFollowsTheTable := by
  intro s rest off v hp hoff
  rw [step_regWrite hp hoff]
  obtain ⟨r, rfl⟩ | ⟨hnone, hne⟩ := offset_cases off
  · rw [regWrite_regOffset]
    cases r <;> rfl
  · rw [regWrite_of_reserved v _ hnone]
    symm
    exact (if_neg (hne .cmd)).trans <| (if_neg (hne .srcAddr)).trans <| (if_neg (hne .dstAddr)).trans <|
      (if_neg (hne .count)).trans <| (if_neg (hne .boundLo)).trans <| if_neg (hne .boundHi)

end Sys2Proof.Machine
end

section
/-! # A host inside the interface is never refused (R100, R101, R204) -/

namespace Sys2Proof.Machine

theorem exec_completes (i : Instr) (s : State) : ∃ t, exec i s = .next t := by
  rw [exec_eq_finish]
  obtain ⟨r, -, hf⟩ | ⟨e, -, hf⟩ := finish_eq (buildsInst i) s (resultsOf s i)
  · exact ⟨_, hf⟩
  · exact ⟨_, hf⟩

theorem execCommand_completes (w : Word) (s : State) : ∃ t, execCommand w s = .next t := by
  cases hd : decode w with
  | ok i => exact execCommand_of_decode s hd ▸ exec_completes i s
  | error r => exact ⟨_, execCommand_of_illegal s hd⟩

theorem regWrite_completes (off : Byte) (v : Word) (s : State) : ∃ t, regWrite off v s = .next t := by
  obtain ⟨r, rfl⟩ | ⟨hnone, -⟩ := offset_cases off
  · rw [regWrite_regOffset]
    cases r with
    | cmd => exact execCommand_completes v s
    | _ => exact ⟨_, rfl⟩
  · exact ⟨_, regWrite_of_reserved v s hnone⟩

/-- The port refuses only what is not part of the interface (R100). -/
theorem hostAccess_completes {x : HostAccess} (s : State) (h : x.InInterface) : ∃ t, hostAccess x s = .next t := by
  cases x with
  | regRead off => exact ⟨_, if_pos (eq_of_beq h)⟩
  | regWrite off v =>
    have haligned : hostAccess (.regWrite off v) s = regWrite off v s := if_pos (eq_of_beq h)
    exact haligned ▸ regWrite_completes off v s
  | regNarrow off bytes => cases h
  | _ => exact ⟨_, rfl⟩

/-- A host that keeps to the interface makes its next step, and then still keeps to it. -/
theorem step_keeps_hostInInterface {s : State} (h : s.HostInInterface) : ∃ t, step s = .next t ∧ t.HostInInterface := by
  have hcompletes : ∃ t, step s = .next t := by
    obtain ⟨-, hstep⟩ | ⟨x, rest, hp, hstep⟩ := step_cases s
    · exact ⟨s, hstep⟩
    · exact hstep ▸ hostAccess_completes _ (h x (by simp [hp]))
  obtain ⟨t, ht⟩ := hcompletes
  obtain ⟨hpending, -⟩ := stepsFollowProgramOrder s t ht
  exact ⟨t, ht, fun x hx => h x (List.mem_of_mem_tail (hpending ▸ hx))⟩

/-- Settles O27, by induction on the number of steps. -/
theorem interfaceRunsAreSafe : Obligations.InterfaceRunsAreSafe := by
  intro k
  induction k with
  | zero => exact fun s _ => ⟨s, rfl⟩
  | succ k ih =>
    intro s h
    obtain ⟨t, hstep, ht⟩ := step_keeps_hostInInterface h
    obtain ⟨u, hrun⟩ := ih t ht
    exact ⟨u, (run_succ_of_step k hstep).trans hrun⟩

end Sys2Proof.Machine
end

section
/-! # The frame of a command (R110) -/

namespace Sys2Proof.Machine

open Sys2Proof.Claims

/-- Two states agree on the operand registers and on the count of draws, which no command writes. -/
structure SameOperands (s t : State) : Prop where
  srcAddr : t.srcAddr = s.srcAddr
  dstAddr : t.dstAddr = s.dstAddr
  count : t.count = s.count
  draws : t.draws = s.draws

theorem sameOperands_of_resultsOf {i : Instr} {s r : State} (h : resultsOf s i = .ok r) : SameOperands s r := by
  cases commandResult_of_resultsOf h <;> constructor <;> rfl

/-- Of the commands that succeed, only SCAN and the constructions write ABSMAX (R41). -/
theorem absmax_of_resultsOf {i : Instr} {s r : State} (h : resultsOf s i = .ok r) :
    (r.absmaxLo = s.absmaxLo ∧ r.absmaxHi = s.absmaxHi) ∨ (∃ F, i = .scan F) ∨ (construction i).isSome := by
  cases commandResult_of_resultsOf h with
  | scan F p => exact .inr (.inl ⟨F, rfl⟩)
  | construct hi ha hc => exact .inr (.inr (by simp [hi]))
  | _ => exact .inl ⟨rfl, rfl⟩

/-- Settles O28: a command that succeeds keeps what its results keep, and a failed one keeps everything but `Inst`, which
a failed construction discards. -/
theorem commandsWriteOnlyTheirRegisters : Obligations.CommandsWriteOnlyTheirRegisters := by
  intro i s t h
  obtain ⟨hpending, hobserved, hparams⟩ := sameHostSide_of_exec h
  obtain ⟨r, hr, rfl⟩ | ⟨e, -, rfl⟩ := exec_cases h
  · obtain ⟨hsrc, hdst, hcount, hdraws⟩ := sameOperands_of_resultsOf hr
    obtain ⟨hboundLo, hboundHi⟩ := bound_of_resultsOf hr
    refine ⟨hsrc, hdst, hcount, hboundLo, hboundHi, hparams, hpending, hobserved, hdraws, fun hc hrel => ?_,
      fun hc hscan => ?_, fun hq => ?_, fun hq hd => ?_⟩
    · obtain hsame | ⟨hi, -⟩ | hi := inst_of_resultsOf hr
      · exact hsame
      · exact absurd hi hrel
      · exact absurd hi (by simp [Option.isNone_iff_eq_none.1 hc])
    · obtain hsame | ⟨F, hi⟩ | hi := absmax_of_resultsOf hr
      · exact hsame
      · exact absurd hi (hscan F)
      · exact absurd hi (by simp [Option.isNone_iff_eq_none.1 hc])
    · exact (satCnt_of_resultsOf hr).resolve_left hq
    · exact (mem_of_resultsOf hr).resolve_right (by simp [hq, hd])
  · refine ⟨by simp, by simp, by simp, by simp, by simp, hparams, hpending, hobserved, by simp, fun hc _ => ?_,
      fun _ _ => by simp, fun _ => by simp, fun _ _ => by simp⟩
    rw [raise_inst, buildsInst_eq_isSome_construction, Option.isNone_iff_eq_none.1 hc]
    rfl

end Sys2Proof.Machine
end

section
/-! # The first error of a command is the first row of R195 that fails (R112, R195)

Each check of a command is laid beside its row of the table: the check fails with what the row reports, and where it
passes the row reports nothing and the rest of the command decides. -/

namespace Sys2Proof.Machine

open Sys2Proof.Claims

/-- The code and index a command's results report, if they are an error. -/
def errorOf (r : Except CmdError State) : Option (ErrCode × Nat) :=
  match r with
  | .ok _ => none
  | .error e => some (e.code, e.index)

/-- A check in front of the rest of a command, against its row of the table and the rows after it. -/
theorem errorOf_bind_eq_or {α : Type} {x : Except CmdError α} {f : α → Except CmdError State}
    {row rest : Option (ErrCode × Nat)} (hfail : ∀ e, x = .error e → row = some (e.code, e.index))
    (hpass : ∀ a, x = .ok a → row = none ∧ errorOf (f a) = rest) : errorOf (x >>= f) = row.or rest := by
  cases x with
  | error e =>
    rw [hfail e rfl]
    rfl
  | ok a =>
    obtain ⟨hrow, hrest⟩ := hpass a rfl
    rw [hrow]
    exact hrest

theorem errorOf_check_bind (b : Bool) (c : ErrCode) (f : Unit → Except CmdError State) :
    errorOf (check b c >>= f) = (if b then none else some (c, 0)).or (errorOf (f ())) := by
  cases b <;> rfl

/-- `CheckBuf` is two rows of the table, alignment before extent (R65, R66, R106). -/
theorem errorOf_checkBuf_bind (p : Params) (base es n : Nat) (f : Unit → Except CmdError State) :
    errorOf (checkBuf p base es n >>= f) =
      (if n ≠ 0 ∧ base % es ≠ 0 then some (.memAlign, 0) else none).or
        ((if n ≠ 0 ∧ p.memBytes < base + n * es then some (.memRange, 0) else none).or (errorOf (f ()))) := by
  rw [← Option.or_assoc]
  refine errorOf_bind_eq_or (fun e he => ?_) (fun _ hok => ⟨?_, rfl⟩)
  · obtain ⟨hn, ⟨halign, rfl⟩ | ⟨halign, hrange, rfl⟩⟩ := checkBuf_error_iff.1 he
    · simp [hn, halign]
    · simp [hn, halign, hrange]
  · obtain hn | ⟨halign, hrange⟩ := checkBuf_ok_iff.1 hok
    · simp [hn]
    · simp [halign, hrange]

section Rows

variable {i : Instr} {s : State} {F : Fmt} {es qt eb : Nat}

theorem errorOf_qtype (hi : construction i = some (F, qt, eb)) (f : Unit → Except CmdError State) :
    errorOf (check (qtypeSupported qt) .unsupportedType >>= f) = (failsAt i s 2).or (errorOf (f ())) := by
  rw [errorOf_check_bind, failsAt, hi]
  by_cases hqt : qt = 0 <;> simp [qtypeSupported, hqt]

theorem errorOf_valid (hi : needsInstance i = true) (f : Unit → Except CmdError State) :
    errorOf (check s.inst.valid .noInstance >>= f) = (failsAt i s 3).or (errorOf (f ())) := by
  rw [errorOf_check_bind, failsAt, hi]
  cases s.inst.valid <;> rfl

theorem errorOf_elements (hi : needsElements i = true) (f : Unit → Except CmdError State) :
    errorOf (check (s.n != 0) .empty >>= f) = (failsAt i s 4).or (errorOf (f ())) := by
  rw [errorOf_check_bind, failsAt, hi]
  by_cases hn : s.n = 0 <;> simp [hn]

theorem errorOf_source (hi : sourceSize s i = some es) (f : Unit → Except CmdError State) :
    errorOf (checkBuf s.params s.src es s.n >>= f) =
      (failsAt i s 5).or ((failsAt i s 6).or (errorOf (f ()))) := by
  rw [errorOf_checkBuf_bind, failsAt, failsAt, hi]
  rfl

theorem errorOf_dest (hi : destSize s i = some es) (f : Unit → Except CmdError State) :
    errorOf (checkBuf s.params s.dst es s.n >>= f) =
      (failsAt i s 7).or ((failsAt i s 8).or (errorOf (f ()))) := by
  rw [errorOf_checkBuf_bind, failsAt, failsAt, hi]
  rfl

theorem badBound_of_boundValue_error {e : CmdError} (h : boundValue F s = .error e) :
    badBound s (.initb F qt eb) = true := by
  obtain ⟨-, hneg⟩ := boundValue_error h
  rw [badBound]
  split
  next b hd => exact decide_eq_true (hneg b (by rw [decodeFinite, hd]))
  next => rfl
  next => rfl

theorem badBound_of_boundValue_ok {b : ℚ} (h : boundValue F s = .ok b) : badBound s (.initb F qt eb) = false := by
  obtain ⟨hd, hnonneg⟩ := boundValue_ok_iff.1 h
  rw [decodeFinite] at hd
  split at hd
  next r hr =>
    obtain rfl := Option.some.inj hd
    rw [badBound, hr]
    exact decide_eq_false hnonneg.not_gt
  next => cases hd

/-- The bound passes as the absoluteMax of its construction, which is at least 0 (R146, R147). -/
theorem errorOf_bound {f : ℚ → Except CmdError State} {rest : Option (ErrCode × Nat)}
    (hrest : 0 ≤ absoluteMax s (.initb F qt eb) → errorOf (f (absoluteMax s (.initb F qt eb))) = rest) :
    errorOf (boundValue F s >>= f) = (failsAt (.initb F qt eb) s 9).or rest := by
  refine errorOf_bind_eq_or (fun e he => ?_) (fun b hb => ⟨?_, ?_⟩)
  · obtain ⟨rfl, -⟩ := boundValue_error he
    rw [failsAt, if_pos (badBound_of_boundValue_error he)]
  · rw [failsAt, badBound_of_boundValue_ok hb]
    rfl
  · obtain ⟨hd, hnonneg⟩ := boundValue_ok_iff.1 hb
    have hmax : absoluteMax s (.initb F qt eb) = b := by
      rw [absoluteMax, hd]
      rfl
    exact hmax ▸ hrest (hmax ▸ hnonneg)

theorem errorOf_finite (hi : rawSource s i = some F) (f : List ℚ → Except CmdError State) :
    errorOf (finiteElems F s.mem s.src s.n >>= f) =
      (failsAt i s 10).or (errorOf (f ((List.range s.n).map fun j => (rawAt F s.mem s.src j).getD 0))) := by
  have hrow : failsAt i s 10 = (firstNonFinite F s.mem s.src s.n).map fun j => (.nonFinite, j) := by
    rw [failsAt, hi]
    rfl
  refine errorOf_bind_eq_or (fun e he => ?_) (fun xs hxs => ?_)
  · obtain ⟨j, hj, rfl⟩ := finiteElems_error_iff.1 he
    rw [hrow, hj]
    rfl
  · obtain ⟨hfinite, rfl⟩ := finiteElems_ok_iff.1 hxs
    rw [hrow, firstNonFinite_none_iff.2 hfinite]
    exact ⟨rfl, rfl⟩

/-- RNE of a number of at least 0 is no negative infinity (R18). -/
theorem rne_ne_inf_true {r : ℚ} (h : 0 ≤ r) : rne F r ≠ .inf true := by
  unfold rne
  split_ifs <;> simp [h]

theorem failsAt_range_eq {a : ℚ} (hi : construction i = some (F, qt, eb)) (ha : absoluteMax s i = a) :
    failsAt i s 11 = if maxFinite F < a * pow2 eb then some (.rangeOverflow, 0) else none := by
  rw [failsAt, hi, ← ha, pow2_natCast]
  rfl

theorem failsAt_scale_eq {a : ℚ} (hi : construction i = some (F, qt, eb)) (ha : absoluteMax s i = a) :
    failsAt i s 12 = if a * pow2 eb ≠ 0 ∧ divF F (pow2 (qBits - 1)) (a * pow2 eb) = .inf false
      then some (.scaleOverflow, 0) else none := by
  have hnum : pow2 ((qBits : ℤ) - 1) = 32768 := by norm_num [pow2, qBits]
  rw [failsAt, hi, ← ha, divF, hnum, pow2_natCast]
  rfl

/-- `ComputeScale` is the two last rows of the table (R139, R143). -/
theorem errorOf_scale {a : ℚ} (hi : construction i = some (F, qt, eb)) (ha : absoluteMax s i = a) (hnonneg : 0 ≤ a)
    {f : ℚ × Bool → Except CmdError State} (hf : ∀ c, errorOf (f c) = none) :
    errorOf (computeScale F a eb >>= f) = (failsAt i s 11).or (failsAt i s 12) := by
  rw [← Option.or_none (o := (failsAt i s 11).or (failsAt i s 12)), failsAt_range_eq hi ha, failsAt_scale_eq hi ha]
  have hquot : 0 ≤ pow2 (qBits - 1) / (a * pow2 eb) := by
    have hnum := pow2_pos ((qBits : ℤ) - 1)
    have hpow := pow2_pos eb
    positivity
  refine errorOf_bind_eq_or (fun e he => ?_) (fun c hc => ⟨?_, hf c⟩)
  · obtain ⟨hrange, rfl⟩ | ⟨hrange, hne, rfl, neg, hinf⟩ := computeScale_error_iff.1 he
    · rw [if_pos hrange, Option.some_or]
    · cases neg with
      | true => exact absurd hinf (rne_ne_inf_true hquot)
      | false => rw [if_neg hrange.not_gt, if_pos ⟨hne, hinf⟩, Option.none_or]
  · obtain ⟨hrange, ⟨hzero, -, -⟩ | ⟨-, hfin, -⟩⟩ := computeScale_ok_iff.1 hc
    · rw [if_neg hrange.not_gt, if_neg (fun h => h.1 hzero), Option.none_or]
    · rw [if_neg hrange.not_gt, if_neg (by simp [hfin]), Option.none_or]

end Rows

theorem findSome?_cons_eq_or {α β : Type} (f : α → Option β) (a : α) (l : List α) :
    (a :: l).findSome? f = (f a).or (l.findSome? f) := by
  rw [List.findSome?_cons]
  cases f a <;> rfl

/-- The results of a command report the first row of the table that fails, and no error where none does (R195). -/
theorem errorOf_resultsOf (i : Instr) (s : State) :
    errorOf (resultsOf s i) = [2, 3, 4, 5, 6, 7, 8, 9, 10, 11, 12].findSome? (failsAt i s) := by
  simp only [findSome?_cons_eq_or, List.findSome?_nil, Option.or_none]
  cases i with
  | scan F =>
    rw [resultsOf, doScan, errorOf_elements (i := .scan F) rfl, errorOf_source (i := .scan F) rfl,
      errorOf_finite (i := .scan F) rfl]
    rfl
  | initb F qt eb =>
    rw [resultsOf, doInitB, errorOf_qtype (i := .initb F qt eb) (s := s) rfl,
      errorOf_bound fun ha => errorOf_scale (i := .initb F qt eb) rfl rfl ha fun _ => rfl]
    rfl
  | inits F qt eb =>
    have hmax : absoluteMax s (.inits F qt eb) =
        absMax ((List.range s.n).map fun j => (rawAt F s.mem s.src j).getD 0) := rfl
    rw [resultsOf, doInitS, errorOf_qtype (i := .inits F qt eb) (s := s) rfl,
      errorOf_elements (i := .inits F qt eb) rfl, errorOf_source (i := .inits F qt eb) rfl,
      errorOf_finite (i := .inits F qt eb) rfl,
      errorOf_scale (i := .inits F qt eb) rfl hmax (absMax_nonneg _) fun _ => rfl]
    rfl
  | quant =>
    rw [resultsOf, doQuant, errorOf_valid (i := .quant) rfl, errorOf_source (i := .quant) rfl,
      errorOf_dest (i := .quant) rfl, errorOf_finite (i := .quant) rfl]
    rfl
  | dequant =>
    rw [resultsOf, doDequant, errorOf_valid (i := .dequant) rfl, errorOf_source (i := .dequant) rfl,
      errorOf_dest (i := .dequant) rfl]
    rfl
  | release => rfl

theorem firstError_of_decode {w : Word} {i : Instr} (s : State) (h : decode w = .ok i) :
    firstError w s = errorOf (resultsOf s i) := by
  rw [firstError, h, errorOf_resultsOf]

/-- A command whose results report an error takes it, and so writes nothing else (R112). -/
theorem exec_of_errorOf {i : Instr} {s : State} {c : ErrCode} {j : Nat} (h : errorOf (resultsOf s i) = some (c, j)) :
    exec i s = .next (s.raise (buildsInst i) { code := c, index := j }) := by
  rw [exec_eq_finish]
  cases hr : resultsOf s i with
  | ok r => simp [hr, errorOf] at h
  | error e =>
    obtain ⟨rfl, rfl⟩ : e.code = c ∧ e.index = j := by simpa [hr, errorOf] using h
    rfl

/-- Settles O29: the first failing row is the error the command takes. -/
theorem failedCommandWritesOnlyItsError : Obligations.FailedCommandWritesOnlyItsError := by
  intro w i s c j hd hfirst
  rw [exec_of_errorOf (firstError_of_decode s hd ▸ hfirst), buildsInst_eq_isSome_construction]
  cases (construction i).isSome <;> rfl

end Sys2Proof.Machine
end

section
/-! # The largest value of a format, its powers of two, and scaling by a power of two (R15, R139)

Multiplying by a power of two moves the shift and keeps the significand, so that only the top of the format can make
the product unrepresentable. -/

namespace Sys2Proof.Machine

open Sys2Proof.Claims

/-! ### The largest value -/

theorem maxFinite_lt_pow2 (F : Fmt) : maxFinite F < pow2 (emax F + 1) := by
  have htwo : pow2 (emax F + 1) = 2 * pow2 (emax F) := by
    rw [pow2_add]
    exact mul_comm _ _
  rw [maxFinite, htwo]
  exact mul_lt_mul_of_pos_right (sub_lt_self 2 (pow2_pos _)) (pow2_pos _)

/-- The spacing of the format at 1 is below 1. -/
theorem pow2_one_sub_fPrec_lt_one (F : Fmt) : pow2 (1 - fPrec F) < 1 := by
  have : pow2 (1 - fPrec F) < pow2 0 := pow2_lt_pow2_iff.2 (by cases F <;> decide)
  simpa [pow2] using this

theorem maxFinite_pos (F : Fmt) : 0 < maxFinite F :=
  mul_pos (by linarith [pow2_one_sub_fPrec_lt_one F]) (pow2_pos _)

/-- MAX_F has every significand bit set, in the top binade. -/
theorem maxFinite_eq_floatMag (F : Fmt) : maxFinite F = floatMag F (2 ^ fPrec F - 1) (maxShift F) := by
  have heps : pow2 (1 - fPrec F) * 2 ^ (fPrec F - 1) = 1 := by
    rw [← pow2_natCast, ← pow2_add]
    cases F <;> rfl
  rw [maxFinite, emax_eq, pow2_emin_add, floatMag_eq, Nat.cast_sub Nat.one_le_two_pow, Nat.cast_pow, Nat.cast_ofNat,
    Nat.cast_one, cast_two_pow_fPrec]
  linear_combination -(2 ^ maxShift F * ulpMin F) * heps

theorem isCanonical_maxFinite (F : Fmt) : IsCanonical F (2 ^ fPrec F - 1) (maxShift F) :=
  ⟨Nat.sub_lt (by positivity) one_pos, fun _ => by cases F <;> decide, le_rfl⟩

theorem representable_maxFinite (F : Fmt) : Representable F (maxFinite F) :=
  maxFinite_eq_floatMag F ▸ representable_floatMag (isCanonical_maxFinite F)

theorem floatMag_mono {F : Fmt} {n n' j j' : Nat} (hn : n ≤ n') (hj : j ≤ j') :
    floatMag F n j ≤ floatMag F n' j' :=
  mul_le_mul_of_nonneg_right (by exact_mod_cast Nat.mul_le_mul hn (Nat.pow_le_pow_right two_pos hj)) (ulpMin_pos F).le

/-- MAX_F is the largest representable value (R15). -/
theorem le_maxFinite_of_representable {F : Fmt} {a : ℚ} (h : Representable F a) : a ≤ maxFinite F := by
  obtain ⟨neg, n, j, hc, rfl⟩ := representable_iff.1 h
  calc applySign neg (floatMag F n j)
      ≤ |applySign neg (floatMag F n j)| := le_abs_self _
    _ = floatMag F n j := by rw [abs_applySign, abs_of_nonneg (floatMag_nonneg F n j)]
    _ ≤ maxFinite F := maxFinite_eq_floatMag F ▸ floatMag_mono (Nat.le_sub_one_of_lt hc.sig_lt) hc.shift_le

/-! ### Representable magnitudes -/

theorem representable_abs {F : Fmt} {a : ℚ} (h : Representable F a) : Representable F |a| := by
  obtain habs | habs := abs_choice a
  · rwa [habs]
  · rw [habs]
    exact representable_applySign true h

/-- A representable number of at least 0 is a canonical magnitude. -/
theorem exists_canonical_of_representable {F : Fmt} {a : ℚ} (h : Representable F a) (h0 : 0 ≤ a) :
    ∃ n j, IsCanonical F n j ∧ a = floatMag F n j := by
  obtain ⟨neg, n, j, hc, rfl⟩ := representable_iff.1 h
  refine ⟨n, j, hc, ?_⟩
  rw [← abs_of_nonneg h0, abs_applySign, abs_of_nonneg (floatMag_nonneg F n j)]

/-- Every power of two from 2^emin to 2^emax is representable. -/
theorem representable_pow2 {F : Fmt} {j : Nat} (hj : j ≤ maxShift F) : Representable F (pow2 (emin F + j)) := by
  have h := representable_floatMag (isCanonical_two_pow_add (F := F) (d := 0) (by positivity) hj)
  rwa [add_zero, floatMag_eq, Nat.cast_pow, Nat.cast_ofNat, ← pow2_emin_add] at h

/-! ### Scaling by a power of two -/

theorem floatMag_mul_two_pow (F : Fmt) (n j E : Nat) : floatMag F n j * 2 ^ E = floatMag F n (j + E) := by
  rw [floatMag, floatMag]
  push_cast
  ring

/-- p bits at any shift are representable below 2^(emax+1): while the hidden bit is clear, a place of the shift moves
into the significand. -/
theorem representable_floatMag_of_lt {F : Fmt} (j : Nat) : ∀ {n : Nat}, n < 2 ^ fPrec F →
    floatMag F n j < pow2 (emax F + 1) → Representable F (floatMag F n j) := by
  induction j with
  | zero => exact fun hn _ => representable_floatMag ⟨hn, by simp, Nat.zero_le _⟩
  | succ j ih =>
    intro n hn hlt
    by_cases hidden : 2 ^ (fPrec F - 1) ≤ n
    · exact representable_floatMag ⟨hn, fun _ => hidden, shift_le_of_floatMag_lt (fun _ => hidden) hlt⟩
    · have hmove : floatMag F n (j + 1) = floatMag F (2 * n) j := by
        rw [floatMag, floatMag, pow_succ']
        ring_nf
      rw [hmove] at hlt ⊢
      exact ih (by rw [two_pow_fPrec]; omega) hlt

/-- A product by a power of two is exact, unless it reaches 2^(emax+1). -/
theorem representable_mul_two_pow {F : Fmt} {a : ℚ} {E : Nat} (h : Representable F a) (h0 : 0 ≤ a)
    (hlt : a * 2 ^ E < pow2 (emax F + 1)) : Representable F (a * 2 ^ E) := by
  obtain ⟨n, j, hc, rfl⟩ := exists_canonical_of_representable h h0
  rw [floatMag_mul_two_pow] at hlt ⊢
  exact representable_floatMag_of_lt _ hc.sig_lt hlt

/-- The doubled value overflows from 2^emax on: below it the double is representable, and so at most MAX_F. -/
theorem maxFinite_lt_mul_two_iff {F : Fmt} {a : ℚ} (h : Representable F a) (h0 : 0 ≤ a) :
    maxFinite F < a * 2 ^ 1 ↔ pow2 (emax F) ≤ a := by
  have htwo : pow2 (emax F + 1) = pow2 (emax F) * 2 ^ 1 := by
    rw [pow2_add]
    rfl
  refine ⟨fun hover => ?_, fun hle => ?_⟩
  · by_contra hlt
    have hlt := not_le.1 hlt
    refine hover.not_ge (le_maxFinite_of_representable (representable_mul_two_pow h h0 ?_))
    rw [htwo]
    exact mul_lt_mul_of_pos_right hlt (by norm_num)
  · refine (maxFinite_lt_pow2 F).trans_le ?_
    rw [htwo]
    exact mul_le_mul_of_nonneg_right hle (by norm_num)

/-! ### The range check -/

/-- RANGE_OVERFLOW is the guard of R139, and no other outcome of `ComputeScale`. -/
theorem computeScale_rangeOverflow_iff {F : Fmt} {a : ℚ} {E : Nat} :
    computeScale F a E = .error { code := .rangeOverflow, index := 0 } ↔ maxFinite F < a * 2 ^ E := by
  rw [computeScale_error_iff, pow2_natCast]
  simp

/-- Settles O35: the guard is passed by a product that is then exact, and doubling decides E = 1. -/
theorem rangeOverflowExactlyAboveTheLargestRange : Obligations.RangeOverflowExactlyAboveTheLargestRange := by
  intro F a E ha h0
  refine ⟨?_, fun hle => ?_, ?_, ?_⟩
  · rw [computeScale_rangeOverflow_iff, div_lt_iff₀ (by positivity)]
  · rw [div_lt_iff₀ (by positivity), not_lt] at hle
    exact representable_mul_two_pow ha h0 (hle.trans_lt (maxFinite_lt_pow2 F))
  · rw [Ne, computeScale_rangeOverflow_iff, pow_zero, mul_one, not_lt]
    exact le_maxFinite_of_representable ha
  · rw [computeScale_rangeOverflow_iff]
    exact maxFinite_lt_mul_two_iff ha h0

end Sys2Proof.Machine
end

section
/-! # When the quotient overflows, and the Scales that are left (R142 to R144)

2^15 divided by 2^(14-emax) is past the overflow threshold; divided by the next representable number, the smallest
Scale, it is not. So a representable range overflows exactly up to 2^(14-emax). -/

namespace Sys2Proof.Machine

open Sys2Proof.Claims

theorem pow2_qBits_sub_one : pow2 (qBits - 1) = 32768 := by norm_num [pow2, qBits]

/-! ### The quotient -/

theorem overflowThreshold_mul_pow2_lt (F : Fmt) : overflowThreshold F * pow2 (14 - emax F) < 32768 := by
  calc overflowThreshold F * pow2 (14 - emax F)
      < pow2 (emax F + 1) * pow2 (14 - emax F) :=
        mul_lt_mul_of_pos_right (overflowThreshold_lt_pow2_emax_add_one F) (pow2_pos _)
    _ = pow2 (qBits - 1) := by
        rw [← pow2_add]
        congr 1
        rw [qBits]
        push_cast
        ring
    _ = 32768 := pow2_qBits_sub_one

/-- The smallest Scale times the overflow threshold is past 2^15: (2 - e/2) * (1 + e) is above 2, with e = 2^(1-p). -/
theorem lt_overflowThreshold_mul_minScale (F : Fmt) : 32768 < overflowThreshold F * minScale F := by
  have heps := pow2_pos (1 - fPrec F)
  have hone := pow2_one_sub_fPrec_lt_one F
  have hhalf : (2 : ℚ) ^ (-(fPrec F : ℤ)) = pow2 (1 - fPrec F) / 2 := by
    rw [pow2, sub_eq_add_neg, zpow_one_add₀ two_ne_zero, mul_div_cancel_left₀ _ two_ne_zero]
  have hscale : (2 : ℚ) ^ emax F * pow2 (14 - emax F) = 16384 := by
    rw [← pow2, ← pow2_add, add_sub_cancel]
    norm_num [pow2]
  have hprod : overflowThreshold F * minScale F
      = (2 - pow2 (1 - fPrec F) / 2) * (1 + pow2 (1 - fPrec F)) * 16384 := by
    rw [overflowThreshold, minScale, hhalf, ← hscale]
    ring
  rw [hprod]
  nlinarith [mul_pos heps (sub_pos.2 hone)]

/-- Rounding the quotient of a representable range overflows exactly up to 2^(14-emax) (R143). -/
theorem rne_quotient_eq_inf_iff {F : Fmt} {r : ℚ} (hr : Representable F r) (h0 : 0 < r) :
    rne F (32768 / r) = .inf false ↔ r ≤ pow2 (14 - emax F) := by
  have hquot : 0 < 32768 / r := by positivity
  obtain ⟨-, hinf⟩ := rneRoundsToNearestEven F (32768 / r)
  have hthreshold := (pow2_pos (emax F)).trans (pow2_emax_lt_overflowThreshold F)
  rw [hinf, abs_of_pos hquot, le_div_iff₀ h0, decide_eq_false hquot.not_gt, eq_self, and_true]
  refine ⟨fun h => le_pow2_of_lt_minScale hr ?_, fun h => ?_⟩
  · by_contra hge
    have := mul_le_mul_of_nonneg_left (not_lt.1 hge) hthreshold.le
    linarith [lt_overflowThreshold_mul_minScale F]
  · exact (mul_le_mul_of_nonneg_left h hthreshold.le).trans (overflowThreshold_mul_pow2_lt F).le

/-! ### SCALE_OVERFLOW -/

/-- A representable range up to 2^(14-emax) is the one outcome of `ComputeScale` that overflows the Scale (R143). -/
theorem computeScale_scaleOverflow_iff {F : Fmt} {a : ℚ} {E : Nat} (ha : Representable F a) (h0 : 0 ≤ a) :
    computeScale F a E = .error { code := .scaleOverflow, index := 0 } ↔
      0 < a * 2 ^ E ∧ a * 2 ^ E ≤ pow2 (14 - emax F) := by
  rw [computeScale_error_iff, pow2_natCast, divF, pow2_qBits_sub_one]
  constructor
  · rintro (⟨-, ⟨⟩⟩ | ⟨hguard, hne, -, neg, hinf⟩)
    have hpos : 0 < a * 2 ^ E := lt_of_le_of_ne (by positivity) hne.symm
    have hrep := representable_mul_two_pow ha h0 (hguard.trans_lt (maxFinite_lt_pow2 F))
    cases neg with
    | true => exact absurd hinf (rne_ne_inf_true (by positivity))
    | false => exact ⟨hpos, (rne_quotient_eq_inf_iff hrep hpos).1 hinf⟩
  · rintro ⟨hpos, hle⟩
    have htop : pow2 (14 - emax F) < pow2 (emax F + 1) := pow2_lt_pow2_iff.2 (by cases F <;> decide)
    have hrep := representable_mul_two_pow ha h0 (hle.trans_lt htop)
    exact .inr ⟨le_maxFinite_of_representable hrep, hpos.ne', rfl, false, (rne_quotient_eq_inf_iff hrep hpos).2 hle⟩

/-- A subnormal is below 2^emin (R16). -/
theorem abs_lt_pow2_emin_of_expField_eq_zero {F : Fmt} {b : Pattern} {a : ℚ} (h : decodeFinite F b = some a)
    (he : expField F b = 0) : |a| < pow2 (emin F) := by
  obtain ⟨n, j, hc, hb, rfl⟩ := exists_canonical_of_decodeFinite h
  rw [expField_eq, hb] at he
  obtain ⟨hn, rfl, -, -⟩ | ⟨-, hdiv, -⟩ := magBits_div_mod hc
  · have hbinade := pow2_emin_add F 0
    rw [Nat.cast_zero, add_zero] at hbinade
    rw [abs_applySign, abs_of_nonneg (floatMag_nonneg F n 0), floatMag_eq, hbinade]
    exact mul_lt_mul_of_pos_right (by exact_mod_cast hn) (two_pow_mul_ulpMin_pos F 0)
  · omega

/-- Settles O36: the boundary of the quotient, and its two examples in binary32, where 2^emin is below 2^(14-emax). -/
theorem scaleOverflowExactlyAtTinyRanges : Obligations.ScaleOverflowExactlyAtTinyRanges := by
  refine ⟨fun F a E ha h0 => ⟨computeScale_scaleOverflow_iff ha h0, fun hpos hguard => ?_⟩, rfl, rfl,
    fun b a hb he hpos => ?_, ?_⟩
  · exact rne_quotient_eq_inf_iff (representable_mul_two_pow ha h0 (hguard.trans_lt (maxFinite_lt_pow2 F))) hpos
  · have hsub := abs_lt_pow2_emin_of_expField_eq_zero hb he
    rw [abs_of_pos hpos] at hsub
    have hbelow : pow2 (emin .f32) < pow2 (14 - emax .f32) := pow2_lt_pow2_iff.2 (by decide)
    rw [computeScale_scaleOverflow_iff ⟨b, hb⟩ hpos.le, pow_zero, mul_one]
    exact ⟨hpos, (hsub.trans hbelow).le⟩
  · have hrep : Representable .f32 (pow2 (-118)) := representable_pow2 (F := .f32) (j := 8) (by decide)
    have hrange : pow2 (-118) * 2 ^ 5 = pow2 (14 - emax .f32) := by
      rw [mul_comm, ← pow2_add_natCast]
      rfl
    refine (computeScale_scaleOverflow_iff hrep (pow2_pos _).le).2 ?_
    rw [hrange]
    exact ⟨pow2_pos _, le_rfl⟩

/-! ### The Scales that are left -/

/-- MAX_F times the smallest Scale is 2^15 + 2^14 * e * (1 - e), with e = 2^(1-p). -/
theorem le_minScale_mul_maxFinite (F : Fmt) : 32768 ≤ minScale F * maxFinite F := by
  have heps := pow2_pos (1 - fPrec F)
  have hone := pow2_one_sub_fPrec_lt_one F
  have hscale : pow2 (14 - emax F) * pow2 (emax F) = 16384 := by
    rw [← pow2_add, sub_add_cancel]
    norm_num [pow2]
  have hprod : minScale F * maxFinite F = (1 + pow2 (1 - fPrec F)) * (2 - pow2 (1 - fPrec F)) * 16384 := by
    rw [minScale, maxFinite, ← hscale]
    ring
  rw [hprod]
  nlinarith [mul_pos heps (sub_pos.2 hone)]

/-- The largest range has the smallest Scale: its quotient lies past the midpoint below the smallest Scale, and not
above the smallest Scale itself (R144). -/
theorem rne_quotient_maxFinite (F : Fmt) : rne F (32768 / maxFinite F) = .fin (minScale F) := by
  have hpos := maxFinite_pos F
  have hmid := midpoint_lt_quotient hpos le_rfl
  rw [pow2_qBits_sub_one] at hmid
  obtain ⟨hround, -⟩ := rneRoundsToNearestEven F (32768 / maxFinite F)
  cases hrne : rne F (32768 / maxFinite F) with
  | inf neg =>
    have hlarge : pow2 (14 - emax F) < maxFinite F := (pow2_lt_minScale F).trans_le
      (le_maxFinite_of_representable (representable_minScale F))
    cases neg with
    | true => exact absurd hrne (rne_ne_inf_true (by positivity))
    | false => exact absurd ((rne_quotient_eq_inf_iff (representable_maxFinite F) hpos).1 hrne) hlarge.not_ge
  | fin v =>
    obtain ⟨-, hnearest⟩ := hround v hrne
    obtain ⟨hnear, -⟩ := hnearest _ (representable_minScale F)
    have hlow := minScale_le_of_rne hmid hrne
    have hquot : 32768 / maxFinite F ≤ minScale F := (div_le_iff₀ hpos).2 (le_minScale_mul_maxFinite F)
    rw [abs_of_nonpos (by linarith), abs_of_nonpos (by linarith)] at hnear
    rw [le_antisymm (by linarith) hlow]

theorem encodeF_minScale (F : Fmt) :
    encodeF F (.fin (minScale F)) = packBits F false (magBits F (2 ^ (fPrec F - 1) + 1) 13) := by
  rw [minScale_eq_floatMag]
  exact encodeF_applySign (isCanonical_minScale F) false

theorem pow2_emin_le_minScale (F : Fmt) : pow2 (emin F) ≤ minScale F :=
  (pow2_le_pow2_iff.2 (by have := emin_add_thirteen F; omega)).trans (pow2_lt_minScale F).le

/-- Settles O37: a Scale is representable and at least the smallest one, which is normal. -/
theorem storedScalesAreNormal : Obligations.StoredScalesAreNormal := by
  refine ⟨fun F a E v d _ h0 h => ?_, rne_quotient_maxFinite, ?_, ?_⟩
  · obtain ⟨hrep, hmin, -⟩ := computeScale_spec h0 h
    exact ⟨hrep, (pow2_emin_le_minScale F).trans hmin, hmin, le_maxFinite_of_representable hrep⟩
  · rw [encodeF_minScale]
    rfl
  · rw [encodeF_minScale]
    rfl

end Sys2Proof.Machine
end

section
/-! # The absolute maximum of a buffer, and SCAN (R132 to R137) -/

namespace Sys2Proof.Machine

open Sys2Proof.Claims

/-! ### AbsMax of a list -/

/-- The accumulator of `AbsMax` ends at least at every |element|, and at its start or at some |element| (R132). -/
theorem foldl_max_absF_spec (xs : List ℚ) : ∀ m : ℚ,
    (∀ x ∈ xs, |x| ≤ xs.foldl (fun m y => max m (absF y)) m) ∧
      (xs.foldl (fun m y => max m (absF y)) m = m ∨ ∃ x ∈ xs, |x| = xs.foldl (fun m y => max m (absF y)) m) := by
  induction xs with
  | nil => exact fun m => ⟨by simp, .inl rfl⟩
  | cons y ys ih =>
    intro m
    obtain ⟨hbound, hattained⟩ := ih (max m (absF y))
    rw [List.foldl_cons]
    refine ⟨fun x hx => ?_, ?_⟩
    · obtain rfl | hx := List.mem_cons.1 hx
      · exact (le_max_right m _).trans (le_foldl_max_absF ys _)
      · exact hbound x hx
    · obtain hstart | ⟨x, hx, hmax⟩ := hattained
      · obtain hm | hy := max_choice m (absF y)
        · exact .inl (hstart.trans hm)
        · exact .inr ⟨y, List.mem_cons_self, (hstart.trans hy).symm⟩
      · exact .inr ⟨x, List.mem_cons_of_mem y hx, hmax⟩

/-- `AbsMax` of a non-empty list is the maximum of the absolute values (R132, R133). -/
theorem absMax_spec {xs : List ℚ} (hne : xs ≠ []) :
    (∀ x ∈ xs, |x| ≤ absMax xs) ∧ ∃ x ∈ xs, |x| = absMax xs := by
  cases xs with
  | nil => exact absurd rfl hne
  | cons y ys =>
    obtain ⟨hbound, hattained⟩ := foldl_max_absF_spec ys (absF y)
    refine ⟨fun x hx => ?_, ?_⟩
    · obtain rfl | hx := List.mem_cons.1 hx
      · exact le_foldl_max_absF ys _
      · exact hbound x hx
    · obtain hstart | ⟨x, hx, hmax⟩ := hattained
      · exact ⟨y, List.mem_cons_self, hstart.symm⟩
      · exact ⟨x, List.mem_cons_of_mem y hx, hmax⟩

/-! ### AbsMax of a buffer -/

/-- The elements of the RawValue buffer at SRC_ADDR, as `finiteElems` answers them where all are finite. -/
def rawElems (F : Fmt) (s : State) : List ℚ := (List.range s.n).map fun i => (rawAt F s.mem s.src i).getD 0

theorem finiteElems_of_allFinite {F : Fmt} {s : State} (h : AllFinite F s) :
    finiteElems F s.mem s.src s.n = .ok (rawElems F s) := finiteElems_ok_iff.2 ⟨h, rfl⟩

theorem mem_rawElems_iff {F : Fmt} {s : State} (h : AllFinite F s) {x : ℚ} :
    x ∈ rawElems F s ↔ ∃ i < s.n, rawAt F s.mem s.src i = some x := by
  simp only [rawElems, List.mem_map, List.mem_range]
  refine exists_congr fun i => and_congr_right fun hi => ?_
  obtain ⟨y, hy⟩ := h i hi
  simp [hy]

/-- `AbsMax` of a finite, non-empty buffer is its absolute maximum (R133). -/
theorem isAbsMax_absMax {F : Fmt} {s : State} (hn : s.n ≠ 0) (h : AllFinite F s) :
    IsAbsMax F s (absMax (rawElems F s)) := by
  obtain ⟨hbound, x, hx, hmax⟩ := absMax_spec (xs := rawElems F s) (by simpa [rawElems] using hn)
  refine ⟨fun i hi => ?_, ?_⟩
  · obtain ⟨y, hy⟩ := h i hi
    exact ⟨y, hy, hbound y ((mem_rawElems_iff h).2 ⟨i, hi, hy⟩)⟩
  · obtain ⟨i, hi, hxi⟩ := (mem_rawElems_iff h).1 hx
    exact ⟨i, hi, x, hxi, hmax⟩

theorem allFinite_of_isAbsMax {F : Fmt} {s : State} {a : ℚ} (h : IsAbsMax F s a) : AllFinite F s := by
  intro i hi
  obtain ⟨hbound, -⟩ := h
  obtain ⟨x, hx, -⟩ := hbound i hi
  exact ⟨x, hx⟩

/-- Some |element| attains the one maximum, and the other bounds it. -/
theorem isAbsMax_le {F : Fmt} {s : State} {a b : ℚ} (ha : IsAbsMax F s a) (hb : IsAbsMax F s b) : a ≤ b := by
  obtain ⟨-, i, hi, x, hx, rfl⟩ := ha
  obtain ⟨hbound, -⟩ := hb
  obtain ⟨y, hy, hle⟩ := hbound i hi
  obtain rfl : x = y := Option.some.inj (hx.symm.trans hy)
  exact hle

theorem absMax_eq_of_isAbsMax {F : Fmt} {s : State} {a : ℚ} (hn : s.n ≠ 0) (h : IsAbsMax F s a) :
    absMax (rawElems F s) = a :=
  have hmax := isAbsMax_absMax hn (allFinite_of_isAbsMax h)
  le_antisymm (isAbsMax_le hmax h) (isAbsMax_le h hmax)

/-- The absolute maximum is some |element|, and so a value of the format. -/
theorem representable_of_isAbsMax {F : Fmt} {s : State} {a : ℚ} (h : IsAbsMax F s a) : Representable F a := by
  obtain ⟨-, i, -, x, hx, rfl⟩ := h
  exact representable_abs ⟨_, hx⟩

/-! ### SCAN -/

/-- ABSMAX reads back as the pattern written to it (R41). -/
theorem absmax_eq {p : Pattern} {t : State} (hlo : t.absmaxLo = p.lo) (hhi : t.absmaxHi = p.hi) : absmax t = p := by
  rw [absmax, hlo, hhi, ofPair_hi_lo]

/-- SCAN whose checks pass writes the pattern of the maximum to ABSMAX, and commits (R137). -/
theorem exec_scan_of_ok {F : Fmt} {s : State} (hn : s.n ≠ 0) (hsrc : BufOk s s.src (elemSize F))
    (hfin : AllFinite F s) :
    exec (.scan F) s = .next (s.setAbsmax (encodeF F (.fin (absMax (rawElems F s))))).commit := by
  have hresults : doScan F s = .ok _ :=
    doScan_ok_iff.2 ⟨hn, checkBuf_ok_iff.2 hsrc, _, finiteElems_of_allFinite hfin, rfl⟩
  rw [exec_eq_finish, resultsOf, hresults, finish_ok]

/-- Settles O33: the maximum of the elements read, and that ABSMAX holds its pattern. -/
theorem scanFindsTheTrueMaximum : Obligations.ScanFindsTheTrueMaximum := by
  intro F s hn hsrc hfin
  have hmax := isAbsMax_absMax hn hfin
  refine ⟨_, absMax (rawElems F s), exec_scan_of_ok hn hsrc hfin, ?_, hmax, ?_, fun hzero => ?_, rfl⟩
  · rw [absmax_eq (by rfl) (by rfl)]
    exact decodeFinite_encodeF (representable_of_isAbsMax hmax)
  · rintro rfl
    exact hi_encodeF_f32 _
  · rw [absmax_eq (by rfl) (by rfl), hzero, encodeF_zero]

/-! ### SCAN does not see the group `Inst` -/

/-- The group `Inst` and SATCNT replaced. -/
def State.setInstSat (i : Inst) (k : Word) (s : State) : State := { s with inst := i, satCnt := k }

/-- The results of SCAN, at another group `Inst` and SATCNT: nothing SCAN reads is one of them. -/
theorem doScan_setInstSat (F : Fmt) (s : State) (i : Inst) (k : Word) :
    doScan F (s.setInstSat i k) = State.setInstSat i k <$> doScan F s := by
  rw [doScan, doScan, map_bind]
  refine bind_congr fun _ => ?_
  rw [map_bind]
  refine bind_congr fun _ => ?_
  rw [map_bind]
  exact bind_congr fun xs => rfl

/-- Settles O34. -/
theorem scanIsIndependentOfTheInstance : Obligations.ScanIsIndependentOfTheInstance := by
  intro F s t i k h
  change exec (.scan F) (s.setInstSat i k) = .next (t.setInstSat i k)
  rw [exec_eq_finish, resultsOf, doScan_setInstSat]
  obtain ⟨r, hr, rfl⟩ | ⟨e, he, rfl⟩ := exec_cases h
  · rw [show doScan F s = .ok r from hr]
    rfl
  · rw [show doScan F s = .error e from he]
    rfl

/-! ### An empty buffer -/

/-- Settles O32: EMPTY is the first check of SCAN, and of INITS after its QTYPE. -/
theorem emptyBufferFailsTheScan : Obligations.EmptyBufferFailsTheScan := by
  intro F eb s hcount
  have hcheck : check (s.n != 0) .empty = .error { code := .empty, index := 0 } :=
    check_error_iff.2 ⟨by simp [State.n, hcount], rfl⟩
  refine ⟨?_, ?_⟩
  · rw [exec_eq_finish, resultsOf, doScan, hcheck]
    rfl
  · rw [exec_eq_finish, resultsOf, doInitS, hcheck]
    rfl

end Sys2Proof.Machine
end

section
/-! # Constructions: INITB and INITS (R131, R140 to R149)

Once its own checks have passed, a construction is the same from a bound and from a buffer: ComputeScale of the absolute
maximum, and what it answers installed. -/

namespace Sys2Proof.Machine

open Sys2Proof.Claims

/-! ### QTYPE -/

/-- A construction of another QTYPE fails at its first check (R131, R195). -/
theorem exec_of_unsupportedType {i : Instr} {F : Fmt} {qt eb : Nat} (s : State)
    (hi : construction i = some (F, qt, eb)) (hqt : qt ≠ 0) :
    exec i s = .next ((s.setInst Inst.absent).setErr .unsupportedType 0) := by
  have hcheck : check (qtypeSupported qt) .unsupportedType = .error { code := .unsupportedType, index := 0 } :=
    check_error_iff.2 ⟨beq_eq_false_iff_ne.2 hqt, rfl⟩
  cases i with
  | initb F' qt' eb' =>
    cases hi
    rw [exec_eq_finish, resultsOf, doInitB, hcheck]
    rfl
  | inits F' qt' eb' =>
    cases hi
    rw [exec_eq_finish, resultsOf, doInitS, hcheck]
    rfl
  | _ => cases hi

/-- Of the checks of a construction, only the one of QTYPE answers UNSUPPORTED_TYPE (R131). -/
theorem code_ne_unsupportedType {i : Instr} {F : Fmt} {eb : Nat} {s : State} {e : CmdError}
    (hi : construction i = some (F, 0, eb)) (h : resultsOf s i = .error e) : e.code ≠ .unsupportedType := by
  cases i with
  | initb F' qt' eb' =>
    cases hi
    simp only [resultsOf, doInitB, bind_error_iff] at h
    obtain h | ⟨-, -, h | ⟨b, -, h | ⟨c, -, h⟩⟩⟩ := h
    · obtain ⟨hqt, -⟩ := check_error_iff.1 h
      cases hqt
    · obtain ⟨rfl, -⟩ := boundValue_error h
      simp
    · obtain ⟨-, rfl⟩ | ⟨-, -, rfl, -⟩ := computeScale_error_iff.1 h <;> simp
    · cases h
  | inits F' qt' eb' =>
    cases hi
    simp only [resultsOf, doInitS, bind_error_iff] at h
    obtain h | ⟨-, -, h | ⟨-, -, h | ⟨-, -, h | ⟨xs, -, h | ⟨c, -, h⟩⟩⟩⟩⟩ := h
    · obtain ⟨hqt, -⟩ := check_error_iff.1 h
      cases hqt
    · obtain ⟨-, rfl⟩ := check_error_iff.1 h
      simp
    · obtain ⟨-, ⟨-, rfl⟩ | ⟨-, -, rfl⟩⟩ := checkBuf_error_iff.1 h <;> simp
    · obtain ⟨j, -, rfl⟩ := finiteElems_error_iff.1 h
      simp
    · obtain ⟨-, rfl⟩ | ⟨-, -, rfl, -⟩ := computeScale_error_iff.1 h <;> simp
    · cases h
  | _ => cases hi

theorem err_ne_unsupportedType {i : Instr} {F : Fmt} {eb : Nat} {s t : State}
    (hi : construction i = some (F, 0, eb)) (h : exec i s = .next t) : t.err ≠ .unsupportedType := by
  obtain ⟨r, -, rfl⟩ | ⟨e, he, rfl⟩ := exec_cases h
  · simp
  · rw [raise_err]
    exact code_ne_unsupportedType hi he

/-- Settles O31: the first check of a construction, and the codes of the others. -/
theorem unsupportedTypeFailsConstructionFirst : Obligations.UnsupportedTypeFailsConstructionFirst := by
  refine fun F qt eb s => ⟨fun hqt => ⟨?_, ?_⟩, fun t h => ?_⟩
  · exact exec_of_unsupportedType (i := .initb F qt eb) s rfl hqt
  · exact exec_of_unsupportedType (i := .inits F qt eb) s rfl hqt
  · obtain h | h := h
    · exact err_ne_unsupportedType (i := .initb F 0 eb) rfl h
    · exact err_ne_unsupportedType (i := .inits F 0 eb) rfl h

/-! ### The common part of the two constructions -/

/-- The results of a construction over the absolute maximum `a` (R146, R148). -/
def constructFrom (F : Fmt) (eb : Nat) (a : ℚ) (s : State) : Except CmdError State :=
  computeScale F a eb >>= fun c => .ok (install F 0 eb a c.1 c.2 s)

/-- INITB with a valid bound constructs from the bound (R146). -/
theorem exec_initb_of_bound {F : Fmt} {eb : Nat} {s : State} {b : ℚ}
    (hb : decodeFinite F (boundPattern F s) = some b) (h0 : 0 ≤ b) :
    exec (.initb F 0 eb) s = finish true s (constructFrom F eb b s) := by
  have hvalue : boundValue F s = .ok b := boundValue_ok_iff.2 ⟨hb, h0⟩
  rw [exec_eq_finish, resultsOf, doInitB, hvalue]
  rfl

/-- INITS of a valid buffer constructs from the buffer's absolute maximum (R148). -/
theorem exec_inits_of_isAbsMax {F : Fmt} {eb : Nat} {s : State} {a : ℚ} (hn : s.n ≠ 0)
    (hsrc : BufOk s s.src (elemSize F)) (ha : IsAbsMax F s a) :
    exec (.inits F 0 eb) s = finish true s (constructFrom F eb a s) := by
  have hcount : check (s.n != 0) .empty = .ok () := check_ok_iff.2 (bne_iff_ne.2 hn)
  have hbuf : checkBuf s.params s.src (elemSize F) s.n = .ok () := checkBuf_ok_iff.2 hsrc
  rw [exec_eq_finish, resultsOf, doInitS, hcount, hbuf, finiteElems_of_allFinite (allFinite_of_isAbsMax ha),
    ← absMax_eq_of_isAbsMax hn ha]
  rfl

theorem constructFrom_of_ok {F : Fmt} {eb : Nat} {a scale : ℚ} {degen : Bool} (s : State)
    (h : computeScale F a eb = .ok (scale, degen)) :
    constructFrom F eb a s = .ok (install F 0 eb a scale degen s) := by
  rw [constructFrom, h]
  rfl

theorem constructFrom_of_error {F : Fmt} {eb : Nat} {a : ℚ} {e : CmdError} (s : State)
    (h : computeScale F a eb = .error e) : constructFrom F eb a s = .error e := by
  rw [constructFrom, h]
  rfl

/-! ### Construction from a range above 0 -/

/-- Where range and Scale do not overflow, ComputeScale answers the rounded quotient (R142). -/
theorem computeScale_of_rne {F : Fmt} {a v : ℚ} {eb : Nat} (h0 : 0 < a) (hmax : a * 2 ^ eb ≤ maxFinite F)
    (hv : rne F (32768 / (a * 2 ^ eb)) = .fin v) : computeScale F a eb = .ok (v, false) := by
  rw [computeScale_ok_iff, pow2_natCast, divF, pow2_qBits_sub_one]
  exact ⟨hmax, .inr ⟨by positivity, hv, rfl⟩⟩

/-- What a construction with Scale `v` over the absolute maximum `a` leaves (R36, R142, R146, R148). -/
def Constructed (F : Fmt) (eb : Nat) (a v : ℚ) (s : State) (o : Host.Outcome State Fault Refusal) : Prop :=
  ∃ t scale, o = .next t ∧ decodeFinite F scale = some v ∧ 0 < v
    ∧ decodeFinite F (absmax t) = some a ∧ (F = .f32 → t.absmaxHi = 0 ∧ t.inst.scaleHi = 0)
    ∧ t = { s with
        inst := built F eb false scale, absmaxLo := t.absmaxLo, absmaxHi := t.absmaxHi, err := .none, errIndex := 0 }

theorem constructed_of_rne {F : Fmt} {eb : Nat} {a v : ℚ} (s : State) (ha : Representable F a) (h0 : 0 < a)
    (hmax : a * 2 ^ eb ≤ maxFinite F) (hv : rne F (32768 / (a * 2 ^ eb)) = .fin v) :
    Constructed F eb a v s (finish true s (constructFrom F eb a s)) := by
  have hscale := computeScale_of_rne h0 hmax hv
  obtain ⟨hrep, hmin, -⟩ := computeScale_spec h0.le hscale
  rw [constructFrom_of_ok s hscale, finish_ok]
  have hpos : 0 < v := (pow2_pos _).trans_le ((pow2_emin_le_minScale F).trans hmin)
  refine ⟨_, encodeF F (.fin v), rfl, decodeFinite_encodeF hrep, hpos, ?_, ?_, rfl⟩
  · rw [absmax_eq (by rfl) (by rfl)]
    exact decodeFinite_encodeF ha
  · rintro rfl
    exact ⟨hi_encodeF_f32 _, hi_encodeF_f32 _⟩

/-- Settles O38. -/
theorem initBoundBuildsTheInstance : Obligations.InitBoundBuildsTheInstance := by
  intro F eb s b v _ hb h0 hmax hv
  rw [exec_initb_of_bound hb h0.le]
  exact constructed_of_rne s ⟨_, hb⟩ h0 hmax hv

/-- Settles O39. -/
theorem initSamplesBuildsTheInstance : Obligations.InitSamplesBuildsTheInstance := by
  intro F eb s a v _ hn hsrc ha h0 hmax hv
  rw [exec_inits_of_isAbsMax hn hsrc ha]
  exact constructed_of_rne s (representable_of_isAbsMax ha) h0 hmax hv

/-! ### Construction from a zero range -/

theorem encodeF_one (F : Fmt) : encodeF F (.fin 1) = onePattern F := by
  have hdecode : decodeFinite F (onePattern F) = some 1 := by cases F <;> decide +kernel
  have hwidth : (onePattern F).toNat < 2 ^ fWidth F := by cases F <;> decide
  obtain ⟨hround, -⟩ := encodeFInvertsDecodeF F
  obtain ⟨-, hencode, -⟩ := hround _ _ hdecode
  exact hencode hwidth one_ne_zero

theorem computeScale_zero (F : Fmt) (eb : Nat) : computeScale F 0 eb = .ok (1, true) := by
  rw [computeScale_ok_iff, zero_mul]
  exact ⟨(maxFinite_pos F).le, .inl ⟨rfl, rfl, rfl⟩⟩

/-- `ComputeScale` is degenerate exactly at a zero range, and then answers 1 (R141). -/
theorem computeScale_degen {F : Fmt} {a v : ℚ} {E : Nat} {d : Bool} (h : computeScale F a E = .ok (v, d)) :
    (d = true ↔ a = 0) ∧ (d = true → v = 1) := by
  obtain ⟨-, ⟨hzero, rfl, rfl⟩ | ⟨hne, -, rfl⟩⟩ := computeScale_ok_iff.1 h
  · exact ⟨iff_of_true rfl ((mul_eq_zero_iff_right (pow2_ne_zero _)).1 hzero), fun _ => rfl⟩
  · exact ⟨iff_of_false (by simp) (left_ne_zero_of_mul hne), by simp⟩

/-- A construction over an absolute maximum of 0 installs a degenerate `Inst` of Scale 1.0 (R141). -/
theorem finish_constructFrom_zero (F : Fmt) (eb : Nat) (s : State) :
    finish true s (constructFrom F eb 0 s) = .next { s with
      inst := built F eb true (onePattern F), absmaxLo := 0, absmaxHi := 0, err := .none, errIndex := 0 } := by
  rw [constructFrom_of_ok s (computeScale_zero F eb), finish_ok, install, encodeF_zero, encodeF_one]
  rfl

theorem isAbsMax_zero {F : Fmt} {s : State} (hn : s.n ≠ 0) (h : ∀ i < s.n, rawAt F s.mem s.src i = some 0) :
    IsAbsMax F s 0 :=
  ⟨fun i hi => ⟨0, h i hi, abs_zero.le⟩, 0, Nat.pos_of_ne_zero hn, 0, h 0 (Nat.pos_of_ne_zero hn), abs_zero⟩

/-- Settles O40: both constructions over the absolute maximum 0. -/
theorem zeroRangeBuildsADegenerateInstance : Obligations.ZeroRangeBuildsADegenerateInstance := by
  refine ⟨fun F eb s _ hb => ?_, fun F eb s _ hn hsrc h => ?_, fun F a E v d h => computeScale_degen h⟩
  · rw [exec_initb_of_bound hb le_rfl, finish_constructFrom_zero]
  · rw [exec_inits_of_isAbsMax hn hsrc (isAbsMax_zero hn h), finish_constructFrom_zero]

/-! ### BAD_BOUND -/

/-- A bound that is not a finite value of at least 0 fails INITB (R147). -/
theorem exec_initb_of_badBound {F : Fmt} {eb : Nat} {s : State}
    (h : ∀ b, decodeFinite F (boundPattern F s) = some b → b < 0) :
    exec (.initb F 0 eb) s = .next ((s.setInst Inst.absent).setErr .badBound 0) := by
  have hvalue : boundValue F s = .error { code := .badBound, index := 0 } := by
    cases hb : boundValue F s with
    | ok b =>
      obtain ⟨hd, h0⟩ := boundValue_ok_iff.1 hb
      exact absurd h0 (h b hd).not_ge
    | error e =>
      obtain ⟨rfl, -⟩ := boundValue_error hb
      rfl
  rw [exec_eq_finish, resultsOf, doInitB, hvalue]
  rfl

theorem lt_zero_of_rejected {F : Fmt} {p : Pattern}
    (h : decodeF F p = none ∨ (∃ neg, decodeF F p = some (.inf neg)) ∨ ∃ b < 0, decodeF F p = some (.fin b)) :
    ∀ b, decodeFinite F p = some b → b < 0 := by
  intro b hb
  rw [decodeFinite] at hb
  obtain h | ⟨neg, h⟩ | ⟨b', hneg, h⟩ := h
  · simp [h] at hb
  · simp [h] at hb
  · obtain rfl : b' = b := by simpa [h] using hb
    exact hneg

/-- Past its bound, INITB fails only in `ComputeScale`, which has codes of its own. -/
theorem err_constructFrom_ne_badBound (F : Fmt) (eb : Nat) (a : ℚ) (s : State) :
    ∃ t, finish true s (constructFrom F eb a s) = .next t ∧ t.err ≠ .badBound := by
  cases hc : computeScale F a eb with
  | ok c => exact ⟨_, by rw [constructFrom_of_ok s hc, finish_ok], by simp⟩
  | error e =>
    refine ⟨_, by rw [constructFrom_of_error s hc, finish_error], ?_⟩
    obtain ⟨-, rfl⟩ | ⟨-, -, rfl, -⟩ := computeScale_error_iff.1 hc <;> simp

/-- Settles O41. -/
theorem badBoundIsRejected : Obligations.BadBoundIsRejected := by
  refine fun F eb s => ⟨fun h => exec_initb_of_badBound (lt_zero_of_rejected h), fun b h0 hb => ?_⟩
  rw [exec_initb_of_bound (by rw [decodeFinite, hb]) h0]
  exact err_constructFrom_ne_badBound F eb b s

/-! ### The same `Inst` from a bound and from a buffer -/

/-- Settles O42: both are the construction over the same absolute maximum, which reads nothing else of the state. -/
theorem boundAndSamplesBuildTheSameInstance : Obligations.BoundAndSamplesBuildTheSameInstance := by
  intro F E s s' B h0 hb hn hsrc ha
  rw [exec_initb_of_bound hb h0, exec_inits_of_isAbsMax hn hsrc ha]
  cases hc : computeScale F B E with
  | ok c =>
    rw [constructFrom_of_ok s hc, constructFrom_of_ok s' hc]
    exact ⟨_, _, rfl, rfl, rfl, rfl, fun _ => rfl⟩
  | error e =>
    rw [constructFrom_of_error s hc, constructFrom_of_error s' hc]
    refine ⟨_, _, rfl, rfl, by simp, by simp, fun hnone => ?_⟩
    obtain ⟨-, rfl⟩ | ⟨-, -, rfl, -⟩ := computeScale_error_iff.1 hc <;> simp at hnone

end Sys2Proof.Machine
end

section
/-! # The error of one rounding (R18, R19)

A representable number is its own rounding; any other finite result is off by at most 2^-p of the number, or of 2^emin
where the number lies below it. -/

namespace Sys2Proof.Machine

open Sys2Proof.Claims

/-! ### Which numbers overflow -/

theorem rne_eq_inf_iff {F : Fmt} {r : ℚ} {neg : Bool} :
    rne F r = .inf neg ↔ overflowThreshold F ≤ |r| ∧ neg = decide (r < 0) := by
  obtain ⟨-, hinf⟩ := rneRoundsToNearestEven F r
  exact hinf neg

theorem exists_rne_eq_fin {F : Fmt} {r : ℚ} (h : |r| < overflowThreshold F) : ∃ v, rne F r = .fin v := by
  cases hr : rne F r with
  | fin v => exact ⟨v, rfl⟩
  | inf neg => exact absurd (rne_eq_inf_iff.1 hr).1 (not_le.2 h)

theorem overflowThreshold_pos (F : Fmt) : 0 < overflowThreshold F :=
  (pow2_pos _).trans (pow2_emax_lt_overflowThreshold F)

/-- MAX_F lies half a unit of the top binade below the threshold. -/
theorem maxFinite_lt_overflowThreshold (F : Fmt) : maxFinite F < overflowThreshold F := by
  rw [maxFinite_eq_floatMag, floatMag_eq, overflowThreshold_eq, Nat.cast_sub Nat.one_le_two_pow, Nat.cast_pow]
  exact mul_lt_mul_of_pos_right (by push_cast; linarith) (two_pow_mul_ulpMin_pos F _)

/-! ### Exactness -/

/-- No representable number is nearer to `x` than `x` itself. -/
theorem rne_of_representable {F : Fmt} {x : ℚ} (h : Representable F x) : rne F x = .fin x := by
  have hle : |x| ≤ maxFinite F := le_maxFinite_of_representable (representable_abs h)
  obtain ⟨v, hv⟩ := exists_rne_eq_fin (hle.trans_lt (maxFinite_lt_overflowThreshold F))
  obtain ⟨hround, -⟩ := rneRoundsToNearestEven F x
  obtain ⟨-, hnearest⟩ := hround v hv
  obtain ⟨hnear, -⟩ := hnearest x h
  rw [sub_self, abs_zero] at hnear
  rw [hv, ← sub_eq_zero.1 (abs_nonpos_iff.1 hnear)]

/-- The shift at which the unit of the format is 1, so that a significand is its own value. -/
theorem floatMag_unit_shift (F : Fmt) (n : Nat) : floatMag F n (emax F + fPrec F - 2).toNat = n := by
  have hunit : emin F + ((emax F + fPrec F - 2).toNat : ℤ) - fPrec F + 1 = 0 := by cases F <;> decide
  rw [floatMag_eq, two_pow_mul_ulpMin, hunit]
  simp [pow2]

/-- Every natural number of p bits is representable. -/
theorem representable_natCast {F : Fmt} {n : Nat} (h : n < 2 ^ fPrec F) : Representable F n := by
  have hrep := representable_floatMag_of_lt (F := F) (emax F + fPrec F - 2).toNat h
  rw [floatMag_unit_shift] at hrep
  apply hrep
  calc (n : ℚ) < 2 ^ fPrec F := by exact_mod_cast h
    _ = pow2 (fPrec F) := (pow2_natCast _).symm
    _ ≤ pow2 (emax F + 1) := pow2_le_pow2_iff.2 (by cases F <;> decide)

/-- Every integer of p bits and a sign is representable. -/
theorem representable_intCast {F : Fmt} {q : ℤ} (h : q.natAbs < 2 ^ fPrec F) : Representable F q := by
  obtain ⟨n, rfl | rfl⟩ := q.eq_nat_or_neg
  · rw [Int.natAbs_natCast] at h
    exact_mod_cast representable_natCast h
  · rw [Int.natAbs_neg, Int.natAbs_natCast] at h
    rw [Int.cast_neg, Int.cast_natCast]
    exact representable_applySign true (representable_natCast h)

/-! ### The error -/

/-- Half the unit a magnitude is rounded to is 2^-p of its binade, the lowest normal one where it lies below (R18). -/
theorem roundUnit_half_le (F : Fmt) {a : ℚ} (ha : 0 < a) :
    roundUnit F a / 2 ≤ pow2 (-fPrec F) * max a (pow2 (emin F)) := by
  have hunit : roundUnit F a / 2 = pow2 (-fPrec F) * pow2 (max (Int.log 2 a) (emin F)) := by
    have hexp : max (Int.log 2 a) (emin F) - (fPrec F : ℤ) + 1 = -fPrec F + max (Int.log 2 a) (emin F) + 1 := by ring
    rw [roundUnit, hexp, pow2_add _ 1, pow2_add, show pow2 1 = 2 from rfl, mul_div_cancel_right₀ _ two_ne_zero]
  have hbinade : pow2 (max (Int.log 2 a) (emin F)) ≤ max a (pow2 (emin F)) := by
    obtain h | h := le_total (Int.log 2 a) (emin F)
    · rw [max_eq_right h]
      exact le_max_right _ _
    · rw [max_eq_left h]
      exact (pow2_log_le ha).trans (le_max_left _ _)
  rw [hunit]
  exact mul_le_mul_of_nonneg_left hbinade (pow2_pos _).le

/-- The error of a rounding that does not overflow, for normal and subnormal numbers alike. -/
theorem rne_err {F : Fmt} {r v : ℚ} (h : rne F r = .fin v) : |v - r| ≤ pow2 (-fPrec F) * max |r| (pow2 (emin F)) := by
  obtain rfl | hr := eq_or_ne r 0
  · obtain rfl : 0 = v := by simpa using h
    rw [sub_self, abs_zero]
    exact mul_nonneg (pow2_pos _).le (le_max_left _ _)
  · obtain ⟨-, hinf⟩ | ⟨-, hfin⟩ := rne_cases F hr
    · simp [hinf] at h
    · obtain rfl : applySign (decide (r < 0)) (roundMag F |r|) = v := FpNum.fin.inj (hfin.symm.trans h)
      have hsign := abs_applySign_sub (decide (r < 0)) (roundMag F |r|) |r|
      rw [applySign_decide_abs] at hsign
      rw [hsign]
      exact (roundMag_err F |r|).trans (roundUnit_half_le F (abs_pos.2 hr))

/-- From the smallest normal number on, the error is relative 2^-p (R173). -/
theorem rne_err_of_normal {F : Fmt} {r v : ℚ} (h : rne F r = .fin v) (hr : pow2 (emin F) ≤ |r|) :
    |v - r| ≤ pow2 (-fPrec F) * |r| := by
  simpa [max_eq_left hr] using rne_err h

/-- For every number, half the smallest subnormal is enough on top of that. -/
theorem rne_err_add_subnormal {F : Fmt} {r v : ℚ} (h : rne F r = .fin v) :
    |v - r| ≤ pow2 (-fPrec F) * |r| + pow2 (emin F - fPrec F) := by
  have hmax : max |r| (pow2 (emin F)) ≤ |r| + pow2 (emin F) :=
    max_le (le_add_of_nonneg_right (pow2_pos _).le) (le_add_of_nonneg_left (abs_nonneg r))
  calc |v - r| ≤ pow2 (-fPrec F) * max |r| (pow2 (emin F)) := rne_err h
    _ ≤ pow2 (-fPrec F) * (|r| + pow2 (emin F)) := mul_le_mul_of_nonneg_left hmax (pow2_pos _).le
    _ = pow2 (-fPrec F) * |r| + pow2 (emin F - fPrec F) := by rw [mul_add, ← pow2_add, neg_add_eq_sub]

/-- A relative error of 2^-p is at most 2^-24, that of binary32. -/
theorem pow2_neg_fPrec_le (F : Fmt) : pow2 (-fPrec F) ≤ 1 / 16777216 := by
  have h : pow2 (-fPrec F) ≤ pow2 (-24) := pow2_le_pow2_iff.2 (by cases F <;> decide)
  exact h.trans_eq (by norm_num [pow2])

theorem pow2_emin_le_quarter (F : Fmt) : pow2 (emin F) ≤ 1 / 4 := by
  have h : pow2 (emin F) ≤ pow2 (-2) := pow2_le_pow2_iff.2 (by cases F <;> decide)
  exact h.trans_eq (by norm_num [pow2])

/-- In and just around the range of 16-bit integers a rounding does not overflow and is off by at most 2^-8. -/
theorem exists_rne_near {F : Fmt} {r : ℚ} (h : |r| ≤ 65536) : ∃ v, rne F r = .fin v ∧ |v - r| ≤ 1 / 256 := by
  have htop : pow2 16 ≤ pow2 (emax F) := pow2_le_pow2_iff.2 (by cases F <;> decide)
  have hsixteen : pow2 16 = 65536 := by norm_num [pow2]
  obtain ⟨v, hv⟩ := exists_rne_eq_fin (F := F) (r := r) (by linarith [pow2_emax_lt_overflowThreshold F])
  have hmax : max |r| (pow2 (emin F)) ≤ 65536 := max_le h (by linarith [pow2_emin_le_quarter F])
  refine ⟨v, hv, (rne_err hv).trans ?_⟩
  calc pow2 (-fPrec F) * max |r| (pow2 (emin F)) ≤ 1 / 16777216 * 65536 :=
        mul_le_mul (pow2_neg_fPrec_le F) hmax ((abs_nonneg r).trans (le_max_left _ _)) (by norm_num)
    _ = 1 / 256 := by norm_num

end Sys2Proof.Machine
end

section
/-! # Q1: the product, its rounding to an integer and its saturation (R161 to R165) -/

namespace Sys2Proof.Machine

open Sys2Proof.Claims

/-! ### Where `rha` reaches an integer -/

/-- `rha` reaches a positive integer from half below it on: the tie goes up (R20). -/
theorem le_rha_iff {k : ℤ} {r : ℚ} (hk : 0 < k) : k ≤ rha r ↔ (k : ℚ) - 1 / 2 ≤ r := by
  have hone : (1 : ℚ) ≤ k := by exact_mod_cast hk
  obtain hr | hr := le_or_gt 0 r
  · rw [rha_of_nonneg hr, Int.le_floor, sub_le_iff_le_add]
  · have hfloor : 0 ≤ ⌊|r| + 1 / 2⌋ := Int.floor_nonneg.2 (by positivity)
    rw [rha_of_neg hr]
    exact iff_of_false (by omega) (by linarith)

/-- The mirror of `le_rha_iff` below 0. -/
theorem rha_le_neg_iff {k : ℤ} {r : ℚ} (hk : 0 < k) : rha r ≤ -k ↔ r ≤ -((k : ℚ) - 1 / 2) := by
  rw [le_neg, ← rha_neg, le_rha_iff hk, le_neg]

/-- `rha` passes 32767 from 32767.5 on. -/
theorem max_lt_rha_iff {r : ℚ} : 32767 < rha r ↔ 65535 / 2 ≤ r := by
  rw [Int.lt_iff_add_one_le, le_rha_iff (by norm_num)]
  norm_num

/-- `rha` falls below -32767 from -32767.5 down. -/
theorem rha_lt_neg_max_iff {r : ℚ} : rha r < -32767 ↔ r ≤ -65535 / 2 := by
  rw [← Int.le_sub_one_iff, show (-32767 - 1 : ℤ) = -32768 from rfl, rha_le_neg_iff (by norm_num)]
  norm_num

/-- `rha` falls below -32768 from -32768.5 down. -/
theorem rha_lt_min_iff {r : ℚ} : rha r < -32768 ↔ r ≤ -65537 / 2 := by
  rw [← Int.le_sub_one_iff, show (-32768 - 1 : ℤ) = -32769 from rfl, rha_le_neg_iff (by norm_num)]
  norm_num

/-! ### The clamp -/

theorem qMax_eq : qMax = 32767 := rfl

theorem qMin_eq (p : Params) : qMin p = if p.symSat then -32767 else -32768 := rfl

theorem qMin_of_not_symSat {p : Params} (hsym : p.symSat = false) : qMin p = -32768 := by
  rw [qMin_eq, hsym, if_neg (by decide)]

theorem qMin_of_symSat {p : Params} (hsym : p.symSat = true) : qMin p = -32767 := by rw [qMin_eq, hsym, if_pos rfl]

theorem qMin_lt_qMax (p : Params) : qMin p < qMax := by
  rw [qMin_eq, qMax_eq]
  split <;> decide

theorem roundClamp_of_mem {p : Params} {r : ℚ} (hlo : qMin p ≤ rha r) (hhi : rha r ≤ qMax) :
    roundClamp p r = (rha r, false) := by
  rw [roundClamp, clamp_of_mem hlo hhi, bne_self_eq_false]

theorem roundClamp_of_gt {p : Params} {r : ℚ} (h : qMax < rha r) : roundClamp p r = (qMax, true) := by
  have hclamp : clamp (rha r) (qMin p) qMax = qMax := by
    rw [clamp, if_neg (by have := qMin_lt_qMax p; omega), if_pos h]
  rw [roundClamp, hclamp, bne_iff_ne.2 h.ne]

theorem roundClamp_of_lt {p : Params} {r : ℚ} (h : rha r < qMin p) : roundClamp p r = (qMin p, true) := by
  rw [roundClamp, clamp, if_pos h, bne_iff_ne.2 h.ne']

/-- The three outcomes of rounding and clamping (R163). -/
theorem roundClamp_cases (p : Params) (r : ℚ) :
    (rha r < qMin p ∧ roundClamp p r = (qMin p, true)) ∨
      ((qMin p ≤ rha r ∧ rha r ≤ qMax) ∧ roundClamp p r = (rha r, false)) ∨
      (qMax < rha r ∧ roundClamp p r = (qMax, true)) := by
  obtain hlo | hlo := lt_or_ge (rha r) (qMin p)
  · exact .inl ⟨hlo, roundClamp_of_lt hlo⟩
  · obtain hhi | hhi := le_or_gt (rha r) qMax
    · exact .inr (.inl ⟨⟨hlo, hhi⟩, roundClamp_of_mem hlo hhi⟩)
    · exact .inr (.inr ⟨hhi, roundClamp_of_gt hhi⟩)

theorem roundClamp_eq_qMax_iff {p : Params} {r : ℚ} : roundClamp p r = (qMax, true) ↔ qMax < rha r := by
  refine ⟨fun h => ?_, roundClamp_of_gt⟩
  obtain ⟨-, hc⟩ | ⟨-, hc⟩ | ⟨hgt, -⟩ := roundClamp_cases p r
  · exact absurd (Prod.ext_iff.1 (hc.symm.trans h)).1 (qMin_lt_qMax p).ne
  · simp [hc] at h
  · exact hgt

theorem roundClamp_eq_qMin_iff {p : Params} {r : ℚ} : roundClamp p r = (qMin p, true) ↔ rha r < qMin p := by
  refine ⟨fun h => ?_, roundClamp_of_lt⟩
  obtain ⟨hlt, -⟩ | ⟨-, hc⟩ | ⟨-, hc⟩ := roundClamp_cases p r
  · exact hlt
  · simp [hc] at h
  · exact absurd (Prod.ext_iff.1 (hc.symm.trans h)).1 (qMin_lt_qMax p).ne'

theorem eq_rha_of_roundClamp {p : Params} {r : ℚ} {y : ℤ} (h : roundClamp p r = (y, false)) : y = rha r := by
  obtain ⟨-, hc⟩ | ⟨-, hc⟩ | ⟨-, hc⟩ := roundClamp_cases p r
  · simp [hc] at h
  · exact (Prod.ext_iff.1 (h.symm.trans hc)).1
  · simp [hc] at h

/-- A number inside ±32767 does not saturate, under either reading of SYM_SAT. -/
theorem roundClamp_of_abs_le {p : Params} {r : ℚ} (h : |r| ≤ 32767) : roundClamp p r = (rha r, false) := by
  obtain ⟨hlo, hhi⟩ := abs_le.1 h
  have hmax : ¬ 32767 < rha r := mt max_lt_rha_iff.1 (by linarith)
  have hmin : ¬ rha r < -32767 := mt rha_lt_neg_max_iff.1 (by linarith)
  refine roundClamp_of_mem ?_ (not_lt.1 hmax)
  rw [qMin_eq]
  split <;> omega

/-- The upper threshold of saturation (R165). -/
theorem roundClamp_saturates_above_iff {p : Params} {r : ℚ} : roundClamp p r = (32767, true) ↔ 65535 / 2 ≤ r :=
  roundClamp_eq_qMax_iff.trans max_lt_rha_iff

/-- The lower threshold of saturation with the full negative range (R165). -/
theorem roundClamp_saturates_below_iff {p : Params} {r : ℚ} (hsym : p.symSat = false) :
    roundClamp p r = (-32768, true) ↔ r ≤ -65537 / 2 := by
  have hmin := qMin_of_not_symSat hsym
  rw [← rha_lt_min_iff, ← hmin, roundClamp_eq_qMin_iff]

/-- The lower threshold of saturation with the symmetric range (R165). -/
theorem roundClamp_saturates_below_iff_of_symSat {p : Params} {r : ℚ} (hsym : p.symSat = true) :
    roundClamp p r = (-32767, true) ↔ r ≤ -65535 / 2 := by
  have hmin := qMin_of_symSat hsym
  rw [← rha_lt_neg_max_iff, ← hmin, roundClamp_eq_qMin_iff]

/-- -32768 is stored without saturation from -32767.5 down to the threshold (R165). -/
theorem roundClamp_eq_min_exactly {p : Params} {r : ℚ} (hsym : p.symSat = false) (hlo : -65537 / 2 < r)
    (hhi : r ≤ -65535 / 2) : roundClamp p r = (-32768, false) := by
  have hmin := qMin_of_not_symSat hsym
  have hbelow := rha_lt_neg_max_iff.2 hhi
  have habove := mt rha_lt_min_iff.1 (not_le.2 hlo)
  obtain hr : rha r = -32768 := by omega
  rw [roundClamp_of_mem (by omega) (by rw [qMax_eq]; omega), hr]

/-! ### Q1 by the product -/

theorem quantElem_of_fin {p : Params} {F : Fmt} {scale x v : ℚ} (h : rne F (x * scale) = .fin v) :
    quantElem p F scale x = roundClamp p v := by
  rw [quantElem, mulF, h]

theorem quantElem_of_inf {p : Params} {F : Fmt} {scale x : ℚ} {neg : Bool} (h : rne F (x * scale) = .inf neg) :
    quantElem p F scale x = (if neg then qMin p else qMax, true) := by
  rw [quantElem, mulF, h]
  cases neg <;> rfl

/-- An element that does not saturate is its rounded product, rounded to an integer (R163, R164). -/
theorem exists_product_of_not_saturated {p : Params} {F : Fmt} {scale x : ℚ} {y : ℤ}
    (h : quantElem p F scale x = (y, false)) : ∃ r, rne F (x * scale) = .fin r ∧ y = rha r := by
  cases hr : rne F (x * scale) with
  | fin r =>
    rw [quantElem_of_fin hr] at h
    exact ⟨r, rfl, eq_rha_of_roundClamp h⟩
  | inf neg => simp [quantElem_of_inf hr] at h

/-- Settles O44: the overflow of the one rounding, with the sign of the product. -/
theorem productOverflowSaturates : Obligations.ProductOverflowSaturates := by
  intro p F scale x
  have hpos := overflowThreshold_pos F
  refine ⟨?_, fun h => ?_, fun h => ?_⟩
  · simp [mulF, rne_eq_inf_iff]
  · have hinf : rne F (x * scale) = .inf false :=
      rne_eq_inf_iff.2 ⟨h.trans (le_abs_self _), (decide_eq_false (by linarith)).symm⟩
    exact quantElem_of_inf hinf
  · have hinf : rne F (x * scale) = .inf true :=
      rne_eq_inf_iff.2 ⟨h.trans (neg_le_abs _), (decide_eq_true (by linarith)).symm⟩
    exact quantElem_of_inf hinf

/-- The example of R161: the product rounded to binary32 is the tie 14043.5, and the exact product is below it. -/
theorem quantElem_rounds_twice (p : Params) {scale x : ℚ} (hs : decodeFinite .f32 0x44124925 = some scale)
    (hx : decodeFinite .f32 0x41C0003F = some x) :
    rne .f32 (x * scale) = .fin (28087 / 2) ∧ quantElem p .f32 scale x = (14044, false) ∧ rha (x * scale) = 14043 := by
  obtain rfl : (decodeFinite .f32 0x44124925).getD 0 = scale := by rw [hs, Option.getD_some]
  obtain rfl : (decodeFinite .f32 0x41C0003F).getD 0 = x := by rw [hx, Option.getD_some]
  have hproduct : rne .f32 ((decodeFinite .f32 0x41C0003F).getD 0 * (decodeFinite .f32 0x44124925).getD 0)
      = .fin (28087 / 2) := by decide +kernel
  have hrha : rha (28087 / 2) = 14044 := by decide +kernel
  refine ⟨hproduct, ?_, by decide +kernel⟩
  rw [quantElem_of_fin hproduct, roundClamp_of_abs_le (by norm_num), hrha]

/-- Settles O45: Q1 of a finite product is `roundClamp`, whose thresholds are where `rha` passes the clamp. -/
theorem saturationThresholds : Obligations.SaturationThresholds := by
  intro p r
  refine ⟨fun F scale x v hv => quantElem_of_fin hv, fun scale x => quantElem_rounds_twice p,
    fun F scale x v => quantElem_of_fin, roundClamp_saturates_above_iff,
    fun hsym => ⟨roundClamp_saturates_below_iff hsym, roundClamp_eq_min_exactly hsym, fun h => ?_⟩,
    roundClamp_saturates_below_iff_of_symSat⟩
  obtain hr | hr := le_or_gt r (-65537 / 2)
  · rw [(roundClamp_saturates_below_iff hsym).2 hr]
  · rw [roundClamp_eq_min_exactly hsym hr h]

end Sys2Proof.Machine
end

section
/-! # The two transforms on numbers: the margin, the inverse, and the round trip (R167, R170, R173)

Each rounding is followed by its error alone: a Scale times its range is 2^15 up to a relative 2^-p, and so is every
product of an element in that range. -/

namespace Sys2Proof.Machine

open Sys2Proof.Claims

/-! ### The margin -/

theorem pow2_emin_le_quotient {F : Fmt} {b : ℚ} (h0 : 0 < b) (hb : b ≤ maxFinite F) :
    pow2 (emin F) ≤ 32768 / b := by
  have hmid := midpoint_lt_quotient h0 hb
  rw [pow2_qBits_sub_one] at hmid
  have hstep := pow2_lt_minScale F
  have hlow : pow2 (emin F) ≤ pow2 (14 - emax F) := pow2_le_pow2_iff.2 (by have := emin_add_thirteen F; omega)
  linarith

/-- A Scale times the effective range it was computed for is 2^15, up to the one rounding of the quotient (R140). -/
theorem abs_scale_mul_range_sub_le {F : Fmt} {a v : ℚ} {E : Nat} (h0 : 0 ≤ a)
    (h : computeScale F a E = .ok (v, false)) : |a * 2 ^ E * v - 32768| ≤ 1 / 512 := by
  rw [computeScale_ok_iff, pow2_natCast, divF, pow2_qBits_sub_one] at h
  obtain ⟨hguard, ⟨-, -, ⟨⟩⟩ | ⟨hne, hrne, -⟩⟩ := h
  have hpos : 0 < a * 2 ^ E := lt_of_le_of_ne (by positivity) hne.symm
  have hquot : 0 < 32768 / (a * 2 ^ E) := by positivity
  have hnormal := pow2_emin_le_quotient hpos hguard
  have herr := rne_err_of_normal hrne (by rwa [abs_of_pos hquot])
  calc |a * 2 ^ E * v - 32768|
      = a * 2 ^ E * |v - 32768 / (a * 2 ^ E)| := by
        rw [← abs_of_pos hpos, ← abs_mul, abs_of_pos hpos, mul_sub, mul_div_cancel₀ _ hpos.ne']
    _ ≤ a * 2 ^ E * (1 / 16777216 * (32768 / (a * 2 ^ E))) := by
        rw [abs_of_pos hquot] at herr
        exact mul_le_mul_of_nonneg_left
          (herr.trans (mul_le_mul_of_nonneg_right (pow2_neg_fPrec_le F) hquot.le)) hpos.le
    _ = 1 / 512 := by
        rw [mul_left_comm, mul_div_cancel₀ _ hpos.ne']
        norm_num

/-- Settles O47: with a margin the products stay below 2^14 + 1; without one, ±absoluteMax has a product within 1/128 of
±2^15, which rounds to ±32768. -/
theorem noClampInsideTheMargin : Obligations.NoClampInsideTheMargin := by
  intro p F a E v _ h0 h
  have hscale : 0 ≤ v := by
    obtain ⟨-, hmin, -⟩ := computeScale_spec h0 h
    exact (pow2_pos _).le.trans ((pow2_emin_le_minScale F).trans hmin)
  have hrange := abs_scale_mul_range_sub_le h0 h
  obtain ⟨hlo, hhi⟩ := abs_le.1 hrange
  refine ⟨fun hE x hx => ?_, ?_⟩
  · have hdouble : (2 : ℚ) ≤ 2 ^ E := le_self_pow₀ one_le_two (by omega)
    have hproduct : |x * v| ≤ 16385 := by
      have hmax : |x| * v ≤ a * v := mul_le_mul_of_nonneg_right hx hscale
      have heff : a * v * 2 ≤ a * v * 2 ^ E := mul_le_mul_of_nonneg_left hdouble (mul_nonneg h0 hscale)
      rw [abs_mul, abs_of_nonneg hscale]
      linarith
    obtain ⟨w, hw, hnear⟩ := exists_rne_near (F := F) (r := x * v) (by linarith)
    have hwabs : |w| ≤ 32767 := by linarith [abs_sub_abs_le_abs_sub w (x * v)]
    rw [quantElem_of_fin hw, roundClamp_of_abs_le hwabs]
  · rintro rfl
    rw [pow_zero, mul_one] at hlo hhi
    obtain ⟨w, hw, hnear⟩ := exists_rne_near (F := F) (r := a * v) (abs_le.2 ⟨by linarith, by linarith⟩)
    obtain ⟨w', hw', hnear'⟩ := exists_rne_near (F := F) (r := -a * v) (abs_le.2 ⟨by linarith, by linarith⟩)
    obtain ⟨hwlo, hwhi⟩ := abs_le.1 hnear
    obtain ⟨hwlo', hwhi'⟩ := abs_le.1 hnear'
    rw [quantElem_of_fin hw, quantElem_of_fin hw']
    exact ⟨roundClamp_saturates_above_iff.2 (by linarith),
      fun hsym => roundClamp_eq_min_exactly hsym (by linarith) (by linarith)⟩

/-! ### The inverse -/

/-- What the invariant says of a group `Inst` with VALID 1 (R36, R144). -/
theorem scaleValue_of_inv {s : State} (hs : s.Inv) (hv : s.inst.valid = true) :
    minScale s.inst.fmt ≤ s.inst.scaleValue ∧ (s.inst.degen = true → s.inst.scaleValue = 1) := by
  obtain ⟨-, -, -, hinst, -⟩ := hs
  rw [Inst.Ok, if_pos hv] at hinst
  obtain ⟨⟨r, hr, hmin, hdegen⟩, -⟩ := hinst
  rw [Inst.scaleValue, hr, Option.getD_some]
  exact ⟨hmin, hdegen⟩

/-- DEGEN is set only where VALID is (R36). -/
theorem valid_of_degen {s : State} (hs : s.Inv) (hd : s.inst.degen = true) : s.inst.valid = true := by
  obtain ⟨-, -, -, hinst, -⟩ := hs
  by_contra hv
  rw [Inst.Ok, if_neg hv] at hinst
  simp [hinst, Inst.absent] at hd

/-- A 16-bit integer is exact in both formats. -/
theorem representable_int16 {F : Fmt} {q : ℤ} (hlo : -32768 ≤ q) (hhi : q ≤ 32767) : Representable F q :=
  representable_intCast (lt_of_lt_of_le (by omega : q.natAbs < 2 ^ 24) (by cases F <;> decide))

/-- Settles O49: 2^15 over the smallest Scale is below the overflow threshold. -/
theorem dequantNeverOverflows : Obligations.DequantNeverOverflows := by
  intro s hs hv q hlo hhi
  obtain ⟨hmin, hdegen⟩ := scaleValue_of_inv hs hv
  have hpos : 0 < s.inst.scaleValue := (pow2_pos _).trans_le ((pow2_emin_le_minScale _).trans hmin)
  refine ⟨exists_rne_eq_fin ?_, fun hd => ?_⟩
  · have hq : |(q : ℚ)| ≤ 32768 := abs_le.2 ⟨by exact_mod_cast hlo, by exact_mod_cast (by omega : q ≤ 32768)⟩
    rw [abs_div, abs_of_pos hpos, div_lt_iff₀ hpos]
    calc |(q : ℚ)| ≤ 32768 := hq
      _ < overflowThreshold s.inst.fmt * minScale s.inst.fmt := lt_overflowThreshold_mul_minScale _
      _ ≤ overflowThreshold s.inst.fmt * s.inst.scaleValue :=
        mul_le_mul_of_nonneg_left hmin (overflowThreshold_pos _).le
  · rw [hdegen hd, dequantElem, divF, div_one]
    exact rne_of_representable (representable_int16 hlo hhi)

/-! ### The round trip -/

/-- Q1 without saturation is within a half of the exact product, and the relative error of the product's rounding. Below
the smallest normal number the product needs no error of its own: its integer is 0. -/
theorem abs_quantElem_sub_le {p : Params} {F : Fmt} {scale x : ℚ} {y : ℤ} (h : quantElem p F scale x = (y, false)) :
    |(y : ℚ) - x * scale| ≤ 1 / 2 + pow2 (-fPrec F) * |x * scale| := by
  obtain ⟨r, hr, rfl⟩ := exists_product_of_not_saturated h
  obtain hnormal | hsmall := le_or_gt (pow2 (emin F)) |x * scale|
  · obtain ⟨hhalf, -⟩ := roundsHalfAway r
    have herr := rne_err_of_normal hr hnormal
    exact (abs_sub_le _ r _).trans (add_le_add hhalf herr)
  · have hemin := pow2_emin_le_quarter F
    have herr := rne_err hr
    rw [max_eq_right hsmall.le] at herr
    have hrsmall : |r| < 1 / 2 := by
      have hprec := mul_le_mul (pow2_neg_fPrec_le F) hemin (pow2_pos _).le (by norm_num)
      linarith [abs_sub_abs_le_abs_sub r (x * scale)]
    obtain ⟨hlo, hhi⟩ := abs_lt.1 hrsmall
    have hzero : rha r = 0 := by
      have hup := mt (le_rha_iff (k := 1) (r := r) one_pos).1 (by push_cast; linarith)
      have hdown := mt (rha_le_neg_iff (k := 1) (r := r) one_pos).1 (by push_cast; linarith)
      omega
    have hprod : 0 ≤ pow2 (-fPrec F) * |x * scale| := mul_nonneg (pow2_pos _).le (abs_nonneg _)
    rw [hzero, Int.cast_zero, zero_sub, abs_neg]
    linarith

/-- The quotient of an integer by a Scale of at most 2^-emin is 0 or normal, so DQ1 has a relative error only. -/
theorem dequantElem_err_of_scale_le {F : Fmt} {scale v : ℚ} {y : ℤ} (hpos : 0 < scale)
    (h : dequantElem F scale y = .fin v) (hscale : scale * pow2 (emin F) ≤ 1) :
    |v - y / scale| ≤ pow2 (-fPrec F) * |(y : ℚ) / scale| := by
  rw [dequantElem, divF] at h
  obtain rfl | hy := eq_or_ne y 0
  · obtain rfl : 0 = v := by simpa using h
    simp
  · have hone : (1 : ℚ) ≤ |(y : ℚ)| := by exact_mod_cast Int.one_le_abs hy
    refine rne_err_of_normal h ?_
    rw [abs_div, abs_of_pos hpos, le_div_iff₀ hpos]
    linarith

/-- Settles O51: the error of Q1, divided by the Scale, and the error of DQ1. -/
theorem roundTripIsWithinHalfAStep : Obligations.RoundTripIsWithinHalfAStep := by
  intro p F scale x y v hpos hq hd
  have hforward : |(y : ℚ) / scale - x| ≤ 1 / (2 * scale) + pow2 (-fPrec F) * |x| := by
    calc |(y : ℚ) / scale - x| = |(y : ℚ) - x * scale| / scale := by
          rw [← abs_of_pos hpos, ← abs_div, abs_of_pos hpos, sub_div, mul_div_cancel_right₀ _ hpos.ne']
      _ ≤ (1 / 2 + pow2 (-fPrec F) * |x * scale|) / scale :=
          div_le_div_of_nonneg_right (abs_quantElem_sub_le hq) hpos.le
      _ = 1 / (2 * scale) + pow2 (-fPrec F) * |x| := by
          rw [abs_mul, abs_of_pos hpos]
          field_simp
  have htriangle := abs_sub_le v ((y : ℚ) / scale) x
  have hquot : |(y : ℚ) / scale| = |(y : ℚ)| / scale := by rw [abs_div, abs_of_pos hpos]
  rw [mul_add, ← hquot]
  refine ⟨?_, fun hscale => ?_⟩
  · have hback := rne_err_add_subnormal hd
    rw [pow2, pow2] at hback
    rw [pow2] at hforward
    linarith
  · have hback := dequantElem_err_of_scale_le hpos hd hscale
    rw [pow2] at hback hforward
    linarith

end Sys2Proof.Machine
end

section
/-! # The transforms as commands: VALID 0, DEGEN 1, and purity (R160, R168, R175, R180)

A transform that commits has stored the results of its elements, and the bytes it stores are those of the results alone;
so equal source bytes give equal destination bytes, and zeros give zeros. -/

namespace Sys2Proof.Machine

open Sys2Proof.Claims

/-! ### RELEASE, and the transforms after it -/

theorem exec_release (s : State) : exec .release s = .next (s.setInst Inst.absent).commit := rfl

/-- Settles O43: the transforms' first check, and the group `Inst` that RELEASE and a reset leave. -/
theorem transformsNeedAnInstance : Obligations.TransformsNeedAnInstance := by
  refine ⟨fun s hv => ⟨exec_of_not_valid rfl hv, exec_of_not_valid rfl hv⟩, fun s t h => ?_, fun _ => rfl⟩
  rw [exec_release] at h
  obtain rfl := Host.Outcome.next.inj h
  rfl

/-- Settles O53: RELEASE has no check, and leaves VALID 0 for the transforms' first check. -/
theorem releaseDiscardsTheInstance : Obligations.ReleaseDiscardsTheInstance := by
  refine ⟨by decide, fun s => ⟨exec_release s, fun t h => exec_of_not_valid rfl ?_⟩⟩
  obtain ⟨-, hrelease, -⟩ := transformsNeedAnInstance
  exact hrelease s t h

/-! ### The bytes of a stored sequence -/

/-- Byte `i` of a little-endian number in memory holds its bits 8i+7:8i (R13). -/
theorem toNat_byte_eq_readLE (m : Memory) (n : Nat) : ∀ (a : Nat) {i : Nat}, i < n →
    (m.byte (a + i)).toNat = m.readLE a n / 256 ^ i % 256 := by
  induction n with
  | zero => intro a i hi; omega
  | succ n ih =>
    intro a i hi
    have hlow := (m.byte a).isLt
    rw [Memory.readLE]
    cases i with
    | zero =>
      rw [add_zero, pow_zero, Nat.div_one]
      omega
    | succ i =>
      have hrest : ((m.byte a).toNat + 256 * m.readLE (a + 1) n) / 256 = m.readLE (a + 1) n := by omega
      rw [pow_succ', ← Nat.div_div_eq_div_mul, hrest, ← ih (a + 1) (by omega : i < n), add_right_comm, add_assoc]

/-- Byte `j` of a stored sequence is a byte of its element j / w (R67). -/
theorem toNat_byte_putAll {w : Nat} {vs : List Nat} (m : Memory) (a : Nat) {j : Nat} (hj : j < vs.length * w) :
    ((m.putAll w a vs).byte (a + j)).toNat
      = vs[j / w]'(Nat.div_lt_of_lt_mul (mul_comm w _ ▸ hj)) % 256 ^ w / 256 ^ (j % w) % 256 := by
  have hw : 0 < w := Nat.pos_of_ne_zero (by rintro rfl; simp at hj)
  rw [← readLE_putAll w vs m a, ← toNat_byte_eq_readLE _ _ _ (Nat.mod_lt j hw), add_assoc, Nat.div_add_mod]

/-- The bytes stored depend on the sequence alone, not on the memory or the address (R67). -/
theorem byte_putAll_congr {w : Nat} {vs : List Nat} (m m' : Memory) (a a' : Nat) {j : Nat} (hj : j < vs.length * w) :
    (m.putAll w a vs).byte (a + j) = (m'.putAll w a' vs).byte (a' + j) :=
  BitVec.eq_of_toNat_eq (by rw [toNat_byte_putAll m a hj, toNat_byte_putAll m' a' hj])

theorem byte_putAll_zero {w : Nat} {vs : List Nat} (m : Memory) (a : Nat) (hvs : ∀ v ∈ vs, v = 0) {j : Nat}
    (hj : j < vs.length * w) : (m.putAll w a vs).byte (a + j) = 0 := by
  apply BitVec.eq_of_toNat_eq
  rw [toNat_byte_putAll m a hj, hvs _ (List.getElem_mem _)]
  simp

/-! ### What a transform that commits has stored -/

theorem check_code_ne_none {b : Bool} {c : ErrCode} {e : CmdError} (hc : c ≠ .none) (h : check b c = .error e) :
    e.code ≠ .none := by
  obtain ⟨-, rfl⟩ := check_error_iff.1 h
  exact hc

theorem checkBuf_code_ne_none {p : Params} {base es n : Nat} {e : CmdError} (h : checkBuf p base es n = .error e) :
    e.code ≠ .none := by
  obtain ⟨-, ⟨-, rfl⟩ | ⟨-, -, rfl⟩⟩ := checkBuf_error_iff.1 h <;> simp

/-- The errors of QUANT have codes other than NONE (R190, R195). -/
theorem doQuant_code_ne_none {s : State} {e : CmdError} (h : doQuant s = .error e) : e.code ≠ .none := by
  simp only [doQuant, bind_error_iff] at h
  obtain h | ⟨-, -, h | ⟨-, -, h | ⟨-, -, h | ⟨-, -, ⟨⟩⟩⟩⟩⟩ := h
  · exact check_code_ne_none (by simp) h
  · exact checkBuf_code_ne_none h
  · exact checkBuf_code_ne_none h
  · obtain ⟨i, -, rfl⟩ := finiteElems_error_iff.1 h
    simp

/-- The errors of DEQUANT have codes other than NONE (R190, R195). -/
theorem doDequant_code_ne_none {s : State} {e : CmdError} (h : doDequant s = .error e) : e.code ≠ .none := by
  simp only [doDequant, bind_error_iff] at h
  obtain h | ⟨-, -, h | ⟨-, -, h | ⟨-, -, ⟨⟩⟩⟩⟩ := h
  · exact check_code_ne_none (by simp) h
  · exact checkBuf_code_ne_none h
  · exact checkBuf_code_ne_none h

/-- The patterns QUANT stores. -/
def quantBits (s : State) : List Nat := ((quantResults s).map Prod.fst).map bits16

/-- The patterns DEQUANT stores. -/
def dequantBits (s : State) : List Nat := (dequantResults s).map fun v => (encodeF s.inst.fmt v).toNat

theorem quantBits_length (s : State) : (quantBits s).length = s.n := by simp [quantBits, quantResults_length]

theorem dequantBits_length (s : State) : (dequantBits s).length = s.n := by simp [dequantBits, dequantResults_length]

/-- A QUANT that ends with ERR NONE has passed its checks and committed its results (R111, R166). -/
theorem eq_of_exec_quant {s t : State} (h : exec .quant s = .next t) (he : t.err = .none) :
    t = ((s.setMem (s.mem.putAll 2 s.dst (quantBits s))).setSatCnt ((quantResults s).countP Prod.snd)).commit := by
  obtain ⟨r, hr, -⟩ | ⟨e, hr, rfl⟩ := exec_cases h
  · obtain ⟨hv, hsrc, hdst, xs, hxs, -⟩ := doQuant_ok_iff.1 hr
    obtain ⟨hfin, -⟩ := finiteElems_ok_iff.1 hxs
    exact Host.Outcome.next.inj
      (h.symm.trans (exec_quant_of_ok hv (checkBuf_ok_iff.1 hsrc) (checkBuf_ok_iff.1 hdst) hfin))
  · exact absurd (raise_err _ e s ▸ he) (doQuant_code_ne_none hr)

/-- A DEQUANT that ends with ERR NONE has passed its checks and committed its results (R111, R172). -/
theorem eq_of_exec_dequant {s t : State} (h : exec .dequant s = .next t) (he : t.err = .none) :
    t = (s.setMem (s.mem.putAll (elemSize s.inst.fmt) s.dst (dequantBits s))).commit := by
  obtain ⟨r, hr, -⟩ | ⟨e, hr, rfl⟩ := exec_cases h
  · obtain ⟨hv, hsrc, hdst, -⟩ := doDequant_ok_iff.1 hr
    exact Host.Outcome.next.inj (h.symm.trans (exec_dequant_of_ok hv (checkBuf_ok_iff.1 hsrc) (checkBuf_ok_iff.1 hdst)))
  · exact absurd (raise_err _ e s ▸ he) (doDequant_code_ne_none hr)

/-! ### Zeros, and the Scale 1.0 of DEGEN -/

/-- Q1 of 0 is 0, whatever the Scale (R168). -/
theorem quantElem_zero (p : Params) (F : Fmt) (scale : ℚ) : quantElem p F scale 0 = (0, false) := by
  have hrha : rha 0 = 0 := self_eq_neg.1 (by simpa using rha_neg 0)
  rw [quantElem_of_fin (by rw [zero_mul, rne_zero]), roundClamp_of_abs_le (by norm_num), hrha]

theorem quantResults_of_zeros {s : State} (h : ∀ k < s.n, rawAt s.inst.fmt s.mem s.src k = some 0) :
    ∀ y ∈ quantResults s, y = (0, false) := by
  intro y hy
  obtain ⟨k, hk, rfl⟩ := List.mem_map.1 hy
  rw [h k (List.mem_range.1 hk), Option.getD_some, quantElem_zero]

theorem quantBits_of_zeros {s : State} (h : ∀ k < s.n, rawAt s.inst.fmt s.mem s.src k = some 0) :
    ∀ v ∈ quantBits s, v = 0 := by
  simp only [quantBits, List.map_map, List.mem_map]
  rintro v ⟨y, hy, rfl⟩
  rw [quantResults_of_zeros h y hy]
  rfl

theorem dequantBits_of_zeros {s : State} (h : ∀ k < s.n, qAt s.mem s.src k = 0) : ∀ v ∈ dequantBits s, v = 0 := by
  simp only [dequantBits, dequantResults, intElems, List.map_map, List.mem_map, List.mem_range]
  rintro v ⟨k, hk, rfl⟩
  simp [h k hk, dequantElem, divF, encodeF_zero]

/-- Settles O48: a product by 1 is exact, and zeros are their own results, with the pattern 0. -/
theorem degenerateInstanceRoundsTheInput : Obligations.DegenerateInstanceRoundsTheInput := by
  refine ⟨fun p F x hx => ?_,
    fun s t hs hd => ⟨?_, fun hzero h he => ⟨?_, fun j hj => ?_⟩, fun hzero h he j hj => ?_⟩⟩
  · have hproduct : rne F (x * 1) = .fin x := by rw [mul_one, rne_of_representable hx]
    exact ⟨hproduct, quantElem_of_fin hproduct, rfl⟩
  · obtain ⟨-, hone⟩ := scaleValue_of_inv hs (valid_of_degen hs hd)
    exact hone hd
  · have hcount : (quantResults s).countP Prod.snd = 0 :=
      List.countP_eq_zero.2 fun y hy => by simp [quantResults_of_zeros hzero y hy]
    rw [eq_of_exec_quant h he, commit_satCnt, setSatCnt_satCnt, hcount]
    rfl
  · rw [eq_of_exec_quant h he, commit_mem, setSatCnt_mem, setMem_mem]
    exact byte_putAll_zero _ _ (quantBits_of_zeros hzero) (by rwa [quantBits_length])
  · rw [eq_of_exec_dequant h he, commit_mem, setMem_mem]
    exact byte_putAll_zero _ _ (dequantBits_of_zeros hzero) (by rwa [dequantBits_length])

/-! ### Purity -/

/-- A number read from memory depends on its bytes alone, not on where they lie (R64). -/
theorem readLE_eq_of_bytes {m m' : Memory} (n : Nat) : ∀ {a a' : Nat}, (∀ j < n, m.byte (a + j) = m'.byte (a' + j)) →
    m.readLE a n = m'.readLE a' n := by
  induction n with
  | zero => exact fun _ => rfl
  | succ n ih =>
    intro a a' h
    have hrest : m.readLE (a + 1) n = m'.readLE (a' + 1) n := ih fun j hj => by
      rw [add_right_comm, add_right_comm a']
      exact h (j + 1) (by omega)
    rw [Memory.readLE, Memory.readLE, hrest, show m.byte a = m'.byte a' from h 0 (by omega)]

/-- Element `k` of a buffer of equal bytes reads the same. -/
theorem readLE_elem_eq {m m' : Memory} {a a' w n k : Nat} (hk : k < n)
    (h : ∀ j < n * w, m.byte (a + j) = m'.byte (a' + j)) : m.readLE (a + k * w) w = m'.readLE (a' + k * w) w := by
  refine readLE_eq_of_bytes w fun j hj => ?_
  have hin : k * w + j < n * w := by
    calc k * w + j < (k + 1) * w := by linarith
      _ ≤ n * w := Nat.mul_le_mul_right w hk
  simpa only [add_assoc] using h _ hin

theorem quantResults_eq {s s' : State} (hinst : s.inst = s'.inst) (hparams : s.params = s'.params) (hn : s.n = s'.n)
    (h : ∀ j < s.n * elemSize s.inst.fmt, s.mem.byte (s.src + j) = s'.mem.byte (s'.src + j)) :
    quantResults s = quantResults s' := by
  rw [quantResults, quantResults, ← hinst, ← hparams, ← hn]
  refine List.map_congr_left fun k hk => ?_
  rw [rawAt, rawAt, rawPattern, rawPattern, readLE_elem_eq (List.mem_range.1 hk) h]

theorem dequantBits_eq {s s' : State} (hinst : s.inst = s'.inst) (hn : s.n = s'.n)
    (h : ∀ j < s.n * 2, s.mem.byte (s.src + j) = s'.mem.byte (s'.src + j)) : dequantBits s = dequantBits s' := by
  have helems : intElems s.mem s.src s.n = intElems s'.mem s'.src s'.n := by
    rw [intElems, intElems, ← hn]
    refine List.map_congr_left fun k hk => ?_
    rw [qAt, qAt, mul_comm, readLE_elem_eq (List.mem_range.1 hk) h]
  rw [dequantBits, dequantBits, dequantResults, dequantResults, helems, hinst]

/-- Settles O52: the frame of a command, and results that are the same elements of the same bytes. -/
theorem transformsArePureFunctionsOfTheirInput : Obligations.TransformsArePureFunctionsOfTheirInput := by
  refine ⟨fun i s t hi h => ?_, fun s s' t t' hinst hparams hn hsrc h h' he he' => ?_,
    fun s s' t t' hinst hn hsrc h h' he he' j hj => ?_⟩
  · obtain ⟨hsrc, hdst, hcount, hboundLo, hboundHi, -, -, -, -, hinst, habsmax, -⟩ :=
      commandsWriteOnlyTheirRegisters i s t h
    have hplain : (construction i).isNone ∧ i ≠ .release ∧ ∀ F, i ≠ .scan F := by
      obtain rfl | rfl := hi <;> simp [construction]
    obtain ⟨hconstruct, hrelease, hscan⟩ := hplain
    obtain ⟨habsmaxLo, habsmaxHi⟩ := habsmax hconstruct hscan
    exact ⟨hinst hconstruct hrelease, habsmaxLo, habsmaxHi, hsrc, hdst, hcount, hboundLo, hboundHi⟩
  · have hresults := quantResults_eq hinst hparams hn hsrc
    rw [eq_of_exec_quant h he, eq_of_exec_quant h' he']
    refine ⟨?_, fun j hj => ?_⟩
    · rw [commit_satCnt, setSatCnt_satCnt, commit_satCnt, setSatCnt_satCnt, hresults]
    · have hbits : quantBits s = quantBits s' := by rw [quantBits, quantBits, hresults]
      rw [commit_mem, setSatCnt_mem, setMem_mem, commit_mem, setSatCnt_mem, setMem_mem, ← hbits]
      exact byte_putAll_congr _ _ _ _ (by rwa [quantBits_length])
  · rw [eq_of_exec_dequant h he, eq_of_exec_dequant h' he', commit_mem, setMem_mem, commit_mem, setMem_mem,
      ← dequantBits_eq hinst hn hsrc, ← hinst]
    exact byte_putAll_congr _ _ _ _ (by rwa [dequantBits_length])

end Sys2Proof.Machine
end

section
/-! # Every command word reports the first failing row of R195 (R112, R113, R195) -/

namespace Sys2Proof.Machine

open Sys2Proof.Claims

/-- Settles O54: a word that does not decode reports row 1 of the table; one that does reports what the results of its
command report, which is the first failing row (`errorOf_resultsOf`). -/
theorem errorPriorityFollowsTheTable : Obligations.ErrorPriorityFollowsTheTable := by
  intro w s
  cases hd : decode w with
  | error r =>
    have hfirst : firstError w s = some (.illegalCommand, 0) := by rw [firstError, hd]
    rw [execCommand_of_illegal s hd, hfirst]
    exact ⟨_, rfl, setErr_err _ _ s, setErr_errIndex _ _ s⟩
  | ok i =>
    rw [execCommand_of_decode s hd, exec_eq_finish, firstError_of_decode s hd]
    cases resultsOf s i with
    | ok r => exact ⟨_, finish_ok _ s r, commit_err r, commit_errIndex r⟩
    | error e => exact ⟨_, finish_error _ s e, raise_err _ e s, raise_errIndex _ e s⟩

end Sys2Proof.Machine
end

section
/-! # Reset, between accesses and during a command (R220, R221) -/

namespace Sys2Proof.Machine

open Sys2Proof.Claims

/-! ### What a reset leaves in the registers -/

/-- No register shows what a reset keeps: memory and the model's own fields are not behind any of them (R33). -/
theorem readReg_resetInput (r : RegName) (s : State) : readReg r (resetInput s) = readReg r State.reset := by
  cases r <;> rfl

theorem registersReset_resetInput (s : State) : RegistersReset (resetInput s) := by
  intro off haligned
  rw [← registersReset_reset off haligned, regRead, regRead]
  cases regAt off with
  | some r => exact readReg_resetInput r s
  | none => rfl

theorem step_reset {s : State} {rest : List HostAccess} (h : s.pending = .reset :: rest) :
    step s = .next (resetInput { s with pending := rest }) := step_of_pending h

/-- Settles O55: the step is `resetInput`, whose registers are those of the power-on state. -/
theorem resetSetsEveryRegister : Obligations.ResetSetsEveryRegister := by
  refine ⟨fun s rest hp => ⟨_, step_reset hp, registersReset_resetInput _, ?_⟩, rfl⟩
  exact ⟨rfl, rfl, rfl, rfl, rfl, rfl, rfl⟩

/-! ### The destination of an abandoned command -/

theorem destBytes_quant (s : State) :
    destBytes 0x00000004 s = min (s.n * 2) (s.params.memBytes - s.dst) := by
  have hd : decode 0x00000004 = .ok .quant := by decide
  rw [destBytes, hd]

theorem destBytes_dequant (s : State) :
    destBytes 0x00000005 s = min (s.n * elemSize s.inst.fmt) (s.params.memBytes - s.dst) := by
  have hd : decode 0x00000005 = .ok .dequant := by decide
  rw [destBytes, hd]

/-- The destination of every command word, said of the word and not of what it decodes to (R67, R221). -/
theorem destBytes_eq (w : Word) (s : State) :
    destBytes w s = if w = 0x00000004 then min (s.n * 2) (s.params.memBytes - s.dst)
      else if w = 0x00000005 then min (s.n * elemSize s.inst.fmt) (s.params.memBytes - s.dst) else 0 := by
  split_ifs with hquant hdequant
  · rw [hquant, destBytes_quant]
  · rw [hdequant, destBytes_dequant]
  · exact (destBytes_eq_zero_or w s).resolve_right (not_or.2 ⟨hquant, hdequant⟩)

theorem step_resetDuring {s : State} {w : Word} {rest : List HostAccess} (h : s.pending = .resetDuring w :: rest) :
    step s = .next (resetDuringCommand w { s with pending := rest }) := step_of_pending h

theorem resetDuringCommand_draws (w : Word) (s : State) :
    (resetDuringCommand w s).draws = s.draws + destBytes w s := rfl

theorem byte_resetDuringCommand_inside (w : Word) (s : State) {j : Nat} (hj : j < destBytes w s) :
    (resetDuringCommand w s).mem.byte (s.dst + j) = Config.abandonedByte (s.draws + j) := by
  rw [resetDuringCommand, resetInput_mem]
  exact byte_drawAll_inside _ _ _ _ hj

theorem byte_resetDuringCommand_outside (w : Word) (s : State) {b : Nat}
    (hb : b < s.dst ∨ s.dst + destBytes w s ≤ b) : (resetDuringCommand w s).mem.byte b = s.mem.byte b := by
  rw [resetDuringCommand, resetInput_mem]
  exact byte_drawAll_outside _ _ _ _ hb

/-- Settles O56: the step is `resetDuringCommand` of a state that differs from `s` only in its pending accesses, so the
destination is that of `s`, and its bytes are the draws of `Memory.drawAll`. -/
theorem resetDuringACommandDrawsItsDestination : Obligations.ResetDuringACommandDrawsItsDestination := by
  intro s rest w hp
  exact ⟨_, destBytes w { s with pending := rest }, step_resetDuring hp, destBytes_eq w _,
    registersReset_resetInput _, rfl, rfl, rfl, fun j hj => byte_resetDuringCommand_inside w _ hj,
    resetDuringCommand_draws w _, fun b hb => byte_resetDuringCommand_outside w _ hb⟩

end Sys2Proof.Machine
end
